-- ==== Sys2Proof/Word.lean ====
section
/-! DEFINITION. The word types of the engine (spec/00_scope.md R11): a register or word named without a width is 64
bits wide, host memory and frames are bytes. Byte lanes, bit fields and rounding stand in Machine/Operands.lean. -/

namespace Sys2Proof

/-- A 64-bit word: a device register word, a host address, a counter (R11, R42, R74). -/
abbrev Word := BitVec 64

/-- A byte of host memory or of a frame (R70, R75). -/
abbrev Byte := BitVec 8

end Sys2Proof
end

