-- ==== Sys2Proof/Config.lean ====
section
/-! DEFINITION. What an implementation fixes (spec/00_scope.md R8, R9; spec/20_memory.md R70, R90), the test
configuration TC of R9, and the free values the spec draws (R79, R86, R52), each an opaque constant: no proof can
see a value of one, so a statement about it holds whatever it is. -/

namespace Sys2Proof

/-- R9, `MODE`: how receive drains are started; fixed from reset. -/
inductive Mode
  | interrupt
  | polling
deriving DecidableEq, Repr

/-- The parameters of R9, `HOST_ADDR_BITS` of R70, and the named premise `REF_DEVICE` with its `REF_MAC` (R90).
Constraints between them are checked by `brokenConstraint` (Machine/Check.lean), not by this type. -/
structure Config where
  slotCount     : Nat
  slotIndexMask : Word
  doneMask      : Word
  baseErr       : Word
  lenMask       : Word
  maxFrameBytes : Nat
  alignPad      : Nat
  slotStride    : Nat
  rxBufMin      : Nat
  txWindowBytes : Nat
  offMaclo      : Nat
  offMachi      : Nat
  offTplr       : Nat
  offRsr        : Nat
  offRbad       : Nat
  offRplr       : Nat
  rplrStride    : Nat
  offTxbuf      : Nat
  offRxbuf      : Nat
  offBits       : Nat
  machiMacMask  : Word
  machiIrqEn    : Word
  machiAllpkts  : Word
  mode          : Mode
  watchdog      : Bool
  rxcsumReset   : Bool
  ifId          : Nat
  /-- `HOST_ADDR_BITS`: no rule bounds it. The model's buffer handles are 64-bit words whatever it is (DESIGN CHOICE, log
  entry 30). -/
  hostAddrBits  : Nat
  /-- The premise `REF_DEVICE` (R90): true when the device answers as the reference device. -/
  refDevice     : Bool
  refMac        : BitVec 48
deriving DecidableEq, Repr

/-- R8: the checksum trailer is 4 bytes. -/
def csumTrailerBytes : Nat := 4

/-- The test configuration: column TC of R9 (D4), with `REF_DEVICE` not taken. `refMac` is the `REF_MAC` of
spec/95_test_vectors.md section 3. -/
def Config.tc : Config where
  slotCount     := 8
  slotIndexMask := 0x7
  doneMask      := 0x1000
  baseErr       := 0x1
  lenMask       := 0xFFF
  maxFrameBytes := 2046
  alignPad      := 2
  slotStride    := 2048
  rxBufMin      := 2050
  txWindowBytes := 2048
  offMaclo      := 0x000
  offMachi      := 0x008
  offTplr       := 0x010
  offRsr        := 0x018
  offRbad       := 0x020
  offRplr       := 0x040
  rplrStride    := 8
  offTxbuf      := 0x1000
  offRxbuf      := 0x4000
  offBits       := 16
  machiMacMask  := 0xFFFF
  machiIrqEn    := 0x00800000
  machiAllpkts  := 0x00400000
  mode          := .interrupt
  watchdog      := true
  rxcsumReset   := false
  ifId          := 1
  hostAddrBits  := 64
  refDevice     := false
  refMac        := 0x0002A1B2C3D4

/-- `Draw()` (R79): the n-th word drawn. Any 64-bit word; nothing constrains it. -/
opaque Config.freeDraw : Nat → Word

/-- What the opaque allocator offers at draw n (R86): an address or `NONE`. Nothing constrains it; an offer that is no
lawful buffer counts as `NONE` (`State.nextAlloc`). -/
opaque Config.freeAlloc : Nat → Option Word

/-- The word that device offset `off` holds after the reset numbered `seed` (R52, R280): any value. -/
opaque Config.freeDevWord (seed off : Nat) : Word

end Sys2Proof
end

