-- ==== Sys2Proof/Syntax.lean ====
section
/-! DEFINITION. The operations of the engine, one constructor per row of spec/opcode_table.json (spec/30_encoding.md
R110 to R121), the words that carry them on the ports, and the registers a bus request selects (R120). -/

namespace Sys2Proof

/-- One row of the opcode table, with its operands (R113, R117, R118, R120). -/
inductive Instr
  -- CMD (R113, R114)
  | txSend (len : BitVec 24) (h : Word)
  | ifStart
  | ifStop
  | setPromisc (on : Bool)
  | setCaps (req : BitVec 24)
  | getPromisc
  | getCaps
  | getMaxlen
  | readMac
  | readCounter (sel : BitVec 3)
  -- EVT (R117)
  | evRxIrq
  | evPollTick
  | evWatchdogTick
  | evReset
  -- STEP (R118)
  | stInit
  | wkTest
  | wkDecode
  | wkValidate
  | wkReject
  | wkAlloc
  | wkCopy
  | wkAdvance
  | wkDeliver
  | wkExit
  | wkAbort
  -- BUS (R120)
  | rdMaclo
  | rdMachi
  | wrMachi (v : Word)
  | wrTplr (v : Word)
  | rdRsr
  | wrRsr (v : Word)
  | rdRbad
  | rdRplr (s : Nat)
  | wrTxbuf (k : Nat) (v : Word)
  | rdRxbuf (s k : Nat)
deriving DecidableEq, Repr

/-- A word on a port. The port tells the formats apart, never the bits (R110). A bus header is `{we, off}`, read as
one number with `we` at bit `OFF_BITS` (R119, R120). -/
inductive PortWord
  | cmd (c : BitVec 32) (h : Word)
  | evt (code : BitVec 8)
  | step (code : BitVec 8)
  | bus (hdr : Nat) (wdata : Word)
deriving DecidableEq, Repr

/-- Why a word decodes to no operation. -/
inductive Reject
  /-- A reserved `OPC` (R113, R116). -/
  | reservedOpc
  /-- A nonzero reserved bit of `ARG` (R112, R116). -/
  | reservedArg
  /-- `READ_COUNTER` with `sel` 5 to 7 (R113). -/
  | badSelect
  /-- A code that is no event (R117). -/
  | notAnEvent
  /-- A code that is no step, `W_IDLE` among them (R118). -/
  | notAStep
  /-- A bus request that matches no row of R120 (R121). -/
  | noBusRow
deriving DecidableEq, Repr

/-- The read rows of R120. -/
inductive ReadReg
  | maclo
  | machi
  | rsr
  | rbad
  | rplr (s : Nat)
  | rxbuf (s k : Nat)
deriving DecidableEq, Repr

/-- The write rows of R120. -/
inductive WriteReg
  | machi
  | tplr
  | rsr
  | txbuf (k : Nat)
deriving DecidableEq, Repr

end Sys2Proof
end

