-- ==== Sys2Proof/WellFormed.lean ====
section
/-! DEFINITION. The operand checks of an operation (spec/30_encoding.md R113, R120): the counter select is 0 to 4, and
slot and word numbers of a bus request stay inside their register file or window. -/

namespace Sys2Proof

/-- Every operand is one that the encoding of R113 or R120 can name under the configuration `c`. -/
def WellFormed (c : Config) : Instr → Bool
  | .readCounter sel => decide (sel.toNat ≤ 4)
  | .rdRplr s => decide (s < c.slotCount)
  | .wrTxbuf k _ => decide (8 * k < c.txWindowBytes)
  | .rdRxbuf s k => decide (s < c.slotCount) && decide (8 * k < c.slotStride)
  | .txSend _ _ | .ifStart | .ifStop | .setPromisc _ | .setCaps _ | .getPromisc | .getCaps | .getMaxlen | .readMac => true
  | .evRxIrq | .evPollTick | .evWatchdogTick | .evReset => true
  | .stInit | .wkTest | .wkDecode | .wkValidate | .wkReject | .wkAlloc | .wkCopy | .wkAdvance | .wkDeliver | .wkExit
  | .wkAbort => true
  | .rdMaclo | .rdMachi | .wrMachi _ | .wrTplr _ | .rdRsr | .wrRsr _ | .rdRbad => true

end Sys2Proof
end

