-- ==== Sys2Proof/Decode.lean ====
section
/-! DEFINITION. Decoding and encoding (spec/30_encoding.md R110 to R123): the decoder is total and rejects by name;
the encoder is written from the same tables. Register selection by offset is R120. -/

namespace Sys2Proof

/-! ## Bus requests: register selection (R120) -/

/-- The offset of a readable register or window word (R47, R50, R120). -/
def readOffset (c : Config) : ReadReg → Nat
  | .maclo => c.offMaclo
  | .machi => c.offMachi
  | .rsr => c.offRsr
  | .rbad => c.offRbad
  | .rplr s => c.offRplr + s * c.rplrStride
  | .rxbuf s k => c.offRxbuf + s * c.slotStride + 8 * k

/-- The offset of a writable register or window word (R49, R120). -/
def writeOffset (c : Config) : WriteReg → Nat
  | .machi => c.offMachi
  | .tplr => c.offTplr
  | .rsr => c.offRsr
  | .txbuf k => c.offTxbuf + 8 * k

/-- The first read row of R120 that `off` matches; `none` for an offset the engine never reads (R121). -/
def selectRead (c : Config) (off : Nat) : Option ReadReg :=
  if off % 8 ≠ 0 then none
  else if off = c.offMaclo then some .maclo
  else if off = c.offMachi then some .machi
  else if off = c.offRsr then some .rsr
  else if off = c.offRbad then some .rbad
  else if c.offRplr ≤ off ∧ off < c.offRplr + c.slotCount * c.rplrStride ∧ (off - c.offRplr) % c.rplrStride = 0 then
    some (.rplr ((off - c.offRplr) / c.rplrStride))
  else if c.offRxbuf ≤ off ∧ off < c.offRxbuf + c.slotCount * c.slotStride then
    some (.rxbuf ((off - c.offRxbuf) / c.slotStride) ((off - c.offRxbuf) % c.slotStride / 8))
  else none

/-- The first write row of R120 that `off` matches; `none` for an offset the engine never writes (R121). -/
def selectWrite (c : Config) (off : Nat) : Option WriteReg :=
  if off % 8 ≠ 0 then none
  else if off = c.offMachi then some .machi
  else if off = c.offTplr then some .tplr
  else if off = c.offRsr then some .rsr
  else if c.offTxbuf ≤ off ∧ off < c.offTxbuf + c.txWindowBytes then some (.txbuf ((off - c.offTxbuf) / 8))
  else none

/-- The bus row of a read. -/
def readInstr : ReadReg → Instr
  | .maclo => .rdMaclo
  | .machi => .rdMachi
  | .rsr => .rdRsr
  | .rbad => .rdRbad
  | .rplr s => .rdRplr s
  | .rxbuf s k => .rdRxbuf s k

/-- The bus row of a write of `v`. -/
def writeInstr (v : Word) : WriteReg → Instr
  | .machi => .wrMachi v
  | .tplr => .wrTplr v
  | .rsr => .wrRsr v
  | .txbuf k => .wrTxbuf k v

/-- The header `{we, off}` of `1 + OFF_BITS` bits (R119). -/
def busHeader (c : Config) (we : Bool) (off : Nat) : Nat :=
  (if we then 2 ^ c.offBits else 0) + off

/-- A bus request selects a row by its header (R120). -/
def decodeBus (c : Config) (hdr : Nat) (wdata : Word) : Except Reject Instr :=
  let off := hdr % 2 ^ c.offBits
  match hdr / 2 ^ c.offBits with
  | 0 => ((selectRead c off).map readInstr).elim (.error .noBusRow) .ok
  | 1 => ((selectWrite c off).map (writeInstr wdata)).elim (.error .noBusRow) .ok
  | _ => .error .noBusRow

/-! ## Commands (R111 to R116), events (R117), steps (R118) -/

/-- The row's check that every bit of `ARG` is reserved and zero (R112). -/
def noArg (arg : BitVec 24) (i : Instr) : Except Reject Instr :=
  if arg = 0 then .ok i else .error .reservedArg

/-- `SET_PROMISC`: `ARG[0]` is `on`, `ARG[23:1]` is reserved (R113). -/
def decodePromisc (arg : BitVec 24) : Except Reject Instr :=
  if arg.extractLsb' 1 23 = 0 then .ok (.setPromisc (arg.getLsbD 0)) else .error .reservedArg

/-- `READ_COUNTER`: `ARG[2:0]` is `sel`, 0 to 4; `ARG[23:3]` is reserved (R113). -/
def decodeCounter (arg : BitVec 24) : Except Reject Instr :=
  if arg.extractLsb' 3 21 = 0 then
    if (arg.extractLsb' 0 3).toNat ≤ 4 then .ok (.readCounter (arg.extractLsb' 0 3)) else .error .badSelect
  else .error .reservedArg

/-- The row of R113 that `OPC` selects, with its check of `ARG`. -/
def decodeOpc (opc : Nat) (arg : BitVec 24) (h : Word) : Except Reject Instr :=
  match opc with
  | 0x01 => .ok (.txSend arg h)
  | 0x02 => noArg arg .ifStart
  | 0x03 => noArg arg .ifStop
  | 0x04 => decodePromisc arg
  | 0x05 => .ok (.setCaps arg)
  | 0x06 => noArg arg .getPromisc
  | 0x07 => noArg arg .getCaps
  | 0x08 => noArg arg .getMaxlen
  | 0x09 => noArg arg .readMac
  | 0x0A => decodeCounter arg
  | _ => .error .reservedOpc

/-- A command word: `OPC` is `[7:0]`, `ARG` is `[31:8]`, `h` the side operand (R111, R112). -/
def decodeCmd (c : BitVec 32) (h : Word) : Except Reject Instr :=
  decodeOpc (c.extractLsb' 0 8).toNat (c.extractLsb' 8 24) h

/-- An event code (R117). -/
def decodeEvt (code : BitVec 8) : Except Reject Instr :=
  match code.toNat with
  | 0x40 => .ok .evRxIrq
  | 0x41 => .ok .evPollTick
  | 0x42 => .ok .evWatchdogTick
  | 0x43 => .ok .evReset
  | _ => .error .notAnEvent

/-- A step code (R118). -/
def decodeStep (code : BitVec 8) : Except Reject Instr :=
  match code.toNat with
  | 0x50 => .ok .stInit
  | 0x61 => .ok .wkTest
  | 0x62 => .ok .wkDecode
  | 0x63 => .ok .wkValidate
  | 0x64 => .ok .wkReject
  | 0x65 => .ok .wkAlloc
  | 0x66 => .ok .wkCopy
  | 0x67 => .ok .wkAdvance
  | 0x68 => .ok .wkDeliver
  | 0x69 => .ok .wkExit
  | 0x6A => .ok .wkAbort
  | _ => .error .notAStep

/-- Decoding, by the port the word arrives on (R110). -/
def decode (c : Config) : PortWord → Except Reject Instr
  | .cmd w h => decodeCmd w h
  | .evt code => decodeEvt code
  | .step code => decodeStep code
  | .bus hdr wdata => decodeBus c hdr wdata

/-! ## Encoding (R113, R117, R118, R119, R122) -/

/-- The command word of `OPC` and `ARG` (R111). -/
def cmdWord (opc : BitVec 8) (arg : BitVec 24) : BitVec 32 := arg ++ opc

/-- The word of an operation; a command other than `TX_SEND` ignores its side operand, written here as 0 (R111). -/
def encode (c : Config) : Instr → PortWord
  | .txSend len h => .cmd (cmdWord 0x01 len) h
  | .ifStart => .cmd (cmdWord 0x02 0) 0
  | .ifStop => .cmd (cmdWord 0x03 0) 0
  | .setPromisc on => .cmd (cmdWord 0x04 ((0 : BitVec 23) ++ BitVec.ofBool on)) 0
  | .setCaps req => .cmd (cmdWord 0x05 req) 0
  | .getPromisc => .cmd (cmdWord 0x06 0) 0
  | .getCaps => .cmd (cmdWord 0x07 0) 0
  | .getMaxlen => .cmd (cmdWord 0x08 0) 0
  | .readMac => .cmd (cmdWord 0x09 0) 0
  | .readCounter sel => .cmd (cmdWord 0x0A ((0 : BitVec 21) ++ sel)) 0
  | .evRxIrq => .evt 0x40
  | .evPollTick => .evt 0x41
  | .evWatchdogTick => .evt 0x42
  | .evReset => .evt 0x43
  | .stInit => .step 0x50
  | .wkTest => .step 0x61
  | .wkDecode => .step 0x62
  | .wkValidate => .step 0x63
  | .wkReject => .step 0x64
  | .wkAlloc => .step 0x65
  | .wkCopy => .step 0x66
  | .wkAdvance => .step 0x67
  | .wkDeliver => .step 0x68
  | .wkExit => .step 0x69
  | .wkAbort => .step 0x6A
  | .rdMaclo => .bus (busHeader c false (readOffset c .maclo)) 0
  | .rdMachi => .bus (busHeader c false (readOffset c .machi)) 0
  | .wrMachi v => .bus (busHeader c true (writeOffset c .machi)) v
  | .wrTplr v => .bus (busHeader c true (writeOffset c .tplr)) v
  | .rdRsr => .bus (busHeader c false (readOffset c .rsr)) 0
  | .wrRsr v => .bus (busHeader c true (writeOffset c .rsr)) v
  | .rdRbad => .bus (busHeader c false (readOffset c .rbad)) 0
  | .rdRplr s => .bus (busHeader c false (readOffset c (.rplr s))) 0
  | .wrTxbuf k v => .bus (busHeader c true (writeOffset c (.txbuf k))) v
  | .rdRxbuf s k => .bus (busHeader c false (readOffset c (.rxbuf s k))) 0

/-- The bits that carry the operation: the command word, the code or the header, without side operand or write data. -/
def headBits : PortWord → Nat
  | .cmd w _ => w.toNat
  | .evt code => code.toNat
  | .step code => code.toNat
  | .bus hdr _ => hdr

/-! ## Pseudo-instructions (R123) -/

def promiscOn : Instr := .setPromisc true
def promiscOff : Instr := .setPromisc false
def rxcsumOn : Instr := .setCaps 1
def rxcsumOff : Instr := .setCaps 0
def readIpackets : Instr := .readCounter 0
def readIerrors : Instr := .readCounter 1
def readIqdrops : Instr := .readCounter 2
def readOpackets : Instr := .readCounter 3
def readObytes : Instr := .readCounter 4

/-! ## The opcode table's numbering of bits -/

/-- The port of a table row by its number of bits: a bus row has 17 bits (24 in whole bytes), a command row 32, an
event or step row 8. A command row whose fixed bits are only `OPC` may be given 8 bits; event, step and command
codes are disjoint, so the code tells which port it is (log entry 12). -/
def tablePortWord (nbits w : Nat) : PortWord :=
  if nbits ≤ 8 then
    if (decodeEvt (BitVec.ofNat 8 w)).isOk then .evt (BitVec.ofNat 8 w)
    else if (decodeStep (BitVec.ofNat 8 w)).isOk then .step (BitVec.ofNat 8 w)
    else .cmd (BitVec.ofNat 32 w) 0
  else if nbits ≤ 24 then .bus w 0
  else .cmd (BitVec.ofNat 32 w) 0

/-- What the decoder reads from a table word, under the test configuration the table's bus rows are written for. -/
def decodeTableWord (nbits w : Nat) : Option Instr :=
  (decode Config.tc (tablePortWord nbits w)).toOption

end Sys2Proof
end

