-- ==== Sys2Proof/Machine/Sparse.lean ====
section
/-! DEFINITION. Sparse storage by address: a list of (address, value) pairs. `get` and `set` obey the laws of a store
for every list (Laws/Memory.lean); on a list with strictly rising addresses `set` and `erase` keep it so. -/

namespace Sys2Proof.Machine

/-- The value listed at `k`, if any. -/
def Sparse.get {α : Type} : List (Nat × α) → Nat → Option α
  | [], _ => none
  | (a, v) :: t, k => if k = a then some v else Sparse.get t k

/-- The list with `v` at `k`, placed in order of address. -/
def Sparse.set {α : Type} : List (Nat × α) → Nat → α → List (Nat × α)
  | [], k, v => [(k, v)]
  | (a, w) :: t, k, v =>
    if k < a then (k, v) :: (a, w) :: t
    else if k = a then (k, v) :: t
    else (a, w) :: Sparse.set t k v

/-- The list with nothing at `k`. -/
def Sparse.erase {α : Type} : List (Nat × α) → Nat → List (Nat × α)
  | [], _ => []
  | (a, w) :: t, k => if k = a then Sparse.erase t k else (a, w) :: Sparse.erase t k

/-- Addresses rise strictly. -/
def Sparse.sorted {α : Type} : List (Nat × α) → Bool
  | [] => true
  | (a, _) :: t => t.all (fun c => decide (a < c.1)) && Sparse.sorted t

end Sys2Proof.Machine
end

