-- ==== Sys2Proof/Machine/State.lean ====
section
/-! DEFINITION. The state of the model: the pair (E, D) of spec/10_state.md R30 (engine, device), host memory (R70,
R72), and the model's own parts: the configuration (fixed for a run), the environment's choices (which agent moves
next, what a draw answers, which access the platform reports as failed) and the trace of the engine's ports. -/

namespace Sys2Proof.Machine

/-! ## Engine state E (spec/10_state.md sections 2 to 5) -/

/-- The worker's step pointer (R33). -/
inductive Wpc
  | idle
  | test
  | decode
  | validate
  | reject
  | alloc
  | copy
  | advance
  | deliver
  | exit
  | abort
deriving DecidableEq, Repr

/-- A decoded frame length, or the marker `BADLEN` (R31, R178). -/
inductive FrameLen
  | bytes (n : Nat)
  | badlen
deriving DecidableEq, Repr

/-- The status of a command's response (R115). -/
inductive Status
  | ok
  | dropped
  | rejected
deriving DecidableEq, Repr

/-- The result of the last command (R35, R115). -/
structure Resp where
  status : Status
  value  : Word
deriving DecidableEq, Repr

/-- The fault codes of R251. -/
inductive FaultCode
  | bus
  | hostMem
  | badCmd
  | addr
  | unwritten
  | cfg
deriving DecidableEq, Repr

/-- A recorded fault: the pair `(code, info)` of R41. -/
structure FaultRecord where
  code : FaultCode
  info : Word
deriving DecidableEq, Repr

/-- The engine. A working register that no step has written since reset holds no value (R32, R53): `none`. -/
structure Engine where
  st       : Option Word
  slot     : Option Nat
  errs     : Option Word
  raw      : Option Word
  len      : Option FrameLen
  /-- `none`: unwritten. `some none`: the value `NONE`. `some (some b)`: the buffer at host address `b`, a
  64-bit word whatever `HOST_ADDR_BITS` is (DESIGN CHOICE, log entry 30). -/
  buf      : Option (Option Word)
  wpc      : Wpc
  busy     : Bool
  resp     : Resp
  running  : Bool
  promisc  : Bool
  rxcsum   : Bool
  initDone : Bool
  fault    : Option FaultRecord
  ipackets : Word
  ierrors  : Word
  iqdrops  : Word
  opackets : Word
  obytes   : Word
deriving DecidableEq, Repr

/-- Every engine field at its value of R53. -/
def Engine.reset (c : Config) : Engine where
  st       := none
  slot     := none
  errs     := none
  raw      := none
  len      := none
  buf      := none
  wpc      := .idle
  busy     := false
  resp     := ⟨.ok, 0⟩
  running  := false
  promisc  := false
  rxcsum   := c.rxcsumReset
  initDone := false
  fault    := none
  ipackets := 0
  ierrors  := 0
  iqdrops  := 0
  opackets := 0
  obytes   := 0

/-! ## Device state D (spec/10_state.md section 6; spec/20_memory.md R90) -/

/-- The device. `words` holds the registers MACLO, MACHI, TPLR, RPLR[s] and the words of both windows by their
offsets; an unlisted word reads as the free value `Config.freeDevWord seed`. The other fields are the hidden state of
the reference device (R90). -/
structure Device where
  seed  : Nat
  words : List (Nat × Word)
  cons  : Nat
  full  : List Bool
  bad   : List Bool
  /-- The frames sent, oldest first (R90). -/
  wire  : List (List Byte)
deriving DecidableEq, Repr

/-- The device after a reset (R280): its words are the draws numbered `seed`; under `REF_DEVICE` it is the reference
device's reset of R90, the MAC words holding `REF_MAC`. -/
def Device.reset (c : Config) (seed : Nat) : Device where
  seed  := seed
  words :=
    if c.refDevice then
      Sparse.set (Sparse.set [] c.offMaclo ((c.refMac.extractLsb' 0 32).setWidth 64))
        c.offMachi ((c.refMac.extractLsb' 32 16).setWidth 64)
    else []
  cons  := 0
  full  := List.replicate c.slotCount false
  bad   := List.replicate c.slotCount false
  wire  := []

/-! ## Host memory -/

/-- Host memory (R70, R72): listed bytes, addresses strictly rising, no listed byte equal to what an unlisted address
reads as (`Memory.wf`). -/
abbrev Memory := List Host.Cell

/-! ## The environment's choices (the model's own) -/

/-- What the outside world offers at a step boundary (R261, R265). -/
inductive Item
  /-- A word arrives on a port: a command, an event, the internal agent's turn at a step, or a bus request. -/
  | port (w : PortWord)
  /-- The reference device captures frame `f` with raw length word `r` and bad bit `e` (R91). -/
  | capture (f : List Byte) (r : Word) (e : Bool)
  /-- The host writes its own memory (R98). -/
  | hostWrite (addr : Nat) (bs : List Byte)
  /-- The next `Alloc` returns `NONE` (R122, `.dev alloc_fail`). Of several before one `Alloc` each makes one more `Alloc`
  fail (DESIGN CHOICE, log entry 26). -/
  | allocFail
  /-- Without `REF_DEVICE`: the device changes a word of its own window (R265, R79). -/
  | deviceChange (off : Nat) (v : Word)
deriving DecidableEq, Repr

/-- A device access the platform will report as failed (R130, R131): `after` more accesses complete first; `lands`
says whether a failed write had its effect. -/
structure BusFailure where
  after : Nat
  lands : Bool
deriving DecidableEq, Repr

/-- A host-memory access the platform will report as failed (R84): `after` more accesses complete first; bit i of
`lanes` says whether byte i of a failed write was stored. -/
structure MemFailure where
  after : Nat
  lanes : BitVec 8
deriving DecidableEq, Repr

/-- The environment: offers (oldest first), answers already chosen for coming draws and allocations, the number of
draws made so far (the index of the opaque free values), coming failures, and whether the platform gave the engine its
register window and its interrupt line (R257). -/
structure Env where
  agenda     : List Item
  nextDraws  : List Word
  nextAllocs : List (Option Word)
  drawn      : Nat
  busFail    : Option BusFailure
  memFail    : Option MemFailure
  setupOk    : Bool
deriving DecidableEq, Repr

/-- What the engine puts out on its ports (R84 to R88, R130, R131). -/
inductive PortEvent
  /-- A completed read of the device window. -/
  | rd (off : Nat) (w : Word)
  /-- A completed write of the device window. -/
  | wr (off : Nat) (w : Word)
  /-- A device access the platform reported as failed. -/
  | failed (off : Nat)
  /-- `Alloc(n)` and its answer (R86). -/
  | alloc (n : Nat) (r : Option Word)
  /-- `Release` of an outbound frame (R87). -/
  | releaseFrame (h : Word) (len : Nat)
  /-- `Release` of a receive buffer (R87). -/
  | releaseBuf (b : Word)
  /-- `Deliver(b, off, len, id)` (R88). -/
  | deliver (b : Word) (off len id : Nat)
deriving DecidableEq, Repr

/-! ## The whole state -/

/-- The state of the model. No step changes `cfg`. `trace` is newest first. -/
structure State where
  cfg   : Config
  eng   : Engine
  dev   : Device
  mem   : Memory
  env   : Env
  trace : List PortEvent
deriving DecidableEq, Repr

/-- The machine right after reset under configuration `c`: engine and device as R280 says, nothing listed in host
memory, nothing offered, no answer or failure chosen. -/
def State.resetWith (c : Config) : State where
  cfg   := c
  eng   := Engine.reset c
  dev   := Device.reset c 0
  mem   := []
  env   :=
    { agenda := [], nextDraws := [], nextAllocs := [], drawn := 1, busFail := none, memFail := none, setupOk := true }
  trace := []

/-- The machine right after reset, in the test configuration of R9. -/
def State.reset : State := State.resetWith Config.tc

/-! ## How a step can stop -/

/-- Why a step stops with no next state. An instruction's own faults (R251) are recorded in `Engine.fault` and are
next states; these two are raised by `step` alone. -/
inductive Fault
  /-- Raised by `step` in every state whose configuration breaks constraint `k` of R255 (`F_CFG`): such a
  configuration has no run. Safe: the spec gives it no initial state. -/
  | badConfig (k : Nat)
  /-- Raised by `step` when the engine has recorded a fault and the environment offers nothing: no engine agent has
  an enabled step (R41, R250). Safe: the spec says the engine stops. -/
  | halted (r : FaultRecord)
deriving DecidableEq, Repr

/-- An instruction without a meaning. -/
inductive Refusal
  /-- Raised by `exec` for an instruction not modelled yet. Safe. No arm uses it. -/
  | notModelled (mnemonic : String)
deriving DecidableEq, Repr

end Sys2Proof.Machine
end

