-- ==== Sys2Proof/Machine/Operands.lean ====
section
/-! DEFINITION. Operand forms and pure computations: rounding (spec/00_scope.md R13), byte lanes (spec/20_memory.md
R75), descriptor decode and validation (spec/42_receive.md R174 to R180), address generation (R152, R184, R190), MAC
reassembly (spec/40_register_interface.md R137), and the numbers of codes (R115, R118, R251). -/

namespace Sys2Proof.Machine

/-! ## Rounding (R13) -/

def words8 (n : Nat) : Nat := (n + 7) / 8

def roundUp8 (n : Nat) : Nat := (n + 7) / 8 * 8

/-! ## Byte lanes (R75): byte i of a word is bits 8i+7:8i -/

def byteOf (w : Word) (i : Nat) : Byte := w.extractLsb' (8 * i) 8

/-- The first `n` bytes of a word, byte 0 first. -/
def bytesOf (w : Word) (n : Nat) : List Byte := (List.range n).map (byteOf w)

/-- The word whose byte i is the i-th of the list (R151). -/
def ofBytes : List Byte → Word
  | [] => 0
  | b :: bs => b.setWidth 64 ||| (ofBytes bs <<< 8)

/-- The first `n` window words of a byte list, 8 bytes a word (R75). -/
def wordsOf : List Byte → Nat → List Word
  | _, 0 => []
  | bs, n + 1 => ofBytes (bs.take 8) :: wordsOf (bs.drop 8) n

/-! ## Receive descriptor (R174 to R180) -/

/-- `done(st)` (R174). -/
def isDone (c : Config) (st : Word) : Bool := st &&& c.doneMask != 0

/-- `slot_of(st)` (R174). -/
def slotOf (c : Config) (st : Word) : Nat := (st &&& c.slotIndexMask).toNat

/-- `decode_len(raw, rxcsum)` (R178). -/
def decodeLen (c : Config) (raw : Word) (rxcsum : Bool) : FrameLen :=
  let n := (raw &&& c.lenMask).toNat
  if rxcsum then
    if n < csumTrailerBytes then .badlen else .bytes (n - csumTrailerBytes)
  else .bytes n

/-- `errmask(s)` (R179). -/
def errmask (c : Config) (s : Nat) : Word := c.baseErr ||| (c.baseErr <<< s)

/-- The length test of `accept` (R180): neither `BADLEN` nor above the ceiling. -/
def lenOk (c : Config) : FrameLen → Bool
  | .badlen => false
  | .bytes n => decide (n ≤ c.maxFrameBytes)

/-- `accept(len, errs, s)` (R180). -/
def accept (c : Config) (len : FrameLen) (errs : Word) (s : Nat) : Bool :=
  lenOk c len && errmask c s &&& errs == 0

/-- `next_id(s)` (R190). -/
def nextId (s : Nat) : Word := BitVec.ofNat 64 (s + 1)

/-! ## Addresses (R152, R184) -/

/-- `rx_addr(s, k)` (R184). -/
def rxAddr (c : Config) (s k : Nat) : Nat := readOffset c (.rxbuf s k)

/-- `tx_addr(k)` (R152). -/
def txAddr (c : Config) (k : Nat) : Nat := writeOffset c (.txbuf k)

/-- The host address of word `k` of a received frame in buffer `b` (R184). -/
def bufAddr (c : Config) (b : Word) (k : Nat) : Nat := b.toNat + c.alignPad + 8 * k

/-! ## MAC reassembly (R76, R137) -/

/-- `mac_bytes(hi, lo)`: `mac[0]` first. -/
def macBytes (hi lo : Word) : List Byte :=
  [byteOf hi 1, byteOf hi 0, byteOf lo 3, byteOf lo 2, byteOf lo 1, byteOf lo 0]

/-- The address as one 48-bit value `{h16, l32}`, zero-extended (R137, R227). -/
def macValue (hi lo : Word) : Word :=
  ((hi.extractLsb' 0 16) ++ (lo.extractLsb' 0 32) : BitVec 48).setWidth 64

/-! ## Codes -/

/-- The value of a 1-bit flag as a 64-bit word (`zext_64`, R224). -/
def flagWord (b : Bool) : Word := if b then 1 else 0

/-- R115. -/
def statusCode : Status → Nat
  | .ok => 0
  | .dropped => 1
  | .rejected => 2

/-- R251. -/
def faultNumber : FaultCode → Nat
  | .bus => 1
  | .hostMem => 2
  | .badCmd => 3
  | .addr => 4
  | .unwritten => 5
  | .cfg => 6

/-- R118. -/
def wpcCode : Wpc → BitVec 8
  | .idle => 0x60
  | .test => 0x61
  | .decode => 0x62
  | .validate => 0x63
  | .reject => 0x64
  | .alloc => 0x65
  | .copy => 0x66
  | .advance => 0x67
  | .deliver => 0x68
  | .exit => 0x69
  | .abort => 0x6A

end Sys2Proof.Machine
end

