-- ==== Sys2Proof/Machine/Memory.lean ====
section
/-! DEFINITION. Host memory (spec/20_memory.md R70, R72, R84) in its canonical form, and the device's words
(spec/10_state.md R43 to R50). -/

namespace Sys2Proof.Machine

/-- What an unlisted address of host memory reads as. DESIGN CHOICE, unsafe: the spec gives no contents (log entry 7). -/
def Memory.blank : Byte := 0

def Memory.read (m : Memory) (a : Nat) : Byte := (Sparse.get m a).getD Memory.blank

/-- Writing the blank byte removes the entry, so that equal memories are equal lists. -/
def Memory.write (m : Memory) (a : Nat) (b : Byte) : Memory :=
  if b = Memory.blank then Sparse.erase m a else Sparse.set m a b

/-- Byte i of the list goes to address `a + i` (R84). -/
def Memory.writeBytes : Memory → Nat → List Byte → Memory
  | m, _, [] => m
  | m, a, b :: bs => Memory.writeBytes (Memory.write m a b) (a + 1) bs

/-- `MemRead(addr, n)`: the `n` bytes from `a`, in address order (R84). -/
def Memory.bytes (m : Memory) (a n : Nat) : List Byte := (List.range n).map (fun i => Memory.read m (a + i))

/-- The canonical form: addresses strictly rising, no entry equal to the blank byte. -/
def Memory.wf (m : Memory) : Bool := Sparse.sorted m && m.all (fun c => c.2 != Memory.blank)

/-- The word the device holds at an offset; an unlisted one is a free value (R52). -/
def Device.word (d : Device) (off : Nat) : Word := (Sparse.get d.words off).getD (Config.freeDevWord d.seed off)

def Device.store (d : Device) (off : Nat) (v : Word) : Device := { d with words := Sparse.set d.words off v }

end Sys2Proof.Machine
end

