-- ==== Sys2Proof/Machine/Device.lean ====
section
/-! DEFINITION. The device: what a write does to it (spec/20_memory.md R80, R81), and the reference device `REF_DEVICE`
(R90, R91), whose answers count only when the configuration takes that premise. -/

namespace Sys2Proof.Machine

/-- `full[s]` (R90). -/
def Device.isFull (d : Device) (s : Nat) : Bool := d.full.getD s false

/-- `bad[s]` (R90). -/
def Device.isBad (d : Device) (s : Nat) : Bool := d.bad.getD s false

/-- `RSR` under `REF_DEVICE` (R90). -/
def refRsr (c : Config) (d : Device) : Word :=
  (if d.isFull d.cons then c.doneMask else 0) ||| BitVec.ofNat 64 d.cons

/-- `RBAD` under `REF_DEVICE`: the OR of `BASE_ERR << s` over the full bad slots (R90). -/
def refRbad (c : Config) (d : Device) : Word :=
  (List.range c.slotCount).foldr (fun s acc => if d.isFull s && d.isBad s then (c.baseErr <<< s) ||| acc else acc) 0

/-- What a read returns under `REF_DEVICE` (R90). -/
def refRead (c : Config) (d : Device) (r : ReadReg) : Word :=
  match r with
  | .rsr => refRsr c d
  | .rbad => refRbad c d
  | .maclo | .machi | .rplr _ | .rxbuf _ _ => d.word (readOffset c r)

/-- Byte `j` of the transmit window (R75). -/
def txWindowByte (c : Config) (d : Device) (j : Nat) : Byte := byteOf (d.word (txAddr c (j / 8))) (j % 8)

/-- The first `n` bytes of the transmit window (R48); the window has no more than its size. -/
def sentFrame (c : Config) (d : Device) (n : Nat) : List Byte :=
  (List.range (min n c.txWindowBytes)).map (txWindowByte c d)

/-- What a write of `v` does to the device (R80, R81, R90). Only the reference device has a `wire`. -/
def applyWrite (c : Config) (d : Device) (v : Word) : WriteReg → Device
  | .machi => d.store c.offMachi v
  | .tplr =>
    let d' := d.store c.offTplr v
    if c.refDevice then { d' with wire := d.wire ++ [sentFrame c d v.toNat] } else d'
  | .rsr => { d with full := d.full.set d.cons false, cons := slotOf c v }
  | .txbuf k => d.store (txAddr c k) v

/-- The lowest slot at or after `cons` in ring order that is not full (R91). -/
def Device.firstFree (c : Config) (d : Device) : Option Nat :=
  ((List.range c.slotCount).map (fun i => (d.cons + i) % c.slotCount)).find? (fun s => !d.isFull s)

/-- Stores words at consecutive 8-byte offsets. -/
def Device.storeWords : Device → Nat → List Word → Device
  | d, _, [] => d
  | d, off, w :: ws => Device.storeWords (d.store off w) (off + 8) ws

/-- The capture of padded frame bytes `bs` into slot `p` (R91). -/
def Device.fillSlot (c : Config) (d : Device) (p : Nat) (bs : List Byte) (r : Word) (e : Bool) : Device :=
  let d' := (d.storeWords (rxAddr c p 0) (wordsOf bs (words8 bs.length))).store (readOffset c (.rplr p)) r
  { d' with full := d.full.set p true, bad := d.bad.set p e }

end Sys2Proof.Machine
end

