-- ==== Sys2Proof/Machine/Ops.lean ====
section
/-! DEFINITION. The shared operations over the state: raising a fault (spec/60_exceptions.md R250) and its way out, the
reset (spec/70_reset_and_hazards.md R280); draws (R79); the primitives DevRead, DevWrite and CtlRMW
(spec/40_register_interface.md R130 to R132), MemRead and MemWrite (R84), Alloc, Release, Deliver (R86 to R88), Signal
(spec/42_receive.md R172); reads of the working registers (R32). A meaning is written over these. -/

namespace Sys2Proof.Machine

/-- A computation inside one step. `error` is the end of a step that raised a fault (R250): the state it carries has
the fault recorded and every effect made before it. -/
abbrev Op (α : Type) := EStateM Unit State α

/-- The state an operation leaves, whether it ended or raised a fault. -/
def stateAfter (x : Op Unit) (s : State) : State :=
  match x s with
  | .ok _ t => t
  | .error _ t => t

/-! ## Taking a fault (R250), and the reset that leaves it (R280) -/

/-- Records `(code, info)` unless a fault is already recorded (R250). -/
def State.recordFault (s : State) (code : FaultCode) (info : Word) : State :=
  { s with eng := { s.eng with fault := s.eng.fault.or (some ⟨code, info⟩) } }

/-- `raise Fault(code, info)`: record, and end the step at once (R250). -/
def raise {α : Type} (code : FaultCode) (info : Word) : Op α := fun s => .error () (s.recordFault code info)

/-- EV_RESET (R280): every engine field at its reset value, the device's words drawn anew. Host memory, the
configuration and the environment stay. -/
def State.resetMachine (s : State) : State :=
  { s with
    eng := Engine.reset s.cfg
    dev := Device.reset s.cfg s.env.drawn
    env := { s.env with drawn := s.env.drawn + 1 } }

/-! ## Plain state updates -/

def State.updEng (s : State) (f : Engine → Engine) : State := { s with eng := f s.eng }

def State.updDev (s : State) (f : Device → Device) : State := { s with dev := f s.dev }

/-- One more event on the engine's ports. -/
def State.emit (s : State) (e : PortEvent) : State := { s with trace := e :: s.trace }

def updEng (f : Engine → Engine) : Op Unit := fun s => .ok () (s.updEng f)

def emit (e : PortEvent) : Op Unit := fun s => .ok () (s.emit e)

/-- A command's response (R35, R115). -/
def respond (status : Status) (value : Word) : Op Unit :=
  updEng fun e => { e with resp := ⟨status, value⟩ }

/-! ## Draws (R79, R86) -/

/-- The word the next `Draw()` gives: an answer chosen already, else the free value. -/
def State.nextDraw (s : State) : Word := s.env.nextDraws.headD (Config.freeDraw s.env.drawn)

def State.popDraw (s : State) : State :=
  { s with env := { s.env with nextDraws := s.env.nextDraws.tail, drawn := s.env.drawn + 1 } }

def draw : Op Word := fun s => .ok s.nextDraw s.popDraw

/-- A drawn byte (R151, R91). -/
def drawByte : Op Byte := do
  let w ← draw
  pure (byteOf w 0)

/-- What the allocator offers next: an answer chosen already, else the free value. -/
def State.offeredAlloc (s : State) : Option Word := s.env.nextAllocs.headD (Config.freeAlloc s.env.drawn)

def State.popAlloc (s : State) : State :=
  { s with env := { s.env with nextAllocs := s.env.nextAllocs.tail, drawn := s.env.drawn + 1 } }

/-- The `n` bytes from `a` lie in host memory (R70). -/
def State.inHost (s : State) (a n : Nat) : Bool := decide (a + n ≤ 2 ^ s.cfg.hostAddrBits)

/-- The `n` bytes from `b` share none with the buffer the engine holds, if it holds one (R89). -/
def State.unaliased (s : State) (n : Nat) (b : Word) : Bool :=
  s.eng.buf.join.all fun held => decide (b.toNat + n ≤ held.toNat) || decide (held.toNat + n ≤ b.toNat)

/-- What `Alloc(n)` returns: a buffer with `n` writable bytes, aliased with none the engine holds, or `NONE` (R86, R89).
An offer that breaks that duty of the host has no move in the spec (D37) and counts as `NONE` (log entry 3). A handle is a
64-bit word, so no buffer at 2^64 or above is returned whatever `HOST_ADDR_BITS` is (DESIGN CHOICE, log entry 30). -/
def State.nextAlloc (s : State) (n : Nat) : Option Word :=
  s.offeredAlloc.filter fun b => s.inHost b.toNat n && s.unaliased n b

/-! ## Device window (R130 to R132) -/

/-- The platform reports the next device access as failed. -/
def State.busDue (s : State) : Bool := s.env.busFail.any (fun f => f.after == 0)

/-- One device access has been made: the coming failure is one access nearer, or over. -/
def State.tickBus (s : State) : State :=
  { s with env := { s.env with
      busFail := s.env.busFail.bind fun f => if f.after = 0 then none else some { f with after := f.after - 1 } } }

/-- A failed write had its effect all the same (the spec does not say; log entry 10). -/
def State.busLands (s : State) : Bool := s.env.busFail.any (fun f => f.lands)

/-- What the device answers to a read: the reference device's word, else a draw (R79, R90). -/
def State.answer (s : State) (r : ReadReg) : Word :=
  if s.cfg.refDevice then refRead s.cfg s.dev r else s.nextDraw

/-- The state after a completed read of row `r` at `off`: a draw is used up unless the reference device answered. -/
def State.afterRead (s : State) (off : Nat) (r : ReadReg) : State :=
  ((if s.cfg.refDevice then s else s.popDraw).tickBus).emit (.rd off (s.answer r))

/-- The state after a completed write of `v` to row `r` at `off` (R80). -/
def State.afterWrite (s : State) (off : Nat) (v : Word) (r : WriteReg) : State :=
  ((s.updDev fun d => applyWrite s.cfg d v r).tickBus).emit (.wr off v)

/-- The state in which a failed access leaves the step, before the fault is recorded. -/
def State.afterFailed (s : State) (off : Nat) : State := s.tickBus.emit (.failed off)

/-- `DevRead(off)` (R130). The 64-bit `info` of an offset of 2^64 or more, which an `OFF_BITS` above 64 admits, is the offset
modulo 2^64 (DESIGN CHOICE, log entry 29). -/
def devRead (off : Nat) : Op Word := fun s =>
  match selectRead s.cfg off with
  | none => raise .addr (BitVec.ofNat 64 off) s
  | some r =>
    if s.busDue then raise .bus (BitVec.ofNat 64 off) (s.afterFailed off)
    else .ok (s.answer r) (s.afterRead off r)

/-- `DevWrite(off, v)` (R131). The `info` of an offset of 2^64 or more as for `devRead` (DESIGN CHOICE, log entry 29). -/
def devWrite (off : Nat) (v : Word) : Op Unit := fun s =>
  match selectWrite s.cfg off with
  | none => raise .addr (BitVec.ofNat 64 off) s
  | some r =>
    if s.busDue then
      raise .bus (BitVec.ofNat 64 off)
        ((if s.busLands then s.updDev (fun d => applyWrite s.cfg d v r) else s).afterFailed off)
    else .ok () (s.afterWrite off v r)

/-- `CtlRMW(clear, set)` (R132): one step, so no other agent's access falls between the two. -/
def ctlRMW (clear set : Word) : Op Unit := do
  let s ← get
  let v ← devRead s.cfg.offMachi
  devWrite s.cfg.offMachi ((v &&& ~~~clear) ||| set)

/-! ## Host memory (R84) -/

def State.memDue (s : State) : Bool := s.env.memFail.any (fun f => f.after == 0)

def State.tickMem (s : State) : State :=
  { s with env := { s.env with
      memFail := s.env.memFail.bind fun f => if f.after = 0 then none else some { f with after := f.after - 1 } } }

/-- Byte i of a failed host write was stored (the spec does not say; log entry 10). -/
def State.memLands (s : State) (i : Nat) : Bool := s.env.memFail.any (fun f => f.lanes.getLsbD i)

/-- `MemRead(addr, 1)`. An access past host memory fails; the 64-bit `info` of an address of 2^64 or more is the address
modulo 2^64 (DESIGN CHOICE, log entry 10). -/
def memRead (a : Nat) : Op Byte := fun s =>
  if !s.inHost a 1 then raise .hostMem (BitVec.ofNat 64 a) s
  else if s.memDue then raise .hostMem (BitVec.ofNat 64 a) s.tickMem
  else .ok (s.mem.read a) s.tickMem

/-- What a failed write of `w` stores: the new byte where the lane landed, else the old one. -/
def State.landedBytes (s : State) (a : Nat) (w : Word) : List Byte :=
  (List.range 8).map fun i => if s.memLands i then byteOf w i else s.mem.read (a + i)

/-- `MemWrite(addr, 8, w)`. Past host memory and in the `info` of an address of 2^64 or more as for `memRead` (DESIGN
CHOICE, log entry 10). -/
def memWrite8 (a : Nat) (w : Word) : Op Unit := fun s =>
  if !s.inHost a 8 then raise .hostMem (BitVec.ofNat 64 a) s
  else if s.memDue then
    raise .hostMem (BitVec.ofNat 64 a) { s.tickMem with mem := s.mem.writeBytes a (s.landedBytes a w) }
  else .ok () { s.tickMem with mem := s.mem.writeBytes a (bytesOf w 8) }

/-! ## Host services (R86 to R88) -/

/-- `Alloc(n)` (R86). -/
def alloc (n : Nat) : Op (Option Word) := fun s => .ok (s.nextAlloc n) (s.popAlloc.emit (.alloc n (s.nextAlloc n)))

/-- `Release` of an outbound frame (R87). -/
def releaseFrame (h : Word) (len : Nat) : Op Unit := emit (.releaseFrame h len)

/-- `Release` of a receive buffer (R87). -/
def releaseBuf (b : Word) : Op Unit := emit (.releaseBuf b)

/-- `Deliver(b, off, len, id)` (R88). -/
def deliver (b : Word) (off len id : Nat) : Op Unit := emit (.deliver b off len id)

/-! ## Worker hand-off and step pointer (R33, R172) -/

/-- `Signal()`. -/
def Engine.signal (e : Engine) : Engine := if e.busy then e else { e with busy := true, wpc := .test }

def signal : Op Unit := updEng Engine.signal

/-- `wpc <- w`. -/
def goto (w : Wpc) : Op Unit := updEng fun e => { e with wpc := w }

/-! ## Working registers (R31, R32): a read of one that holds no value raises F_UNWRITTEN with its index -/

def readReg {α : Type} (idx : Nat) (reg : Option α) : Op α :=
  match reg with
  | some a => pure a
  | none => raise .unwritten (BitVec.ofNat 64 idx)

def readSt : Op Word := do
  let s ← get
  readReg 0 s.eng.st

def readSlot : Op Nat := do
  let s ← get
  readReg 1 s.eng.slot

def readErrs : Op Word := do
  let s ← get
  readReg 2 s.eng.errs

def readLen : Op FrameLen := do
  let s ← get
  readReg 4 s.eng.len

/-- `E.len` where a number is needed: `BADLEN` holds none (log entry 13). -/
def readLenBytes : Op Nat := do
  let len ← readLen
  match len with
  | .bytes n => pure n
  | .badlen => raise .unwritten 4

/-- `E.buf` where a handle is needed: `NONE` is no handle (log entry 13). -/
def readBuf : Op Word := do
  let s ← get
  readReg 5 s.eng.buf.join

/-! ## The reference device's capture and the host's own writes (R91, R98) -/

/-- `n` drawn bytes. -/
def drawBytes : Nat → State → List Byte × State
  | 0, s => ([], s)
  | n + 1, s => let r := drawBytes n s.popDraw; (byteOf s.nextDraw 0 :: r.1, r.2)

/-- The capture step of `f` is taken: by the reference device only (R91), of a frame that fits a slot (log entry 14). -/
def State.captures (s : State) (f : List Byte) : Bool :=
  s.cfg.refDevice && decide (roundUp8 f.length ≤ s.cfg.slotStride)

/-- The capture step (R91); the frame is lost when every slot is full. -/
def State.capture (s : State) (f : List Byte) (r : Word) (e : Bool) : State :=
  if s.captures f then
    match s.dev.firstFree s.cfg with
    | none => s
    | some p =>
      let pad := drawBytes (roundUp8 f.length - f.length) s
      pad.2.updDev fun d => d.fillSlot s.cfg p (f ++ pad.1) r e
  else s

/-- The host writes bytes of its own memory, as far as they lie in it. -/
def State.hostWrite (s : State) (a : Nat) (bs : List Byte) : State :=
  if s.inHost a bs.length then { s with mem := s.mem.writeBytes a bs } else s

end Sys2Proof.Machine
end

