-- ==== Sys2Proof/Machine/Flags.lean ====
section
/-! DEFINITION. Flags and predicates computed from the state: the interrupt line (spec/20_memory.md R82), which steps
are enabled (spec/10_state.md R33, R40, R41; spec/60_exceptions.md R258, R259), stalled (R34) and quiescent (R302). -/

namespace Sys2Proof.Machine

/-- `MACHI_IRQ_EN` is set in the device's MACHI word. -/
def State.irqEnabled (s : State) : Bool := s.dev.word s.cfg.offMachi &&& s.cfg.machiIrqEn != 0

/-- The level of `IRQ` under `REF_DEVICE` (R82, R90). -/
def State.irqLine (s : State) : Bool := s.irqEnabled && s.dev.isFull s.dev.cons

/-- No fault is recorded (R41). -/
def State.alive (s : State) : Bool := s.eng.fault.isNone

/-- INIT has run and no fault is recorded: commands, events and worker steps may be taken (R40, R41). -/
def State.up (s : State) : Bool := s.eng.initDone && s.alive

/-- The worker step `w` is enabled (R33). -/
def State.atStep (s : State) (w : Wpc) : Bool := s.up && s.eng.wpc == w

/-- EV_RX_IRQ may be taken: at any time without `REF_DEVICE`, else while the line is high (R259). -/
def State.irqReady (s : State) : Bool := s.up && (!s.cfg.refDevice || s.irqLine)

/-- EV_WATCHDOG_TICK may be taken: its input exists (R230, R258). -/
def State.watchdogReady (s : State) : Bool := s.up && s.cfg.watchdog

/-- ST_INIT is enabled (R281); never on a platform whose setup failed (R257). -/
def State.initReady (s : State) : Bool := !s.eng.initDone && s.alive && s.env.setupOk

/-- The operation `i` has an enabled step: what its gate asks (R33, R40, R41, R258, R259, R281; a bus request, log entry 16).
The polling tick also needs its mode (R258): in interrupt mode taking it does nothing. -/
def State.enables (s : State) : Instr → Bool
  | .txSend _ _ | .ifStart | .ifStop | .setPromisc _ | .setCaps _ | .getPromisc | .getCaps | .getMaxlen | .readMac
  | .readCounter _ => s.up
  | .evRxIrq => s.irqReady
  | .evPollTick => s.up && s.cfg.mode == .polling
  | .evWatchdogTick => s.watchdogReady
  | .evReset => true
  | .stInit => s.initReady
  | .wkTest => s.atStep .test
  | .wkDecode => s.atStep .decode
  | .wkValidate => s.atStep .validate
  | .wkReject => s.atStep .reject
  | .wkAlloc => s.atStep .alloc
  | .wkCopy => s.atStep .copy
  | .wkAdvance => s.atStep .advance
  | .wkDeliver => s.atStep .deliver
  | .wkExit => s.atStep .exit
  | .wkAbort => s.atStep .abort
  | .rdMaclo | .rdMachi | .wrMachi _ | .wrTplr _ | .rdRsr | .wrRsr _ | .rdRbad | .rdRplr _ | .wrTxbuf _ _
  | .rdRxbuf _ _ => s.alive

/-- Runs a step's body if the step is enabled. A step that is not enabled is not taken: nothing changes (R40, R41). -/
def gate (enabled : Bool) (body : Op Unit) (s : State) : Host.Outcome State Fault Refusal :=
  .next (if enabled then stateAfter body s else s)

/-- A slot is done: a status read now reports one. Under `REF_DEVICE` that is `full[cons]` (R90); without it the
coming draw says it (log entry 27). -/
def State.slotDone (s : State) : Bool := isDone s.cfg (s.answer .rsr)

/-- *Stalled* (R34, R297, D46): idle in interrupt mode with IRQ_EN clear and a slot done. -/
def State.stalled (s : State) : Bool :=
  s.cfg.mode == .interrupt && s.eng.wpc == .idle && !s.eng.busy && !s.irqEnabled && s.slotDone

/-- The event `i` has arrived: it is among the offers. -/
def State.arrived (s : State) (i : Instr) : Bool :=
  s.env.agenda.any fun
    | .port (.evt code) => decide (decodeEvt code = .ok i)
    | .port (.cmd _ _) | .port (.step _) | .port (.bus _ _) => false
    | .capture _ _ _ | .hostWrite _ _ | .allocFail | .deviceChange _ _ => false

/-- An event is pending (R258, R302): the receive interrupt where the mode uses it, under `REF_DEVICE` while the line is
high; a tick that has arrived and whose input the configuration has; a reset (DESIGN CHOICE, log entry 28). -/
def State.eventPending (s : State) : Bool :=
  s.cfg.mode == .interrupt && (if s.cfg.refDevice then s.irqLine else s.arrived .evRxIrq) ||
  s.cfg.mode == .polling && s.arrived .evPollTick ||
  s.cfg.watchdog && s.arrived .evWatchdogTick ||
  s.arrived .evReset

/-- *Quiescent* (R302): INIT done, no fault, idle, no event pending. No command is in progress at a step boundary, because
each is one step (R35). -/
def State.quiescent (s : State) : Bool := s.up && s.eng.wpc == .idle && !s.eventPending

end Sys2Proof.Machine
end

