-- ==== Sys2Proof/Machine/Bus.lean ====
section
/-! DEFINITION. The bus rows (spec/30_encoding.md R119 to R121) as requests of their own: each is the access of its row
(spec/40_register_interface.md R130, R131), seen in the trace. A slot or word number outside the register file or the
window selects no row and raises F_ADDR (R121); the `info` of an offset of 2^64 or more as for `devRead` (DESIGN CHOICE,
log entry 29). -/

namespace Sys2Proof.Machine

/-- A read request of the row `r`, its operands in range or not. -/
def busRead (inRange : Bool) (r : ReadReg) : Op Unit := do
  let s ← get
  if inRange then
    let _ ← devRead (readOffset s.cfg r)
  else raise .addr (BitVec.ofNat 64 (readOffset s.cfg r))

/-- A write request of the row `r`. -/
def busWrite (inRange : Bool) (r : WriteReg) (v : Word) : Op Unit := do
  let s ← get
  if inRange then devWrite (writeOffset s.cfg r) v
  else raise .addr (BitVec.ofNat 64 (writeOffset s.cfg r))

/-- RD_MACLO (R43). -/
def execRdMaclo (s : State) : Host.Outcome State Fault Refusal := gate s.alive (busRead true .maclo) s

/-- RD_MACHI (R44). -/
def execRdMachi (s : State) : Host.Outcome State Fault Refusal := gate s.alive (busRead true .machi) s

/-- WR_MACHI (R80, R132). -/
def execWrMachi (v : Word) (s : State) : Host.Outcome State Fault Refusal := gate s.alive (busWrite true .machi v) s

/-- WR_TPLR (R48, R80). -/
def execWrTplr (v : Word) (s : State) : Host.Outcome State Fault Refusal := gate s.alive (busWrite true .tplr v) s

/-- RD_RSR (R45). -/
def execRdRsr (s : State) : Host.Outcome State Fault Refusal := gate s.alive (busRead true .rsr) s

/-- WR_RSR (R81). -/
def execWrRsr (v : Word) (s : State) : Host.Outcome State Fault Refusal := gate s.alive (busWrite true .rsr v) s

/-- RD_RBAD (R46). -/
def execRdRbad (s : State) : Host.Outcome State Fault Refusal := gate s.alive (busRead true .rbad) s

/-- RD_RPLR (R47). -/
def execRdRplr (i : Nat) (s : State) : Host.Outcome State Fault Refusal :=
  gate s.alive (busRead (decide (i < s.cfg.slotCount)) (.rplr i)) s

/-- WR_TXBUF (R49, R80). -/
def execWrTxbuf (k : Nat) (v : Word) (s : State) : Host.Outcome State Fault Refusal :=
  gate s.alive (busWrite (decide (8 * k < s.cfg.txWindowBytes)) (.txbuf k) v) s

/-- RD_RXBUF (R50). -/
def execRdRxbuf (i k : Nat) (s : State) : Host.Outcome State Fault Refusal :=
  gate s.alive (busRead (decide (i < s.cfg.slotCount) && decide (8 * k < s.cfg.slotStride)) (.rxbuf i k)) s

end Sys2Proof.Machine
end

