-- ==== Sys2Proof/Machine/Events.lean ====
section
/-! DEFINITION. Input events: the fast path (spec/42_receive.md R171), the two ticks (spec/43_lifecycle.md R229, R230),
the reset (spec/70_reset_and_hazards.md R280). -/

namespace Sys2Proof.Machine

/-- The fast path: mask, then signal (R171). -/
def fastPath : Op Unit := do
  let s ← get
  if s.cfg.mode = .interrupt then
    let st0 ← devRead s.cfg.offRsr
    if isDone s.cfg st0 then
      ctlRMW s.cfg.machiIrqEn 0
      signal

def execEvRxIrq (s : State) : Host.Outcome State Fault Refusal := gate s.irqReady fastPath s

/-- The status check both ticks share: nothing while an activation runs (R229, R230). -/
def checkAndSignal : Op Unit := do
  let s ← get
  if s.eng.busy = false then
    let st0 ← devRead s.cfg.offRsr
    if isDone s.cfg st0 then signal

/-- EV_POLL_TICK (R229). -/
def pollTick : Op Unit := do
  let s ← get
  if s.cfg.mode = .polling then checkAndSignal

def execEvPollTick (s : State) : Host.Outcome State Fault Refusal := gate s.up pollTick s

/-- EV_WATCHDOG_TICK (R230). -/
def execEvWatchdogTick (s : State) : Host.Outcome State Fault Refusal := gate s.watchdogReady checkAndSignal s

/-- EV_RESET (R280): taken in every state, faulted or not. -/
def execEvReset (s : State) : Host.Outcome State Fault Refusal := .next s.resetMachine

end Sys2Proof.Machine
end

