-- ==== Sys2Proof/Machine/Lifecycle.lean ====
section
/-! DEFINITION. Lifecycle and configuration commands (spec/43_lifecycle.md R220 to R228). -/

namespace Sys2Proof.Machine

/-- IF_START (R220). -/
def ifStart : Op Unit := do
  updEng fun e => { e with running := true }
  let s ← get
  if s.cfg.mode = .interrupt then ctlRMW 0 s.cfg.machiIrqEn
  respond .ok 0

def execIfStart (s : State) : Host.Outcome State Fault Refusal := gate s.up ifStart s

/-- IF_STOP (R221). -/
def ifStop : Op Unit := do
  updEng fun e => { e with running := false }
  respond .ok 0

def execIfStop (s : State) : Host.Outcome State Fault Refusal := gate s.up ifStop s

/-- SET_PROMISC (R222). -/
def setPromisc (on : Bool) : Op Unit := do
  updEng fun e => { e with promisc := on }
  let s ← get
  if on then ctlRMW 0 s.cfg.machiAllpkts else ctlRMW s.cfg.machiAllpkts 0
  respond .ok 0

def execSetPromisc (on : Bool) (s : State) : Host.Outcome State Fault Refusal := gate s.up (setPromisc on) s

/-- SET_CAPS (R223): bit 0 is RXCSUM; any other bit is rejected. -/
def setCaps (req : BitVec 24) : Op Unit := do
  if req &&& ~~~1 = 0 then
    updEng fun e => { e with rxcsum := req.getLsbD 0 }
    respond .ok 0
  else respond .rejected 0

def execSetCaps (req : BitVec 24) (s : State) : Host.Outcome State Fault Refusal := gate s.up (setCaps req) s

/-- GET_PROMISC (R224). -/
def getPromisc : Op Unit := do
  let s ← get
  respond .ok (flagWord s.eng.promisc)

def execGetPromisc (s : State) : Host.Outcome State Fault Refusal := gate s.up getPromisc s

/-- GET_CAPS (R225). -/
def getCaps : Op Unit := do
  let s ← get
  respond .ok (flagWord s.eng.rxcsum)

def execGetCaps (s : State) : Host.Outcome State Fault Refusal := gate s.up getCaps s

/-- GET_MAXLEN (R226). -/
def getMaxlen : Op Unit := do
  let s ← get
  respond .ok (BitVec.ofNat 64 s.cfg.maxFrameBytes)

def execGetMaxlen (s : State) : Host.Outcome State Fault Refusal := gate s.up getMaxlen s

/-- READ_MAC (R227): MACHI is read before MACLO. -/
def readMac : Op Unit := do
  let s ← get
  let hi ← devRead s.cfg.offMachi
  let lo ← devRead s.cfg.offMaclo
  respond .ok (macValue hi lo)

def execReadMac (s : State) : Host.Outcome State Fault Refusal := gate s.up readMac s

/-- The counter that `sel` selects (R114); none for 5 to 7. -/
def Engine.counter (e : Engine) (sel : BitVec 3) : Option Word :=
  match sel.toNat with
  | 0 => some e.ipackets
  | 1 => some e.ierrors
  | 2 => some e.iqdrops
  | 3 => some e.opackets
  | 4 => some e.obytes
  | _ => none

/-- READ_COUNTER (R228): `sel` 5 to 7 raises F_BAD_CMD, its info the command word (R251). -/
def readCounter (sel : BitVec 3) : Op Unit := do
  let s ← get
  match s.eng.counter sel with
  | some v => respond .ok v
  | none => raise .badCmd ((cmdWord 0x0A ((0 : BitVec 21) ++ sel)).setWidth 64)

def execReadCounter (sel : BitVec 3) (s : State) : Host.Outcome State Fault Refusal := gate s.up (readCounter sel) s

end Sys2Proof.Machine
end

