-- ==== Sys2Proof/Machine/Transmit.lean ====
section
/-! DEFINITION. The transmit engine (spec/41_transmit.md R150 to R155). -/

namespace Sys2Proof.Machine

/-- Byte `j` of the window copy of frame `(h, L)`: a frame byte, or any byte past `L` (R151). -/
def txByte (h : Word) (len j : Nat) : Op Byte :=
  if j < len then memRead (h.toNat + j) else drawByte

/-- `n` bytes of the window copy from byte `j`. -/
def txBytes (h : Word) (len : Nat) : Nat → Nat → Op (List Byte)
  | 0, _ => pure []
  | n + 1, j => do
    let b ← txByte h len j
    let bs ← txBytes h len n (j + 1)
    pure (b :: bs)

/-- `tx_word(h, L, k)` (R151). -/
def txWord (h : Word) (len k : Nat) : Op Word := do
  let bs ← txBytes h len 8 (8 * k)
  pure (ofBytes bs)

/-- The copy loop of R150: `n` words from word `k`. -/
def txCopy (h : Word) (len : Nat) : Nat → Nat → Op Unit
  | 0, _ => pure ()
  | n + 1, k => do
    let w ← txWord h len k
    let s ← get
    devWrite (txAddr s.cfg k) w
    txCopy h len n (k + 1)

/-- The drop of R150: the frame is released, nothing else happens. -/
def txDrop (h : Word) (len : Nat) : Op Unit := do
  releaseFrame h len
  respond .dropped 0

/-- The sending branch of R150. -/
def txSendFrame (h : Word) (len : Nat) : Op Unit := do
  let s ← get
  txCopy h len (words8 len) 0
  devWrite s.cfg.offTplr (BitVec.ofNat 64 len)
  updEng fun e => { e with opackets := e.opackets + 1, obytes := e.obytes + BitVec.ofNat 64 len }
  releaseFrame h len
  respond .ok 0

/-- TX_SEND (R150). -/
def txSend (len : Nat) (h : Word) : Op Unit := do
  let s ← get
  if s.eng.running = false then txDrop h len
  else if s.cfg.txWindowBytes < len then txDrop h len
  else txSendFrame h len

def execTxSend (len : BitVec 24) (h : Word) (s : State) : Host.Outcome State Fault Refusal :=
  gate s.up (txSend len.toNat h) s

end Sys2Proof.Machine
end

