-- ==== Sys2Proof/Machine/Worker.lean ====
section
/-! DEFINITION. The INIT step (spec/70_reset_and_hazards.md R281) and the ten worker steps (spec/42_receive.md R175 to
R189). -/

namespace Sys2Proof.Machine

/-- ST_INIT (R281). -/
def initStep : Op Unit := do
  let s ← get
  ctlRMW (s.cfg.machiIrqEn ||| s.cfg.machiAllpkts) 0
  updEng fun e => { e with initDone := true }

def execStInit (s : State) : Host.Outcome State Fault Refusal := gate s.initReady initStep s

/-- WK_TEST (R175). -/
def wkTest : Op Unit := do
  let s ← get
  let w ← devRead s.cfg.offRsr
  updEng fun e => { e with st := some w, wpc := if isDone s.cfg w then .decode else .exit }

def execWkTest (s : State) : Host.Outcome State Fault Refusal := gate (s.atStep .test) wkTest s

/-- WK_DECODE (R177): the error register is read before the length register. -/
def wkDecode : Op Unit := do
  let s ← get
  let st ← readSt
  let i := slotOf s.cfg st
  updEng fun e => { e with slot := some i }
  let errs ← devRead s.cfg.offRbad
  updEng fun e => { e with errs := some errs }
  let raw ← devRead (readOffset s.cfg (.rplr i))
  updEng fun e => { e with raw := some raw, len := some (decodeLen s.cfg raw e.rxcsum), wpc := .validate }

def execWkDecode (s : State) : Host.Outcome State Fault Refusal := gate (s.atStep .decode) wkDecode s

/-- WK_VALIDATE (R181). -/
def wkValidate : Op Unit := do
  let s ← get
  let len ← readLen
  let errs ← readErrs
  let i ← readSlot
  goto (if accept s.cfg len errs i then .alloc else .reject)

def execWkValidate (s : State) : Host.Outcome State Fault Refusal := gate (s.atStep .validate) wkValidate s

/-- WK_REJECT (R182). -/
def wkReject : Op Unit := do
  let s ← get
  updEng fun e => { e with ierrors := e.ierrors + 1 }
  let i ← readSlot
  devWrite s.cfg.offRsr (nextId i)
  goto .test

def execWkReject (s : State) : Host.Outcome State Fault Refusal := gate (s.atStep .reject) wkReject s

/-- What WK_ALLOC does with the allocator's answer (R183). -/
def Engine.allocated (e : Engine) : Option Word → Engine
  | none => { e with iqdrops := e.iqdrops + 1, wpc := .abort }
  | some b => { e with buf := some (some b), wpc := .copy }

/-- WK_ALLOC (R183). R31 lists it among the readers of E.len; what it reads has no effect (log entry 17). -/
def wkAlloc : Op Unit := do
  let s ← get
  let _ ← readLen
  let b ← alloc s.cfg.rxBufMin
  updEng fun e => e.allocated b

def execWkAlloc (s : State) : Host.Outcome State Fault Refusal := gate (s.atStep .alloc) wkAlloc s

/-- The copy loop of R185: `n` words from word `k`. -/
def rxCopy : Nat → Nat → Op Unit
  | 0, _ => pure ()
  | n + 1, k => do
    let s ← get
    let i ← readSlot
    let w ← devRead (rxAddr s.cfg i k)
    let b ← readBuf
    memWrite8 (bufAddr s.cfg b k) w
    rxCopy n (k + 1)

/-- WK_COPY (R185). -/
def wkCopy : Op Unit := do
  let n ← readLenBytes
  rxCopy (words8 n) 0
  goto .advance

def execWkCopy (s : State) : Host.Outcome State Fault Refusal := gate (s.atStep .copy) wkCopy s

/-- WK_ADVANCE (R186). -/
def wkAdvance : Op Unit := do
  let s ← get
  let i ← readSlot
  devWrite s.cfg.offRsr (nextId i)
  goto .deliver

def execWkAdvance (s : State) : Host.Outcome State Fault Refusal := gate (s.atStep .advance) wkAdvance s

/-- WK_DELIVER (R187): the frame is counted after it is delivered. -/
def wkDeliver : Op Unit := do
  let s ← get
  let b ← readBuf
  if s.eng.running then
    let n ← readLenBytes
    deliver b s.cfg.alignPad n s.cfg.ifId
    updEng fun e => { e with ipackets := e.ipackets + 1 }
  else
    releaseBuf b
    updEng fun e => { e with iqdrops := e.iqdrops + 1 }
  updEng fun e => { e with buf := some none, wpc := .test }

def execWkDeliver (s : State) : Host.Outcome State Fault Refusal := gate (s.atStep .deliver) wkDeliver s

/-- The end of an activation (R188, R189). -/
def Engine.endActivation (e : Engine) : Engine := { e with busy := false, wpc := .idle }

/-- WK_EXIT (R188): the activation ends before the unmask, in one step. -/
def wkExit : Op Unit := do
  updEng Engine.endActivation
  let s ← get
  if s.cfg.mode = .interrupt then ctlRMW 0 s.cfg.machiIrqEn

def execWkExit (s : State) : Host.Outcome State Fault Refusal := gate (s.atStep .exit) wkExit s

/-- WK_ABORT (R189): no unmask. -/
def wkAbort : Op Unit := updEng Engine.endActivation

def execWkAbort (s : State) : Host.Outcome State Fault Refusal := gate (s.atStep .abort) wkAbort s

end Sys2Proof.Machine
end

