-- ==== Sys2Proof/Machine/Dispatch.lean ====
section
/-! DEFINITION. One arm per operation: the meaning each one calls. -/

namespace Sys2Proof.Machine

def exec (i : Instr) (s : State) : Host.Outcome State Fault Refusal :=
  match i with
  | .txSend len h => Sys2Proof.Machine.execTxSend len h s
  | .ifStart => Sys2Proof.Machine.execIfStart s
  | .ifStop => Sys2Proof.Machine.execIfStop s
  | .setPromisc on => Sys2Proof.Machine.execSetPromisc on s
  | .setCaps req => Sys2Proof.Machine.execSetCaps req s
  | .getPromisc => Sys2Proof.Machine.execGetPromisc s
  | .getCaps => Sys2Proof.Machine.execGetCaps s
  | .getMaxlen => Sys2Proof.Machine.execGetMaxlen s
  | .readMac => Sys2Proof.Machine.execReadMac s
  | .readCounter sel => Sys2Proof.Machine.execReadCounter sel s
  | .evRxIrq => Sys2Proof.Machine.execEvRxIrq s
  | .evPollTick => Sys2Proof.Machine.execEvPollTick s
  | .evWatchdogTick => Sys2Proof.Machine.execEvWatchdogTick s
  | .evReset => Sys2Proof.Machine.execEvReset s
  | .stInit => Sys2Proof.Machine.execStInit s
  | .wkTest => Sys2Proof.Machine.execWkTest s
  | .wkDecode => Sys2Proof.Machine.execWkDecode s
  | .wkValidate => Sys2Proof.Machine.execWkValidate s
  | .wkReject => Sys2Proof.Machine.execWkReject s
  | .wkAlloc => Sys2Proof.Machine.execWkAlloc s
  | .wkCopy => Sys2Proof.Machine.execWkCopy s
  | .wkAdvance => Sys2Proof.Machine.execWkAdvance s
  | .wkDeliver => Sys2Proof.Machine.execWkDeliver s
  | .wkExit => Sys2Proof.Machine.execWkExit s
  | .wkAbort => Sys2Proof.Machine.execWkAbort s
  | .rdMaclo => Sys2Proof.Machine.execRdMaclo s
  | .rdMachi => Sys2Proof.Machine.execRdMachi s
  | .wrMachi v => Sys2Proof.Machine.execWrMachi v s
  | .wrTplr v => Sys2Proof.Machine.execWrTplr v s
  | .rdRsr => Sys2Proof.Machine.execRdRsr s
  | .wrRsr v => Sys2Proof.Machine.execWrRsr v s
  | .rdRbad => Sys2Proof.Machine.execRdRbad s
  | .rdRplr slot => Sys2Proof.Machine.execRdRplr slot s
  | .wrTxbuf k v => Sys2Proof.Machine.execWrTxbuf k v s
  | .rdRxbuf slot k => Sys2Proof.Machine.execRdRxbuf slot k s

end Sys2Proof.Machine
end

