-- ==== Sys2Proof/Machine/Check.lean ====
section
/-! DEFINITION. The configuration check of spec/60_exceptions.md R255 (fault F_CFG): the constraints in the order of the
rule, so that the index of the first broken one is the rule's `info`. -/

namespace Sys2Proof.Machine

/-- A byte range of the device window: base and size. -/
abbrev Region := Nat × Nat

/-- The registers and windows of R10. -/
def regions (c : Config) : List Region :=
  [(c.offMaclo, 8), (c.offMachi, 8), (c.offTplr, 8), (c.offRsr, 8), (c.offRbad, 8),
   (c.offRplr, c.slotCount * c.rplrStride), (c.offTxbuf, c.txWindowBytes), (c.offRxbuf, c.slotCount * c.slotStride)]

/-- The two regions share no byte; an empty one shares none with any. -/
def disjoint (a b : Region) : Bool :=
  decide (a.2 = 0) || decide (b.2 = 0) || decide (a.1 + a.2 ≤ b.1) || decide (b.1 + b.2 ≤ a.1)

/-- No two regions of the list overlap. -/
def allDisjoint : List Region → Bool
  | [] => true
  | r :: rs => rs.all (disjoint r) && allDisjoint rs

/-- A single bit outside [15:0] (R9, `MACHI_IRQ_EN`, `MACHI_ALLPKTS`). -/
def isControlBit (w : Word) : Bool :=
  w != 0 && w &&& (w - 1) == 0 && w &&& 0xFFFF == 0

/-- A power of two, at least 2. -/
def isRingSize (n : Nat) : Bool := decide (2 ≤ n) && n &&& (n - 1) == 0

/-- A register or window starts below `2^OFF_BITS`, and so does every byte of it (R9, `OFF_BITS`). -/
def belowOffBits (c : Config) (r : Region) : Bool :=
  decide (r.1 < 2 ^ c.offBits) && decide (r.1 + r.2 ≤ 2 ^ c.offBits)

/-- The constraints of R255, in its order. The one R9 puts on `MACHI_MAC_MASK` has no place of its own in R255 and stands
with the other two of MACHI (log entry 20). -/
def constraints (c : Config) : List Bool :=
  [isRingSize c.slotCount,
   decide (c.slotIndexMask.toNat = c.slotCount - 1),
   c.doneMask != 0,
   c.doneMask &&& c.slotIndexMask == 0,
   c.baseErr != 0,
   decide (c.baseErr.toNat * 2 ^ (c.slotCount - 1) < 2 ^ 64),
   decide (c.maxFrameBytes ≤ c.lenMask.toNat),
   decide (c.slotStride % 8 = 0),
   decide (roundUp8 c.maxFrameBytes ≤ c.slotStride),
   decide (c.alignPad < 8),
   decide (c.rxBufMin = c.alignPad + roundUp8 c.maxFrameBytes),
   decide (c.txWindowBytes % 8 = 0),
   [c.offMaclo, c.offMachi, c.offTplr, c.offRsr, c.offRbad, c.offRplr, c.offTxbuf, c.offRxbuf, c.rplrStride].all
     (fun o => decide (o % 8 = 0)) && decide (8 ≤ c.rplrStride),
   allDisjoint (regions c),
   isControlBit c.machiIrqEn && isControlBit c.machiAllpkts && c.machiIrqEn != c.machiAllpkts &&
     c.machiMacMask == 0xFFFF,
   (regions c).all (belowOffBits c)]

/-- The index of the first broken constraint (R251, `F_CFG`). -/
def brokenConstraint (c : Config) : Option Nat :=
  (constraints c).findIdx? (fun b => !b)

/-- The configuration has a run (R255, R282). -/
abbrev ConfigOk (c : Config) : Prop := brokenConstraint c = none

end Sys2Proof.Machine
end

