-- ==== Sys2Proof/Machine/Schedule.lean ====
section
/-! DEFINITION. Where the next operation comes from. The engine fetches no program (spec/20_memory.md R97): at each step
boundary the environment offers one item of its agenda, or, with nothing offered, the internal agent moves (INIT, or
the worker step that E.wpc names; spec/60_exceptions.md R261, R265). -/

namespace Sys2Proof.Machine

/-- What a step boundary brings. -/
inductive Fetched
  /-- The operation `i` runs in state `s`. -/
  | run (i : Instr) (s : State)
  /-- No operation runs; the state is `s`. -/
  | next (s : State)
  /-- The step stops. -/
  | stop (f : Fault)

/-- The internal agent's enabled step, if any (R33, R40, R41). -/
def State.internal (s : State) : Option Instr :=
  if s.alive then
    if s.eng.initDone then (decodeStep (wpcCode s.eng.wpc)).toOption
    else if s.env.setupOk then some .stInit else none
  else none

/-- A word that decodes to no operation. A command word raises F_BAD_CMD when a command could have been taken
(R112, R254); a bus request raises F_ADDR (R121); an event code or step code that names none is ignored (R117). The
`info` of an offset of 2^64 or more as for `devRead` (DESIGN CHOICE, log entry 29). -/
def State.rejectWord (s : State) : PortWord → State
  | .cmd c _ => if s.up then s.recordFault .badCmd (c.setWidth 64) else s
  | .bus hdr _ => if s.alive then s.recordFault .addr (BitVec.ofNat 64 (hdr % 2 ^ s.cfg.offBits)) else s
  | .evt _ => s
  | .step _ => s

/-- Takes an item, in the state that no longer offers it. Each `allocFail` puts one `NONE` before the allocator's coming
answers, so that two of them make the next two calls fail (DESIGN CHOICE, log entry 26). -/
def takeItem (s : State) : Item → Fetched
  | .port w =>
    match decode s.cfg w with
    | .ok i => .run i s
    | .error _ => .next (s.rejectWord w)
  | .capture f r e => .next (s.capture f r e)
  | .hostWrite a bs => .next (s.hostWrite a bs)
  | .allocFail => .next { s with env := { s.env with nextAllocs := none :: s.env.nextAllocs } }
  | .deviceChange off v => .next (if s.cfg.refDevice then s else s.updDev fun d => d.store off v)

def State.withAgenda (s : State) (items : List Item) : State := { s with env := { s.env with agenda := items } }

/-- The internal agent's turn; a faulted engine with nothing offered stops, an idle one keeps its state (R269). -/
def fetchInternal (s : State) : Fetched :=
  match s.internal with
  | some i => .run i s
  | none =>
    match s.eng.fault with
    | some r => .stop (.halted r)
    | none => .next s

/-- The next operation. A configuration that breaks a constraint of R255 has no run (R282). -/
def fetch (s : State) : Fetched :=
  match brokenConstraint s.cfg with
  | some k => .stop (.badConfig k)
  | none =>
    match s.env.agenda with
    | [] => fetchInternal s
    | item :: rest => takeItem (s.withAgenda rest) item

/-! ## Placing a word so that the next step takes it -/

/-- The step that a step code names, as a value of E.wpc (R118); `W_IDLE` for a code that names none. -/
def wpcOfCode (code : BitVec 8) : Wpc :=
  match code.toNat with
  | 0x61 => .test
  | 0x62 => .decode
  | 0x63 => .validate
  | 0x64 => .reject
  | 0x65 => .alloc
  | 0x66 => .copy
  | 0x67 => .advance
  | 0x68 => .deliver
  | 0x69 => .exit
  | 0x6A => .abort
  | _ => .idle

/-- The engine in which the word's agent has an enabled step: no fault; INIT not yet done for ST_INIT, done for a
command, an event or a worker step; E.wpc naming the worker step (R33, R40, R41). -/
def Engine.readyFor (e : Engine) : PortWord → Engine
  | .cmd _ _ => { e with initDone := true, fault := none }
  | .evt _ => { e with initDone := true, fault := none }
  | .step code =>
    if code = 0x50 then { e with initDone := false, fault := none }
    else { e with initDone := true, fault := none, wpc := wpcOfCode code, busy := wpcOfCode code != .idle }
  | .bus _ _ => { e with fault := none }

/-- The state that offers `w` next, its agent enabled (for ST_INIT the setup has not failed, R257). -/
def State.place (s : State) (w : PortWord) : State :=
  let t := (s.updEng fun e => e.readyFor w).withAgenda (.port w :: s.env.agenda)
  match w with
  | .step _ => { t with env := { t.env with setupOk := true } }
  | _ => t

end Sys2Proof.Machine
end

