-- ==== Sys2Proof/Machine/Step.lean ====
section
/-! DEFINITION. One step of the machine: what the step boundary brings (Machine/Schedule.lean), then its meaning. -/

namespace Sys2Proof.Machine

def step (s : State) : Host.Outcome State Fault Refusal :=
  match fetch s with
  | .run i t => exec i t
  | .next t => .next t
  | .stop f => .fault f

/-- `s` with the table word offered next and its agent enabled (log entry 12). -/
def State.withFetchWord (s : State) (nbits w : Nat) : State := s.place (tablePortWord nbits w)

end Sys2Proof.Machine
end

