-- ==== Sys2Proof/Safety.lean ====
section
/-! DEFINITION. What statements about the machine are made of: a platform that reports no failure, what a step leaves,
the constraints of R255 and the failures of R250 to R253, the invariant of every state a run reaches (spec/42_receive.md
R173, R191, R192; spec/20_memory.md R70), the accesses each step may issue (spec/40_register_interface.md R135), and runs
with the liveness premises and end states of spec/70_reset_and_hazards.md R301, R302. -/

namespace Sys2Proof.Machine

/-! ## The platform and the frame -/

/-- The platform reports no coming access as failed (R130, R131, R84). -/
def State.quiet (s : State) : Prop := s.env.busFail = none ∧ s.env.memFail = none

/-- The state `t` that a step leaves from `s`: engine, device and host memory as given, `events` put out on the ports
(newest first), the configuration and the offers unchanged. -/
structure Leaves (s t : State) (eng : Engine) (dev : Device) (mem : Memory) (events : List PortEvent) : Prop where
  cfg : t.cfg = s.cfg
  eng : t.eng = eng
  dev : t.dev = dev
  mem : t.mem = mem
  trace : t.trace = events ++ s.trace
  agenda : t.env.agenda = s.env.agenda

/-- The word `CtlRMW(clear, set)` writes over the word `v` (R132). -/
def rmwWord (v clear set : Word) : Word := (v &&& ~~~clear) ||| set

/-- The two accesses of `CtlRMW(clear, set)` when MACHI reads `v`, newest first (R132). -/
def rmwEvents (c : Config) (v clear set : Word) : List PortEvent :=
  [.wr c.offMachi (rmwWord v clear set), .rd c.offMachi v]

/-! ## The configuration (R255) -/

/-- The byte ranges of R10, each a base and a size. -/
def spans (c : Config) : List (Nat × Nat) :=
  [(c.offMaclo, 8), (c.offMachi, 8), (c.offTplr, 8), (c.offRsr, 8), (c.offRbad, 8),
   (c.offRplr, c.slotCount * c.rplrStride), (c.offTxbuf, c.txWindowBytes), (c.offRxbuf, c.slotCount * c.slotStride)]

/-- Constraint `k` of R255, written out; there are sixteen. The last conjunct of number 14 is the constraint R9 puts on
`MACHI_MAC_MASK`, and number 15 also covers the last byte of each range (log entry 20). -/
def Constraint (c : Config) : Nat → Prop
  | 0 => 2 ≤ c.slotCount ∧ ∃ e, c.slotCount = 2 ^ e
  | 1 => c.slotIndexMask.toNat = c.slotCount - 1
  | 2 => c.doneMask ≠ 0
  | 3 => c.doneMask &&& c.slotIndexMask = 0
  | 4 => c.baseErr ≠ 0
  | 5 => c.baseErr.toNat * 2 ^ (c.slotCount - 1) < 2 ^ 64
  | 6 => c.maxFrameBytes ≤ c.lenMask.toNat
  | 7 => 8 ∣ c.slotStride
  | 8 => roundUp8 c.maxFrameBytes ≤ c.slotStride
  | 9 => c.alignPad < 8
  | 10 => c.rxBufMin = c.alignPad + roundUp8 c.maxFrameBytes
  | 11 => 8 ∣ c.txWindowBytes
  | 12 =>
    (∀ o ∈ [c.offMaclo, c.offMachi, c.offTplr, c.offRsr, c.offRbad, c.offRplr, c.offTxbuf, c.offRxbuf, c.rplrStride],
      8 ∣ o) ∧ 8 ≤ c.rplrStride
  | 13 => (spans c).Pairwise fun a b => ∀ x, ¬ ((a.1 ≤ x ∧ x < a.1 + a.2) ∧ (b.1 ≤ x ∧ x < b.1 + b.2))
  | 14 =>
    (∃ i j, 16 ≤ i ∧ i < 64 ∧ 16 ≤ j ∧ j < 64 ∧ i ≠ j ∧ c.machiIrqEn.toNat = 2 ^ i ∧ c.machiAllpkts.toNat = 2 ^ j) ∧
      c.machiMacMask = 0xFFFF
  | 15 => ∀ r ∈ spans c, r.1 < 2 ^ c.offBits ∧ r.1 + r.2 ≤ 2 ^ c.offBits
  | _ => True

/-! ## A platform that reports one access as failed (R250 to R253) -/

/-- `s` where the device access after `k` more is reported as failed; `lands` says whether a failed write takes effect. -/
def State.failingBus (s : State) (k : Nat) (lands : Bool) : State :=
  { s with env := { s.env with busFail := some ⟨k, lands⟩ } }

/-- `s` where the host-memory access after `k` more is reported as failed; bit i of `lanes` says whether byte i of a failed
write is stored. -/
def State.failingMem (s : State) (k : Nat) (lanes : BitVec 8) : State :=
  { s with env := { s.env with memFail := some ⟨k, lanes⟩ } }

/-- A completed device access. -/
def PortEvent.isAccess : PortEvent → Bool
  | .rd _ _ | .wr _ _ => true
  | .failed _ | .alloc _ _ | .releaseFrame _ _ | .releaseBuf _ | .deliver _ _ _ _ => false

/-- A completed device access at `off`. -/
def PortEvent.accessAt (off : Nat) (e : PortEvent) : Prop := (∃ w, e = .rd off w) ∨ ∃ w, e = .wr off w

/-- How many device accesses completed. -/
def accesses (events : List PortEvent) : Nat := events.countP PortEvent.isAccess

/-- The engine as the step `i` has written it when it has put out `before` (newest first) and comes to its next device
access: the assignments its pseudocode lists before that access (log entry 23). -/
def Engine.beforeAccess (c : Config) (i : Instr) (before : List PortEvent) (e : Engine) : Engine :=
  match i with
  | .ifStart => { e with running := true }
  | .setPromisc on => { e with promisc := on }
  | .wkExit => { e with busy := false, wpc := .idle }
  | .wkReject => { e with ierrors := e.ierrors + 1 }
  | .wkDecode =>
    { e with
      slot := e.st.map (slotOf c)
      errs := match before with
        | .rd _ w :: _ => some w
        | _ => e.errs }
  | .txSend _ _ | .ifStop | .setCaps _ | .getPromisc | .getCaps | .getMaxlen | .readMac | .readCounter _ => e
  | .evRxIrq | .evPollTick | .evWatchdogTick | .evReset => e
  | .stInit | .wkTest | .wkValidate | .wkAlloc | .wkCopy | .wkAdvance | .wkDeliver | .wkAbort => e
  | .rdMaclo | .rdMachi | .wrMachi _ | .wrTplr _ | .rdRsr | .wrRsr _ | .rdRbad | .rdRplr _ | .wrTxbuf _ _
  | .rdRxbuf _ _ => e

/-- What a TX_SEND of the frame at `h` leaves that stops at its host read of byte `k` (R150, R253): the window words before
that byte's own, `ws`, are written with the frame's bytes; TPLR is not, no counter moves, no response is written and the
frame is not released. -/
structure SendStopped (s t : State) (h : Word) (k : Nat) (ws : Nat → Word) : Prop where
  leaves : Leaves s t { s.eng with fault := some ⟨.hostMem, BitVec.ofNat 64 (h.toNat + k)⟩ } t.dev s.mem
    ((List.range (k / 8)).map fun j => PortEvent.wr (txAddr s.cfg j) (ws j)).reverse
  frame : ∀ j, j < k / 8 * 8 → byteOf (ws (j / 8)) (j % 8) = s.mem.read (h.toNat + j)
  words : ∀ j, j < k / 8 → t.dev.word (txAddr s.cfg j) = ws j
  others : ∀ off, (∀ j, j < k / 8 → off ≠ txAddr s.cfg j) → t.dev.word off = s.dev.word off
  ring : t.dev.cons = s.dev.cons ∧ t.dev.full = s.dev.full ∧ t.dev.bad = s.dev.bad
  wire : t.dev.wire = s.dev.wire

/-! ## The invariant -/

/-- Which working registers hold a value at a worker step, and what they agree on: the slot is that of the last status
read (R177, R192), the length that of the length register under some setting of the trim flag (R178). -/
structure Decoded (c : Config) (e : Engine) : Prop where
  slot : ∃ st, e.st = some st ∧ isDone c st = true ∧ e.slot = some (slotOf c st)
  errs : ∃ w, e.errs = some w
  len : ∃ raw trim, e.raw = some raw ∧ e.len = some (decodeLen c raw trim)

/-- The descriptor was accepted (R180, R181). -/
def Accepted (c : Config) (e : Engine) : Prop :=
  ∃ n errs slot, e.len = some (.bytes n) ∧ e.errs = some errs ∧ e.slot = some slot ∧ accept c (.bytes n) errs slot = true

/-- What holds of the working registers where the step pointer is `w` (R32, R177 to R187). -/
def RegistersAt (c : Config) (e : Engine) : Wpc → Prop
  | .idle | .test | .exit | .abort => True
  | .decode => ∃ st, e.st = some st ∧ isDone c st = true
  | .validate | .reject => Decoded c e
  | .alloc => Decoded c e ∧ Accepted c e
  | .copy | .advance | .deliver => Decoded c e ∧ Accepted c e ∧ ∃ b, e.buf = some (some b)

/-- What every state of a run satisfies. A buffer is held from WK_ALLOC to WK_DELIVER only, and its `RX_BUF_MIN` bytes lie in
host memory (R86 to R88). -/
structure Inv (s : State) : Prop where
  config : ConfigOk s.cfg
  memory : Memory.wf s.mem = true
  busy : s.eng.busy = true ↔ s.eng.wpc ≠ .idle
  slot : ∀ i, s.eng.slot = some i → i < s.cfg.slotCount
  len : ∀ n, s.eng.len = some (.bytes n) → n ≤ s.cfg.lenMask.toNat
  registers : RegistersAt s.cfg s.eng s.eng.wpc
  buf : ∀ b, s.eng.buf = some (some b) →
    (s.eng.wpc = .copy ∨ s.eng.wpc = .advance ∨ s.eng.wpc = .deliver) ∧
    b.toNat + s.cfg.rxBufMin ≤ 2 ^ s.cfg.hostAddrBits
  ring : s.dev.cons < s.cfg.slotCount ∧ s.dev.full.length = s.cfg.slotCount ∧ s.dev.bad.length = s.cfg.slotCount

/-! ## The accesses of each step (R135), and its other port events (R86 to R88, R266) -/

/-- A read at `off`, or a failed access there. -/
def readsAt (off : Nat) (e : PortEvent) : Prop := (∃ w, e = .rd off w) ∨ e = .failed off

/-- A write at `off`, or a failed access there. -/
def writesAt (off : Nat) (e : PortEvent) : Prop := (∃ w, e = .wr off w) ∨ e = .failed off

/-- One of the two accesses of a `CtlRMW`. -/
def touchesMachi (c : Config) (e : PortEvent) : Prop := readsAt c.offMachi e ∨ writesAt c.offMachi e

/-- The ring-advance write: `next_id(slot)` for the decoded slot (R190, R291), or a failed access to RSR. -/
def advancesRing (s : State) (e : PortEvent) : Prop :=
  (∃ i, s.eng.slot = some i ∧ e = .wr s.cfg.offRsr (nextId i)) ∨ e = .failed s.cfg.offRsr

/-- The port events the step `i` may put out from state `s`. -/
def mayIssue (s : State) (i : Instr) (e : PortEvent) : Prop :=
  match i with
  | .stInit | .setPromisc _ => touchesMachi s.cfg e
  | .evRxIrq => s.cfg.mode = .interrupt ∧ (readsAt s.cfg.offRsr e ∨ touchesMachi s.cfg e)
  | .evPollTick => s.cfg.mode = .polling ∧ s.eng.busy = false ∧ readsAt s.cfg.offRsr e
  | .evWatchdogTick => s.eng.busy = false ∧ readsAt s.cfg.offRsr e
  | .wkTest => readsAt s.cfg.offRsr e
  | .wkDecode =>
    readsAt s.cfg.offRbad e ∨
      ∃ st, s.eng.st = some st ∧ readsAt (readOffset s.cfg (.rplr (slotOf s.cfg st))) e
  | .wkReject | .wkAdvance => advancesRing s e
  | .wkAlloc => ∃ r, e = .alloc s.cfg.rxBufMin r
  | .wkCopy =>
    ∃ i n k, s.eng.slot = some i ∧ s.eng.len = some (.bytes n) ∧ k < words8 n ∧ readsAt (rxAddr s.cfg i k) e
  | .wkDeliver =>
    ∃ b, s.eng.buf = some (some b) ∧
      ((s.eng.running = false ∧ e = .releaseBuf b) ∨
        (s.eng.running = true ∧ ∃ n, s.eng.len = some (.bytes n) ∧ e = .deliver b s.cfg.alignPad n s.cfg.ifId))
  | .wkExit | .ifStart => s.cfg.mode = .interrupt ∧ touchesMachi s.cfg e
  | .txSend len h =>
    e = .releaseFrame h len.toNat ∨
      (s.eng.running = true ∧ len.toNat ≤ s.cfg.txWindowBytes ∧
        ((∃ k, k < words8 len.toNat ∧ writesAt (txAddr s.cfg k) e) ∨
          e = .wr s.cfg.offTplr (BitVec.ofNat 64 len.toNat) ∨ e = .failed s.cfg.offTplr))
  | .readMac => readsAt s.cfg.offMachi e ∨ readsAt s.cfg.offMaclo e
  | .ifStop | .setCaps _ | .getPromisc | .getCaps | .getMaxlen | .readCounter _ | .evReset => False
  | .wkValidate | .wkAbort => False
  | .rdMaclo => readsAt s.cfg.offMaclo e
  | .rdMachi => readsAt s.cfg.offMachi e
  | .rdRsr => readsAt s.cfg.offRsr e
  | .rdRbad => readsAt s.cfg.offRbad e
  | .rdRplr slot => readsAt (readOffset s.cfg (.rplr slot)) e
  | .rdRxbuf slot k => readsAt (rxAddr s.cfg slot k) e
  | .wrMachi _ => writesAt s.cfg.offMachi e
  | .wrTplr _ => writesAt s.cfg.offTplr e
  | .wrRsr _ => writesAt s.cfg.offRsr e
  | .wrTxbuf k _ => writesAt (txAddr s.cfg k) e

/-- A bus row: a request on the device window by itself, not a step of an engine agent. -/
def isBus : Instr → Bool
  | .rdMaclo | .rdMachi | .wrMachi _ | .wrTplr _ | .rdRsr | .wrRsr _ | .rdRbad | .rdRplr _ | .wrTxbuf _ _
  | .rdRxbuf _ _ => true
  | .txSend _ _ | .ifStart | .ifStop | .setPromisc _ | .setCaps _ | .getPromisc | .getCaps | .getMaxlen | .readMac
  | .readCounter _ | .evRxIrq | .evPollTick | .evWatchdogTick | .evReset | .stInit | .wkTest | .wkDecode | .wkValidate
  | .wkReject | .wkAlloc | .wkCopy | .wkAdvance | .wkDeliver | .wkExit | .wkAbort => false

/-- The step pointer a worker step is enabled at (R33, R118); none for another operation. -/
def workerStep : Instr → Option Wpc
  | .wkTest => some .test
  | .wkDecode => some .decode
  | .wkValidate => some .validate
  | .wkReject => some .reject
  | .wkAlloc => some .alloc
  | .wkCopy => some .copy
  | .wkAdvance => some .advance
  | .wkDeliver => some .deliver
  | .wkExit => some .exit
  | .wkAbort => some .abort
  | .txSend _ _ | .ifStart | .ifStop | .setPromisc _ | .setCaps _ | .getPromisc | .getCaps | .getMaxlen | .readMac
  | .readCounter _ | .evRxIrq | .evPollTick | .evWatchdogTick | .evReset | .stInit => none
  | .rdMaclo | .rdMachi | .wrMachi _ | .wrTplr _ | .rdRsr | .wrRsr _ | .rdRbad | .rdRplr _ | .wrTxbuf _ _
  | .rdRxbuf _ _ => none

/-! ## Runs and liveness premises (R261, R301) -/

/-- One transition: the environment makes any choice, then the machine steps. Every interleaving of agents is one of
these choices (R261). -/
def Trans (s t : State) : Prop := ∃ env, step { s with env := env } = .next t

/-- States some run from reset under configuration `c` reaches. -/
inductive Reachable (c : Config) : State → Prop
  | reset : Reachable c (State.resetWith c)
  | step {s t : State} : Reachable c s → Trans s t → Reachable c t

/-- An infinite run: each state with the environment's choice at it. -/
structure Run where
  state : Nat → State
  env   : Nat → Env
  next  : ∀ n, step { state n with env := env n } = .next (state (n + 1))

/-- The state at moment `n`, with the environment's choice at it. -/
def Run.at (r : Run) (n : Nat) : State := { r.state n with env := r.env n }

/-- At moment `n` of the run the operation `i` is taken: it comes next, and its step is enabled. An offer that lapses is
not taken (log entry 5). -/
def Run.takes (r : Run) (n : Nat) (i : Instr) : Prop :=
  ∃ t, fetch (r.at n) = .run i t ∧ t.enables i = true

/-- `FAIR` for one step (R301): from some moment on always enabled, it is taken after every moment. -/
def Run.fairFor (r : Run) (i : Instr) : Prop :=
  (∃ m, ∀ n ≥ m, (r.at n).enables i = true) → ∀ m, ∃ n ≥ m, r.takes n i

/-- `FAIR` (R301): weak fairness for INIT, FASTPATH, the steps of WORKER, and TIMER. A tick, and EV_RX_IRQ without
`REF_DEVICE`, counts as enabled wherever it may be taken (R259, R260), so that `FAIR` makes these inputs occur: on a run that
stays up it gives `TICKS` (DESIGN CHOICE, log entry 25). -/
def Run.fair (r : Run) : Prop :=
  r.fairFor .stInit ∧ r.fairFor .evRxIrq ∧ (∀ i w, workerStep i = some w → r.fairFor i) ∧
  r.fairFor .evPollTick ∧ r.fairFor .evWatchdogTick

/-- `TICKS` (R301). -/
def Run.ticks (r : Run) : Prop :=
  ((r.state 0).cfg.watchdog = true → ∀ m, ∃ n ≥ m, r.takes n .evWatchdogTick) ∧
  ((r.state 0).cfg.mode = .polling → ∀ m, ∃ n ≥ m, r.takes n .evPollTick)

/-- The item the environment offers at moment `n`. -/
def Run.offered (r : Run) (n : Nat) : Option Item := (r.env n).agenda.head?

/-- A capture step is taken at moment `n`. -/
def Run.captures (r : Run) (n : Nat) : Prop :=
  ∃ f w e, r.offered n = some (.capture f w e) ∧ (r.at n).captures f = true

/-- The host issues a command at moment `n`. -/
def Run.commands (r : Run) (n : Nat) : Prop := ∃ c h, r.offered n = some (.port (.cmd c h))

/-- The done slot that an event reports: a status read, by any agent, with the done field set. -/
def reportedSlot (c : Config) : PortEvent → Option Nat
  | .rd off w => if off = c.offRsr ∧ isDone c w = true then some (slotOf c w) else none
  | .wr _ _ | .failed _ | .alloc _ _ | .releaseFrame _ _ | .releaseBuf _ | .deliver _ _ _ _ => none

/-- A ring-advance write (R81). -/
def isAdvance (c : Config) : PortEvent → Bool
  | .wr off _ => off == c.offRsr
  | .rd _ _ | .failed _ | .alloc _ _ | .releaseFrame _ _ | .releaseBuf _ | .deliver _ _ _ _ => false

/-- How many done slots the device has reported in a trace (newest first). A slot reported again before the ring has
advanced is the same one (DESIGN CHOICE, log entry 25). -/
def doneSlots (c : Config) : List PortEvent → Nat
  | [] => 0
  | e :: older =>
    doneSlots c older + match reportedSlot c e with
      | none => 0
      | some i => if (older.takeWhile fun e => !isAdvance c e).any fun e => reportedSlot c e == some i then 0 else 1

/-- `FINITE_RX` (R301): the device reports only finitely many done slots; under `REF_DEVICE`, only finitely many capture
steps. -/
def Run.finiteRx (r : Run) : Prop :=
  ((r.state 0).cfg.refDevice = true → ∃ m, ∀ n ≥ m, ¬ r.captures n) ∧
  ((r.state 0).cfg.refDevice = false → ∃ k, ∀ n, doneSlots (r.state n).cfg (r.state n).trace ≤ k)

/-- At moment `n` `Alloc` is called and returns `b` (R86). -/
def Run.allocates (r : Run) (n : Nat) (b : Option Word) : Prop :=
  ∃ k, (r.state (n + 1)).trace = .alloc k b :: (r.state n).trace

/-- `ALLOC_EVENTUALLY` (R301): `Alloc` does not return `NONE` for ever. Called after every moment, it returns a buffer after
every moment. -/
def Run.allocEventually (r : Run) : Prop :=
  (∀ m, ∃ n ≥ m, ∃ b, r.allocates n b) → ∀ m, ∃ n ≥ m, ∃ b, r.allocates n (some b)

/-- Moment `n` is an end state of the run (R302): quiescent, after the host's last command and the device's last
capture. -/
def Run.endsAt (r : Run) (n : Nat) : Prop :=
  (r.at n).quiescent = true ∧ ∀ m ≥ n, ¬ r.commands m ∧ ¬ r.captures m

end Sys2Proof.Machine
end

