-- ==== Sys2Proof/Certificates/Slice0/Obligations.lean ====
section
/-! DEFINITION. The statements for the provers, in the order of OBLIGATIONS.json: encoding, the step boundary, reset,
commands, events, worker steps, bus requests and the reference device, faults, and the rules of the whole machine. -/

section

open Sys2Proof Sys2Proof.Machine

/-! ## Encoding (spec/30_encoding.md) -/

/-- R111, R113, R117 to R120: decoding an encoded well-formed operation gives it back, under every configuration that
passes the check of R255. -/
def Obligations.DecodeOfEncodeIsTheInstruction : Prop :=
  ∀ (c : Config) (i : Instr), ConfigOk c → WellFormed c i = true → decode c (encode c i) = .ok i

/-- Each word has one meaning: what a word decodes to is well-formed and encodes back to the word's own bits. -/
def Obligations.DecodedWordEncodesBackToItsBits : Prop :=
  ∀ (c : Config) (w : PortWord) (i : Instr), ConfigOk c → decode c w = .ok i →
    WellFormed c i = true ∧ headBits (encode c i) = headBits w

/-- Words written out from spec/95_test_vectors.md V3, V4 and from R117, R118. -/
def Obligations.SpecWordsDecodeToTheirRows : Prop :=
  decode Config.tc (.cmd 0x00000D01 0x10000000) = .ok (.txSend 13 0x10000000) ∧
  decode Config.tc (.cmd 0x00000104 0) = .ok (.setPromisc true) ∧
  decode Config.tc (.cmd 0x80000005 0) = .ok (.setCaps 0x800000) ∧
  decode Config.tc (.cmd 0x0000040A 0) = .ok (.readCounter 4) ∧
  decode Config.tc (.evt 0x42) = .ok .evWatchdogTick ∧
  decode Config.tc (.step 0x66) = .ok .wkCopy ∧
  decode Config.tc (.bus 0x00058 0) = .ok (.rdRplr 3) ∧
  decode Config.tc (.bus 0x117F8 7) = .ok (.wrTxbuf 255 7) ∧
  decode Config.tc (.bus 0x05838 0) = .ok (.rdRxbuf 3 7)

/-- R114: the operands of a command word, bit by bit. -/
def Obligations.CommandOperandsAreTheirBits : Prop :=
  ∀ (c : BitVec 32) (h : Word),
    (c.extractLsb' 0 8 = 0x01 → decodeCmd c h = .ok (.txSend (c.extractLsb' 8 24) h)) ∧
    (c.extractLsb' 0 8 = 0x04 → c.extractLsb' 9 23 = 0 → decodeCmd c h = .ok (.setPromisc (c.getLsbD 8))) ∧
    (c.extractLsb' 0 8 = 0x05 → decodeCmd c h = .ok (.setCaps (c.extractLsb' 8 24))) ∧
    (c.extractLsb' 0 8 = 0x0A → c.extractLsb' 11 21 = 0 → (c.extractLsb' 8 3).toNat ≤ 4 →
      decodeCmd c h = .ok (.readCounter (c.extractLsb' 8 3)))

/-- R112, R113, R254: a command word that selects no row, or whose reserved bits are not zero, raises F_BAD_CMD with the
word as its info (R251), and changes no other state. That the offer is used up is the model's choice (log entry 4). -/
def Obligations.IllegalCommandWordRaisesBadCmd : Prop :=
  ∀ (s : State) (c : BitVec 32) (h : Word) (rest : List Item),
    ConfigOk s.cfg → s.up = true → s.env.agenda = .port (.cmd c h) :: rest →
    (let opc := c.toNat % 256
     let arg := c.toNat / 256
     ¬ (opc = 1 ∨ opc = 5 ∨ (opc ∈ [2, 3, 6, 7, 8, 9] ∧ arg = 0) ∨ (opc = 4 ∧ arg < 2) ∨ (opc = 10 ∧ arg ≤ 4))) →
    step s = .next { s with
      eng := { s.eng with fault := some ⟨.badCmd, c.setWidth 64⟩ }
      env := { s.env with agenda := rest } }

/-- R117: an event input carrying a code that is no event is ignored. That the offer is used up is the model's choice
(log entry 4). -/
def Obligations.UnknownEventCodeIsIgnored : Prop :=
  ∀ (s : State) (code : BitVec 8) (rest : List Item),
    ConfigOk s.cfg → s.env.agenda = .port (.evt code) :: rest → (code.toNat ≤ 0x3F ∨ 0x44 ≤ code.toNat) →
    step s = .next { s with env := { s.env with agenda := rest } }

/-- R121: a bus request that matches no row raises F_ADDR with its offset and is not issued; the requests that match no
row include every offset not a multiple of 8, reads of TPLR and TXBUF, and writes of MACLO, RBAD, RPLR and RXBUF. A bus
request as a step of its own, and the info of an offset of 2^64 or more, are the model's choices (log entries 16, 29). -/
def Obligations.UnmatchedBusRequestRaisesAddr : Prop :=
  (∀ (s : State) (we : Bool) (off : Nat) (v : Word) (rest : List Item),
    ConfigOk s.cfg → s.alive = true → off < 2 ^ s.cfg.offBits →
    (we = false → selectRead s.cfg off = none) → (we = true → selectWrite s.cfg off = none) →
    s.env.agenda = .port (.bus (busHeader s.cfg we off) v) :: rest →
    step s = .next { s with
      eng := { s.eng with fault := some ⟨.addr, BitVec.ofNat 64 off⟩ }
      env := { s.env with agenda := rest } }) ∧
  (∀ (c : Config) (off : Nat), ConfigOk c →
    (off % 8 ≠ 0 → selectRead c off = none ∧ selectWrite c off = none) ∧
    (off = c.offTplr → selectRead c off = none) ∧
    (c.offTxbuf ≤ off → off < c.offTxbuf + c.txWindowBytes → selectRead c off = none) ∧
    (off = c.offMaclo ∨ off = c.offRbad → selectWrite c off = none) ∧
    (c.offRplr ≤ off → off < c.offRplr + c.slotCount * c.rplrStride → selectWrite c off = none) ∧
    (c.offRxbuf ≤ off → off < c.offRxbuf + c.slotCount * c.slotStride → selectWrite c off = none))

/-! ## The step boundary -/

/-- When the environment offers a word that decodes to `i`, the step is the meaning of `i` in the state that no longer
offers it (R110, R261). The list of offers is the model's choice (log entry 4). -/
def Obligations.StepRunsTheOfferedOperation : Prop :=
  ∀ (s : State) (w : PortWord) (i : Instr) (rest : List Item),
    ConfigOk s.cfg → s.env.agenda = .port w :: rest → decode s.cfg w = .ok i →
    step s = exec i { s with env := { s.env with agenda := rest } }

/-- With nothing offered and no fault recorded, the step is INIT's before it has run (unless setup failed), then the
worker step that E.wpc names (R33, R281, R257). That the internal agent moves when nothing is offered, and the setup
flag, are the model's choices (log entries 4 and 18). -/
def Obligations.StepRunsTheInternalAgent : Prop :=
  ∀ s : State, ConfigOk s.cfg → s.env.agenda = [] → s.eng.fault = none →
    (s.eng.initDone = false → s.env.setupOk = true → step s = exec .stInit s) ∧
    (s.eng.initDone = false → s.env.setupOk = false → step s = .next s) ∧
    (s.eng.initDone = true → ∀ i w, workerStep i = some w → s.eng.wpc = w → step s = exec i s)

/-- R255, R282: a configuration that breaks a constraint has no run; the index is that of the first broken one, and one
that breaks none passes the check. The sixteen constraints are written out in `Constraint`. The examples are V9 rows 4
and 5; the test configuration breaks none. The model's choices: that the step stops with a fault of its own (log entry
21), and what number 14 says of `MACHI_MAC_MASK` and number 15 of the last byte of a range (log entry 20). -/
def Obligations.BrokenConfigurationHasNoRun : Prop :=
  (∀ (s : State) (k : Nat), brokenConstraint s.cfg = some k → step s = .fault (.badConfig k)) ∧
  (∀ (c : Config) (k : Nat), brokenConstraint c = some k ↔ ¬ Constraint c k ∧ ∀ j < k, Constraint c j) ∧
  (∀ c : Config, ConfigOk c ↔ ∀ k, Constraint c k) ∧
  brokenConstraint { Config.tc with slotCount := 6 } = some 0 ∧
  brokenConstraint { Config.tc with rxBufMin := 2048 } = some 10 ∧
  ConfigOk Config.tc

/-- R41, R250: once a fault is recorded no step but EV_RESET is enabled: nothing else is taken, and with nothing offered
the machine stops. A step not taken keeps the state, and the stop has a name of its own: the model's choices (log
entries 5 and 21). -/
def Obligations.FaultedEngineTakesOnlyReset : Prop :=
  (∀ (s : State) (i : Instr), s.eng.fault ≠ none → i ≠ .evReset → exec i s = .next s) ∧
  (∀ (s : State) (r : FaultRecord), ConfigOk s.cfg → s.eng.fault = some r → s.env.agenda = [] →
    step s = .fault (.halted r)) ∧
  (∀ s : State, ∃ t, exec .evReset s = .next t ∧ t.eng.fault = none)

/-- R40: while INIT has not run, no command, event or worker step is enabled. A step not taken keeps the state (log
entry 5). -/
def Obligations.NothingRunsBeforeInit : Prop :=
  ∀ (s : State) (i : Instr), s.eng.initDone = false → i ≠ .stInit → i ≠ .evReset → isBus i = false →
    exec i s = .next s

/-- R33: a worker step is enabled only when E.wpc names it. A step not taken keeps the state (log entry 5). -/
def Obligations.WorkerStepNeedsItsPointer : Prop :=
  ∀ (s : State) (i : Instr) (w : Wpc), workerStep i = some w → s.eng.wpc ≠ w → exec i s = .next s

/-- R269: an idle engine with nothing offered (log entry 4) keeps all its state. -/
def Obligations.IdleEngineKeepsItsState : Prop :=
  ∀ s : State, ConfigOk s.cfg → s.up = true → s.eng.wpc = .idle → s.env.agenda = [] → step s = .next s

/-! ## Reset and INIT (spec/70_reset_and_hazards.md) -/

/-- R53: every engine field after reset. -/
def Obligations.ResetValuesOfTheEngine : Prop :=
  State.reset.eng.wpc = .idle ∧ State.reset.eng.busy = false ∧
  State.reset.eng.st = none ∧ State.reset.eng.slot = none ∧ State.reset.eng.errs = none ∧ State.reset.eng.raw = none ∧
  State.reset.eng.len = none ∧ State.reset.eng.buf = none ∧
  State.reset.eng.resp = ⟨.ok, 0⟩ ∧ State.reset.eng.running = false ∧ State.reset.eng.promisc = false ∧
  State.reset.eng.rxcsum = State.reset.cfg.rxcsumReset ∧ State.reset.eng.initDone = false ∧
  State.reset.eng.fault = none ∧
  State.reset.eng.ipackets = 0 ∧ State.reset.eng.ierrors = 0 ∧ State.reset.eng.iqdrops = 0 ∧
  State.reset.eng.opackets = 0 ∧ State.reset.eng.obytes = 0

/-- R280: EV_RESET is taken in every state; every engine field takes its reset value; host memory, configuration and
trace stay. Under REF_DEVICE the device is the reset of R90: empty ring, nothing on the wire, the MAC words holding
REF_MAC and MACHI zero above bit 15. -/
def Obligations.ResetEventRestartsTheEngine : Prop :=
  ∀ s : State, ∃ t, exec .evReset s = .next t ∧
    t.eng = { st := none, slot := none, errs := none, raw := none, len := none, buf := none, wpc := .idle,
              busy := false, resp := ⟨.ok, 0⟩, running := false, promisc := false, rxcsum := s.cfg.rxcsumReset,
              initDone := false, fault := none, ipackets := 0, ierrors := 0, iqdrops := 0, opackets := 0,
              obytes := 0 } ∧
    t.cfg = s.cfg ∧ t.mem = s.mem ∧ t.trace = s.trace ∧
    (ConfigOk s.cfg → s.cfg.refDevice = true →
      t.dev.cons = 0 ∧ (∀ i, t.dev.isFull i = false) ∧ t.dev.wire = [] ∧
      t.dev.word s.cfg.offMachi = (s.cfg.refMac.extractLsb' 32 16).setWidth 64 ∧
      t.dev.word s.cfg.offMaclo = (s.cfg.refMac.extractLsb' 0 32).setWidth 64)

/-- R281: ST_INIT clears IRQ_EN and ALLPKTS, writes every other bit of MACHI back, and sets E.init_done. -/
def Obligations.InitClearsBothControlBits : Prop :=
  ∀ s : State, ConfigOk s.cfg → s.quiet → s.initReady = true →
    ∃ t, exec .stInit s = .next t ∧
      (let v := s.answer .machi
       let clear := s.cfg.machiIrqEn ||| s.cfg.machiAllpkts
       Leaves s t { s.eng with initDone := true } (s.dev.store s.cfg.offMachi (rmwWord v clear 0)) s.mem
         (rmwEvents s.cfg v clear 0))

/-! ## Commands (spec/43_lifecycle.md, spec/41_transmit.md) -/

/-- R220. -/
def Obligations.IfStartSetsRunningAndUnmasks : Prop :=
  ∀ s : State, ConfigOk s.cfg → s.quiet → s.up = true →
    ∃ t, exec .ifStart s = .next t ∧
      (s.cfg.mode = .polling →
        Leaves s t { s.eng with running := true, resp := ⟨.ok, 0⟩ } s.dev s.mem []) ∧
      (s.cfg.mode = .interrupt →
        let v := s.answer .machi
        Leaves s t { s.eng with running := true, resp := ⟨.ok, 0⟩ }
          (s.dev.store s.cfg.offMachi (rmwWord v 0 s.cfg.machiIrqEn)) s.mem (rmwEvents s.cfg v 0 s.cfg.machiIrqEn))

/-- R221: no device access, the mask and an activation in progress untouched. -/
def Obligations.IfStopClearsRunningOnly : Prop :=
  ∀ s : State, s.up = true →
    exec .ifStop s = .next { s with eng := { s.eng with running := false, resp := ⟨.ok, 0⟩ } }

/-- R222: works whether running or not; the other MACHI bits are written back. -/
def Obligations.SetPromiscWritesFlagAndBit : Prop :=
  ∀ (s : State) (on : Bool), ConfigOk s.cfg → s.quiet → s.up = true →
    ∃ t, exec (.setPromisc on) s = .next t ∧
      (let v := s.answer .machi
       let clear := if on then 0 else s.cfg.machiAllpkts
       let set := if on then s.cfg.machiAllpkts else 0
       Leaves s t { s.eng with promisc := on, resp := ⟨.ok, 0⟩ }
         (s.dev.store s.cfg.offMachi (rmwWord v clear set)) s.mem (rmwEvents s.cfg v clear set))

/-- R223: RXCSUM is bit 0; a request with any other bit is rejected and changes nothing but the response. -/
def Obligations.SetCapsTakesOnlyRxcsum : Prop :=
  ∀ (s : State) (req : BitVec 24), s.up = true →
    (req.toNat < 2 →
      exec (.setCaps req) s
        = .next { s with eng := { s.eng with rxcsum := decide (req.toNat = 1), resp := ⟨.ok, 0⟩ } }) ∧
    (2 ≤ req.toNat → exec (.setCaps req) s = .next { s with eng := { s.eng with resp := ⟨.rejected, 0⟩ } })

/-- R224, R225, R226. -/
def Obligations.GetCommandsAnswerTheirValue : Prop :=
  ∀ s : State, s.up = true →
    exec .getPromisc s
      = .next { s with eng := { s.eng with resp := ⟨.ok, if s.eng.promisc then 1 else 0⟩ } } ∧
    exec .getCaps s = .next { s with eng := { s.eng with resp := ⟨.ok, if s.eng.rxcsum then 1 else 0⟩ } } ∧
    exec .getMaxlen s
      = .next { s with eng := { s.eng with resp := ⟨.ok, BitVec.ofNat 64 s.cfg.maxFrameBytes⟩ } }

/-- R227, R137: MACHI is read, then MACLO; the response's 48-bit value is `{hi[15:0], lo[31:0]}`, so that `mac[0]` is
its bits [47:40], and its bits [63:48] are 0. -/
def Obligations.ReadMacAnswersTheStationAddress : Prop :=
  ∀ s : State, ConfigOk s.cfg → s.quiet → s.up = true →
    ∃ t hi lo value, exec .readMac s = .next t ∧
      Leaves s t { s.eng with resp := ⟨.ok, value⟩ } s.dev s.mem [.rd s.cfg.offMaclo lo, .rd s.cfg.offMachi hi] ∧
      hi = s.answer .machi ∧
      (s.cfg.refDevice = true → lo = s.dev.word s.cfg.offMaclo) ∧
      value.toNat = (hi.toNat % 2 ^ 16) * 2 ^ 32 + lo.toNat % 2 ^ 32

/-- R137: `mac_bytes`, byte by byte, and its 48-bit value with `mac[0]` in bits [47:40]. -/
def Obligations.MacBytesAreTheSpecBytes : Prop :=
  ∀ hi lo : Word,
    macBytes hi lo = [hi.extractLsb' 8 8, hi.extractLsb' 0 8, lo.extractLsb' 24 8, lo.extractLsb' 16 8,
      lo.extractLsb' 8 8, lo.extractLsb' 0 8] ∧
    (∀ i, i < 6 → (macBytes hi lo)[i]? = some (byteOf (macValue hi lo) (5 - i)))

/-- R228: the counter that `sel` selects, not cleared by the read. A word with `sel` 5 to 7 decodes to no command (R112,
R251); that the meaning of such an instruction, built from its syntax, records F_BAD_CMD with the word it would have had is
the model's reading (log entry 22). -/
def Obligations.ReadCounterAnswersTheCounter : Prop :=
  ∀ (s : State) (sel : BitVec 3), s.up = true →
    (∀ h : sel.toNat < 5,
      exec (.readCounter sel) s = .next { s with eng := { s.eng with resp := ⟨.ok,
        [s.eng.ipackets, s.eng.ierrors, s.eng.iqdrops, s.eng.opackets, s.eng.obytes][sel.toNat]⟩ } }) ∧
    (5 ≤ sel.toNat →
      exec (.readCounter sel) s = .next { s with eng := { s.eng with
        fault := some ⟨.badCmd, BitVec.ofNat 64 (sel.toNat * 256 + 10)⟩ } })

/-- R150, R154: on a stopped interface, or for a frame longer than the window, TX_SEND releases the frame and answers
DROPPED; no device access, no counter. -/
def Obligations.TxSendDropsWithoutTouchingTheDevice : Prop :=
  ∀ (s : State) (len : BitVec 24) (h : Word), s.up = true →
    (s.eng.running = false ∨ s.cfg.txWindowBytes < len.toNat) →
    exec (.txSend len h) s = .next { s with
      eng := { s.eng with resp := ⟨.dropped, 0⟩ }
      trace := .releaseFrame h len.toNat :: s.trace }

/-- R150, R151, R152: a sent frame. Its bytes stand in the transmit window, TPLR holds its exact length, the window
words are written in order and before TPLR, then the frame is released; the counters count one packet of `len` bytes.
Every other device word, the ring and host memory are unchanged. The premise that the frame lies below
2^HOST_ADDR_BITS is log entry 10's. -/
def Obligations.TxSendCopiesCountsAndTriggers : Prop :=
  ∀ (s : State) (len : BitVec 24) (h : Word),
    ConfigOk s.cfg → s.quiet → s.up = true → s.eng.running = true → len.toNat ≤ s.cfg.txWindowBytes →
    h.toNat + len.toNat ≤ 2 ^ s.cfg.hostAddrBits →
    ∃ t, exec (.txSend len h) s = .next t ∧
      (∃ ws : Nat → Word,
        Leaves s t
          { s.eng with opackets := s.eng.opackets + 1, obytes := s.eng.obytes + BitVec.ofNat 64 len.toNat,
                       resp := ⟨.ok, 0⟩ }
          t.dev s.mem
          (.releaseFrame h len.toNat :: .wr s.cfg.offTplr (BitVec.ofNat 64 len.toNat) ::
            ((List.range (words8 len.toNat)).map fun k => PortEvent.wr (txAddr s.cfg k) (ws k)).reverse) ∧
        (∀ k, k < words8 len.toNat → t.dev.word (txAddr s.cfg k) = ws k) ∧
        (∀ j, j < len.toNat → byteOf (ws (j / 8)) (j % 8) = s.mem.read (h.toNat + j))) ∧
      t.dev.word s.cfg.offTplr = BitVec.ofNat 64 len.toNat ∧
      (∀ off, off ≠ s.cfg.offTplr → (∀ k, k < words8 len.toNat → off ≠ txAddr s.cfg k) →
        t.dev.word off = s.dev.word off) ∧
      t.dev.cons = s.dev.cons ∧ t.dev.full = s.dev.full ∧ t.dev.bad = s.dev.bad

/-- R155, R90: under REF_DEVICE the frame that goes out on the wire is exactly the host's bytes. -/
def Obligations.TransmittedFrameIsTheHostFrame : Prop :=
  ∀ (s : State) (len : BitVec 24) (h : Word),
    ConfigOk s.cfg → s.cfg.refDevice = true → s.quiet → s.up = true → s.eng.running = true →
    len.toNat ≤ s.cfg.txWindowBytes → h.toNat + len.toNat ≤ 2 ^ s.cfg.hostAddrBits →
    ∃ t, exec (.txSend len h) s = .next t ∧ t.dev.wire = s.dev.wire ++ [s.mem.bytes h.toNat len.toNat]

/-! ## Events (spec/42_receive.md R171, R172; spec/43_lifecycle.md R229, R230) -/

/-- R171: nothing in polling mode; a status with no done slot changes nothing; else mask, then signal. The engine's
fields are those of `Signal()` (R172): a signal during an activation changes nothing. R82, R90, R259: under `REF_DEVICE`
the interrupt line is high exactly while IRQ_EN is set in MACHI and the slot at the device's index is full, and
EV_RX_IRQ is taken only while it is high; without it, at any time the engine is ready. An event offered while the line is
low lapses (log entry 5). -/
def Obligations.FastPathMasksThenSignals : Prop :=
  ∀ s : State, ConfigOk s.cfg →
    (s.cfg.refDevice = true → (s.irqReady = true ↔
      s.up = true ∧ s.dev.word s.cfg.offMachi &&& s.cfg.machiIrqEn ≠ 0 ∧ s.dev.full.getD s.dev.cons false = true)) ∧
    (s.cfg.refDevice = false → (s.irqReady = true ↔ s.up = true)) ∧
    (s.irqReady = false → exec .evRxIrq s = .next s) ∧
    (s.quiet → s.irqReady = true →
      (s.cfg.mode = .polling → exec .evRxIrq s = .next s) ∧
      (s.cfg.mode = .interrupt → s.answer .rsr &&& s.cfg.doneMask = 0 →
        ∃ t, exec .evRxIrq s = .next t ∧ Leaves s t s.eng s.dev s.mem [.rd s.cfg.offRsr (s.answer .rsr)]) ∧
      (s.cfg.mode = .interrupt → s.answer .rsr &&& s.cfg.doneMask ≠ 0 →
        ∃ t v, exec .evRxIrq s = .next t ∧
          Leaves s t (if s.eng.busy then s.eng else { s.eng with busy := true, wpc := .test })
            (s.dev.store s.cfg.offMachi (rmwWord v s.cfg.machiIrqEn 0)) s.mem
            (rmwEvents s.cfg v s.cfg.machiIrqEn 0 ++ [.rd s.cfg.offRsr (s.answer .rsr)]) ∧
          (s.cfg.refDevice = true → v = s.dev.word s.cfg.offMachi)))

/-- R229: the polling tick. It never touches MACHI. -/
def Obligations.PollTickChecksStatusWhenIdle : Prop :=
  ∀ s : State, ConfigOk s.cfg → s.quiet → s.up = true →
    (s.cfg.mode = .interrupt ∨ s.eng.busy = true → exec .evPollTick s = .next s) ∧
    (s.cfg.mode = .polling → s.eng.busy = false →
      ∃ t, exec .evPollTick s = .next t ∧
        Leaves s t
          (if s.answer .rsr &&& s.cfg.doneMask = 0 then s.eng else { s.eng with busy := true, wpc := .test })
          s.dev s.mem [.rd s.cfg.offRsr (s.answer .rsr)])

/-- R230: the watchdog tick, in both modes; without WATCHDOG the input does not exist. It never changes MACHI. -/
def Obligations.WatchdogTickChecksStatusWhenIdle : Prop :=
  ∀ s : State, ConfigOk s.cfg → s.quiet → s.up = true →
    (s.cfg.watchdog = false ∨ s.eng.busy = true → exec .evWatchdogTick s = .next s) ∧
    (s.cfg.watchdog = true → s.eng.busy = false →
      ∃ t, exec .evWatchdogTick s = .next t ∧
        Leaves s t
          (if s.answer .rsr &&& s.cfg.doneMask = 0 then s.eng else { s.eng with busy := true, wpc := .test })
          s.dev s.mem [.rd s.cfg.offRsr (s.answer .rsr)])

/-! ## Worker steps (spec/42_receive.md) -/

/-- R175. -/
def Obligations.TestStepReadsStatus : Prop :=
  ∀ s : State, ConfigOk s.cfg → s.quiet → s.atStep .test = true →
    ∃ t, exec .wkTest s = .next t ∧
      Leaves s t
        { s.eng with st := some (s.answer .rsr),
                     wpc := if s.answer .rsr &&& s.cfg.doneMask = 0 then .exit else .decode }
        s.dev s.mem [.rd s.cfg.offRsr (s.answer .rsr)]

/-- R177: the slot index, the error register, then that slot's length register. -/
def Obligations.DecodeStepFillsTheDescriptor : Prop :=
  ∀ (s : State) (st : Word), ConfigOk s.cfg → s.quiet → s.atStep .decode = true → s.eng.st = some st →
    ∃ t raw, exec .wkDecode s = .next t ∧
      (let i := (st &&& s.cfg.slotIndexMask).toNat
       Leaves s t
        { s.eng with slot := some i, errs := some (s.answer .rbad), raw := some raw,
                     len := some (decodeLen s.cfg raw s.eng.rxcsum), wpc := .validate }
        s.dev s.mem [.rd (s.cfg.offRplr + i * s.cfg.rplrStride) raw, .rd s.cfg.offRbad (s.answer .rbad)] ∧
       (s.cfg.refDevice = true → raw = s.dev.word (s.cfg.offRplr + i * s.cfg.rplrStride)))

/-- R178: the decoded length. -/
def Obligations.DecodedLengthTrimsTheTrailer : Prop :=
  ∀ (c : Config) (raw : Word) (n : Nat), (raw &&& c.lenMask).toNat = n →
    decodeLen c raw false = .bytes n ∧
    (n < 4 → decodeLen c raw true = .badlen) ∧
    (4 ≤ n → decodeLen c raw true = .bytes (n - 4))

/-- R180, R181: acceptance is exactly a good length and no bit of the slot's error mask (R179). -/
def Obligations.ValidateStepAcceptsExactlyGoodFrames : Prop :=
  ∀ (s : State) (len : FrameLen) (errs : Word) (i : Nat), s.atStep .validate = true →
    s.eng.len = some len → s.eng.errs = some errs → s.eng.slot = some i →
    ((∃ n, len = .bytes n ∧ n ≤ s.cfg.maxFrameBytes) ∧ (s.cfg.baseErr ||| (s.cfg.baseErr <<< i)) &&& errs = 0 →
      exec .wkValidate s = .next { s with eng := { s.eng with wpc := .alloc } }) ∧
    (¬ ((∃ n, len = .bytes n ∧ n ≤ s.cfg.maxFrameBytes) ∧
        (s.cfg.baseErr ||| (s.cfg.baseErr <<< i)) &&& errs = 0) →
      exec .wkValidate s = .next { s with eng := { s.eng with wpc := .reject } })

/-- R182, R190, R81: the bad frame is counted, the ring advanced with `slot + 1` (not the raw status), the status read
next. The reference device's slot is empty again and its index is the written value under the mask; that the hidden
state moves so without `REF_DEVICE` too is the model's choice (log entry 8). -/
def Obligations.RejectStepCountsAndAdvances : Prop :=
  ∀ (s : State) (i : Nat), ConfigOk s.cfg → s.quiet → s.atStep .reject = true → s.eng.slot = some i →
    ∃ t, exec .wkReject s = .next t ∧
      (let v := BitVec.ofNat 64 (i + 1)
       Leaves s t { s.eng with ierrors := s.eng.ierrors + 1, wpc := .test }
        { s.dev with full := s.dev.full.set s.dev.cons false, cons := (v &&& s.cfg.slotIndexMask).toNat }
        s.mem [.wr s.cfg.offRsr v])

/-- R183: on success the buffer is kept; on failure one drop is counted, the activation aborts and the ring is not
advanced. R86: a buffer's `RX_BUF_MIN` bytes lie in host memory. The premise that E.len holds a value is the reading of
R31 in log entry 17, the answer `nextAlloc` that of R89 in log entry 3. -/
def Obligations.AllocStepTakesABufferOrAborts : Prop :=
  ∀ (s : State) (len : FrameLen), s.atStep .alloc = true → s.eng.len = some len →
    (∃ t, exec .wkAlloc s = .next t ∧
      Leaves s t
        (match s.nextAlloc s.cfg.rxBufMin with
          | none => { s.eng with iqdrops := s.eng.iqdrops + 1, wpc := .abort }
          | some b => { s.eng with buf := some (some b), wpc := .copy })
        s.dev s.mem [.alloc s.cfg.rxBufMin (s.nextAlloc s.cfg.rxBufMin)]) ∧
    (∀ b, s.nextAlloc s.cfg.rxBufMin = some b → b.toNat + s.cfg.rxBufMin ≤ 2 ^ s.cfg.hostAddrBits)

/-- R184, R185: `words8(n)` words of the slot go to the buffer from the pad offset on, byte i of a word to the i-th
address; every other byte of host memory is unchanged. The premise that the copy lies below 2^HOST_ADDR_BITS is log entry
10's. -/
def Obligations.CopyStepMovesTheSlotIntoTheBuffer : Prop :=
  ∀ (s : State) (n i : Nat) (b : Word),
    ConfigOk s.cfg → s.quiet → s.atStep .copy = true →
    s.eng.len = some (.bytes n) → n ≤ s.cfg.maxFrameBytes → s.eng.slot = some i → i < s.cfg.slotCount →
    s.eng.buf = some (some b) → bufAddr s.cfg b 0 + roundUp8 n ≤ 2 ^ s.cfg.hostAddrBits →
    ∃ t, ∃ ws : Nat → Word, exec .wkCopy s = .next t ∧
      Leaves s t { s.eng with wpc := .advance } s.dev t.mem
        ((List.range (words8 n)).map fun k => PortEvent.rd (rxAddr s.cfg i k) (ws k)).reverse ∧
      (∀ j, j < roundUp8 n → t.mem.read (bufAddr s.cfg b 0 + j) = byteOf (ws (j / 8)) (j % 8)) ∧
      (∀ a, a < bufAddr s.cfg b 0 ∨ bufAddr s.cfg b 0 + roundUp8 n ≤ a → t.mem.read a = s.mem.read a) ∧
      (s.cfg.refDevice = true → ∀ k, k < words8 n → ws k = s.dev.word (rxAddr s.cfg i k))

/-- R186, R190, R81; the hidden state without `REF_DEVICE` as in log entry 8. -/
def Obligations.AdvanceStepAdvancesTheRing : Prop :=
  ∀ (s : State) (i : Nat), ConfigOk s.cfg → s.quiet → s.atStep .advance = true → s.eng.slot = some i →
    ∃ t, exec .wkAdvance s = .next t ∧
      (let v := BitVec.ofNat 64 (i + 1)
       Leaves s t { s.eng with wpc := .deliver }
        { s.dev with full := s.dev.full.set s.dev.cons false, cons := (v &&& s.cfg.slotIndexMask).toNat }
        s.mem [.wr s.cfg.offRsr v])

/-- R187: delivered and counted while running, released and counted as a drop while stopped. -/
def Obligations.DeliverStepDeliversOrReleases : Prop :=
  ∀ (s : State) (n : Nat) (b : Word), s.atStep .deliver = true → s.eng.len = some (.bytes n) →
    s.eng.buf = some (some b) →
    (s.eng.running = true →
      exec .wkDeliver s = .next { s with
        eng := { s.eng with ipackets := s.eng.ipackets + 1, buf := some none, wpc := .test }
        trace := .deliver b s.cfg.alignPad n s.cfg.ifId :: s.trace }) ∧
    (s.eng.running = false →
      exec .wkDeliver s = .next { s with
        eng := { s.eng with iqdrops := s.eng.iqdrops + 1, buf := some none, wpc := .test }
        trace := .releaseBuf b :: s.trace })

/-- R188: the activation ends; in interrupt mode IRQ_EN is set; in polling mode MACHI is not touched. -/
def Obligations.ExitStepEndsTheActivationAndUnmasks : Prop :=
  ∀ s : State, ConfigOk s.cfg → s.quiet → s.atStep .exit = true →
    ∃ t, exec .wkExit s = .next t ∧
      (s.cfg.mode = .polling → Leaves s t { s.eng with busy := false, wpc := .idle } s.dev s.mem []) ∧
      (s.cfg.mode = .interrupt →
        let v := s.answer .machi
        Leaves s t { s.eng with busy := false, wpc := .idle }
          (s.dev.store s.cfg.offMachi (rmwWord v 0 s.cfg.machiIrqEn)) s.mem (rmwEvents s.cfg v 0 s.cfg.machiIrqEn))

/-- R189, R34, R297: the activation ends with the mask untouched; the engine is stalled exactly in interrupt mode with
IRQ_EN clear and a slot done, that is, where a status read would report one (without `REF_DEVICE` the coming draw says it,
log entry 27). -/
def Obligations.AbortStepLeavesTheInterruptMasked : Prop :=
  ∀ s : State, s.atStep .abort = true →
    exec .wkAbort s = .next { s with eng := { s.eng with busy := false, wpc := .idle } } ∧
    (∀ t, exec .wkAbort s = .next t → (t.stalled = true ↔ s.cfg.mode = .interrupt ∧
      s.dev.word s.cfg.offMachi &&& s.cfg.machiIrqEn = 0 ∧ s.answer .rsr &&& s.cfg.doneMask ≠ 0))

/-! ## Bus requests (spec/30_encoding.md R120) and the reference device (spec/20_memory.md R90, R91) -/

/-- RD_MACLO, RD_MACHI, RD_RSR, RD_RBAD, RD_RPLR, RD_RXBUF: a read answers one word and changes neither engine, device
nor host memory (R79, R130). A bus request as a step of its own is the model's choice (log entry 16). -/
def Obligations.BusReadsAnswerAWordAndChangeNothing : Prop :=
  ∀ s : State, ConfigOk s.cfg → s.quiet → s.alive = true →
    (∃ t, exec .rdMaclo s = .next t ∧ Leaves s t s.eng s.dev s.mem [.rd s.cfg.offMaclo (s.answer .maclo)]) ∧
    (∃ t, exec .rdMachi s = .next t ∧ Leaves s t s.eng s.dev s.mem [.rd s.cfg.offMachi (s.answer .machi)]) ∧
    (∃ t, exec .rdRsr s = .next t ∧ Leaves s t s.eng s.dev s.mem [.rd s.cfg.offRsr (s.answer .rsr)]) ∧
    (∃ t, exec .rdRbad s = .next t ∧ Leaves s t s.eng s.dev s.mem [.rd s.cfg.offRbad (s.answer .rbad)]) ∧
    (∀ i, i < s.cfg.slotCount →
      ∃ t, exec (.rdRplr i) s = .next t ∧
        Leaves s t s.eng s.dev s.mem [.rd (s.cfg.offRplr + i * s.cfg.rplrStride) (s.answer (.rplr i))]) ∧
    (∀ i k, i < s.cfg.slotCount → 8 * k < s.cfg.slotStride →
      ∃ t, exec (.rdRxbuf i k) s = .next t ∧
        Leaves s t s.eng s.dev s.mem
          [.rd (s.cfg.offRxbuf + i * s.cfg.slotStride + 8 * k) (s.answer (.rxbuf i k))])

/-- WR_MACHI, WR_TPLR, WR_RSR, WR_TXBUF: the effects of R80 and R81. Under REF_DEVICE a write to TPLR sends the first
`v` bytes of the transmit window (R90). The model's choices: a bus request as a step of its own (log entry 16), the hidden
state without `REF_DEVICE` (log entry 8), a frame no longer than the window (log entry 15). -/
def Obligations.BusWritesHaveTheirDeviceEffect : Prop :=
  ∀ (s : State) (v : Word), ConfigOk s.cfg → s.quiet → s.alive = true →
    (∃ t, exec (.wrMachi v) s = .next t ∧
      Leaves s t s.eng (s.dev.store s.cfg.offMachi v) s.mem [.wr s.cfg.offMachi v]) ∧
    (∃ t, exec (.wrTplr v) s = .next t ∧
      Leaves s t s.eng
        { s.dev.store s.cfg.offTplr v with
          wire := if s.cfg.refDevice then s.dev.wire ++ [sentFrame s.cfg (s.dev.store s.cfg.offTplr v) v.toNat]
                  else s.dev.wire }
        s.mem [.wr s.cfg.offTplr v]) ∧
    (∃ t, exec (.wrRsr v) s = .next t ∧
      Leaves s t s.eng
        { s.dev with full := s.dev.full.set s.dev.cons false, cons := (v &&& s.cfg.slotIndexMask).toNat }
        s.mem [.wr s.cfg.offRsr v]) ∧
    (∀ k, 8 * k < s.cfg.txWindowBytes →
      ∃ t, exec (.wrTxbuf k v) s = .next t ∧
        Leaves s t s.eng (s.dev.store (s.cfg.offTxbuf + 8 * k) v) s.mem [.wr (s.cfg.offTxbuf + 8 * k) v])

/-- R90: what the reference device answers. -/
def Obligations.ReferenceDeviceAnswersReads : Prop :=
  ∀ s : State, s.cfg.refDevice = true →
    s.answer .rsr = (if s.dev.full.getD s.dev.cons false then s.cfg.doneMask else 0) ||| BitVec.ofNat 64 s.dev.cons ∧
    (∀ j, (s.answer .rbad).getLsbD j = true ↔
      ∃ i, i < s.cfg.slotCount ∧ s.dev.full.getD i false = true ∧ s.dev.bad.getD i false = true ∧
        (s.cfg.baseErr <<< i).getLsbD j = true) ∧
    (∀ i, s.answer (.rplr i) = s.dev.word (s.cfg.offRplr + i * s.cfg.rplrStride)) ∧
    (∀ i k, s.answer (.rxbuf i k) = s.dev.word (s.cfg.offRxbuf + i * s.cfg.slotStride + 8 * k)) ∧
    s.answer .maclo = s.dev.word s.cfg.offMaclo ∧ s.answer .machi = s.dev.word s.cfg.offMachi

/-- R91: the capture step fills the lowest empty slot at or after `cons` in ring order, and is lost when every slot is
full. A frame longer than a slot is not captured (the model's choice, log entry 14). -/
def Obligations.CaptureFillsTheFirstEmptySlot : Prop :=
  ∀ (s : State) (f : List Byte) (r : Word) (e : Bool) (rest : List Item),
    Inv s → s.cfg.refDevice = true → roundUp8 f.length ≤ s.cfg.slotStride →
    s.env.agenda = .capture f r e :: rest →
    (∀ m p, m < s.cfg.slotCount → p = (s.dev.cons + m) % s.cfg.slotCount → s.dev.isFull p = false →
      (∀ m', m' < m → s.dev.isFull ((s.dev.cons + m') % s.cfg.slotCount) = true) →
      ∃ t, step s = .next t ∧ t.eng = s.eng ∧ t.mem = s.mem ∧ t.trace = s.trace ∧
        t.dev.isFull p = true ∧ t.dev.isBad p = e ∧ t.dev.word (s.cfg.offRplr + p * s.cfg.rplrStride) = r ∧
        (∀ j, (hj : j < f.length) → byteOf (t.dev.word (rxAddr s.cfg p (j / 8))) (j % 8) = f[j]) ∧
        (∀ q, q ≠ p → t.dev.isFull q = s.dev.isFull q ∧ t.dev.isBad q = s.dev.isBad q) ∧
        (∀ off, (∀ k, k < words8 f.length → off ≠ rxAddr s.cfg p k) → off ≠ s.cfg.offRplr + p * s.cfg.rplrStride →
          t.dev.word off = s.dev.word off) ∧
        t.dev.cons = s.dev.cons ∧ t.dev.wire = s.dev.wire) ∧
    ((∀ m, m < s.cfg.slotCount → s.dev.isFull m = true) →
      step s = .next { s with env := { s.env with agenda := rest } })

/-! ## Faults (spec/60_exceptions.md) -/

/-- R250, R251, R252: a failed device access, whichever of the step's accesses it is, ends the step. Where the step `i`
puts out `later ++ a :: before` when nothing fails (newest first) and the platform reports the access `a` as failed
instead, the step stops there with F_BUS and the offset of `a` recorded: what it put out before stands, and nothing of
`a` or after it but, where a failed write lands, that write. Engine fields written before the access keep their new values
(`Engine.beforeAccess`, log entry 23); the coming failure as plain data, and whether a failed write lands, are log entry
10, the info of an offset of 2^64 or more log entry 29. -/
def Obligations.FailedDeviceAccessEndsTheStep : Prop :=
  ∀ (i : Instr) (s u : State) (later before : List PortEvent) (a : PortEvent) (off : Nat) (lands : Bool),
    ConfigOk s.cfg → s.env.busFail = none → exec i s = .next u → u.trace = later ++ a :: before ++ s.trace →
    a.accessAt off →
    ∃ t, exec i (s.failingBus (accesses before) lands) = .next t ∧
      t.cfg = s.cfg ∧ t.trace = .failed off :: before ++ s.trace ∧
      t.eng = { Engine.beforeAccess s.cfg i before s.eng with fault := some ⟨.bus, BitVec.ofNat 64 off⟩ } ∧
      (i ≠ .wkCopy → t.mem = s.mem) ∧
      (∀ b x, i = .wkCopy → s.eng.buf = some (some b) → t.mem.read x =
        if bufAddr s.cfg b 0 ≤ x ∧ x < bufAddr s.cfg b (accesses before) then u.mem.read x else s.mem.read x) ∧
      (∀ x w, .wr x w ∈ before → t.dev.word x = w) ∧
      (∀ x, x ≠ off → (∀ w, .wr x w ∉ before) → t.dev.word x = s.dev.word x) ∧
      (lands = false → t.dev.word off = s.dev.word off ∧ t.dev.wire = s.dev.wire) ∧
      (lands = false ∨ off ≠ s.cfg.offRsr →
        t.dev.cons = s.dev.cons ∧ t.dev.full = s.dev.full ∧ t.dev.bad = s.dev.bad)

/-- R253, R251, R250: a failed host access, at any word of WK_COPY or any byte of TX_SEND. WK_COPY records F_HOSTMEM with
the address of the word it was writing: the words before it are in the buffer, of the failing one the bytes that landed,
nothing after it; the buffer is neither delivered nor released. TX_SEND records it with the address of the byte it was
reading (`SendStopped`). That a frame which runs past host memory stops at its first byte outside, the coming failure as
plain data, and the info of an address of 2^64 or more are log entry 10. -/
def Obligations.FailedHostAccessEndsTheStep : Prop :=
  ∀ (s : State) (k : Nat) (lanes : BitVec 8), ConfigOk s.cfg → s.quiet →
    (∀ n i b, s.atStep .copy = true → s.eng.len = some (.bytes n) → n ≤ s.cfg.maxFrameBytes → k < words8 n →
      s.eng.slot = some i → i < s.cfg.slotCount → s.eng.buf = some (some b) →
      bufAddr s.cfg b k + 8 ≤ 2 ^ s.cfg.hostAddrBits →
      ∃ t, ∃ ws : Nat → Word, exec .wkCopy (s.failingMem k lanes) = .next t ∧
        Leaves s t { s.eng with fault := some ⟨.hostMem, BitVec.ofNat 64 (bufAddr s.cfg b k)⟩ } s.dev t.mem
          ((List.range (k + 1)).map fun j => PortEvent.rd (rxAddr s.cfg i j) (ws j)).reverse ∧
        (∀ j, j < 8 * k → t.mem.read (bufAddr s.cfg b 0 + j) = byteOf (ws (j / 8)) (j % 8)) ∧
        (∀ m, m < 8 → t.mem.read (bufAddr s.cfg b k + m) =
          if lanes.getLsbD m then byteOf (ws k) m else s.mem.read (bufAddr s.cfg b k + m)) ∧
        (∀ x, x < bufAddr s.cfg b 0 ∨ bufAddr s.cfg b (k + 1) ≤ x → t.mem.read x = s.mem.read x) ∧
        (s.cfg.refDevice = true → ∀ j, j ≤ k → ws j = s.dev.word (rxAddr s.cfg i j))) ∧
    (∀ (len : BitVec 24) (h : Word), s.up = true → s.eng.running = true → len.toNat ≤ s.cfg.txWindowBytes →
      k < len.toNat →
      (h.toNat + k < 2 ^ s.cfg.hostAddrBits →
        ∃ t ws, exec (.txSend len h) (s.failingMem k lanes) = .next t ∧ SendStopped s t h k ws) ∧
      (k = 2 ^ s.cfg.hostAddrBits - h.toNat →
        ∃ t ws, exec (.txSend len h) s = .next t ∧ SendStopped s t h k ws))

/-- R32, R251: a step that reads a working register no step has written since reset records F_UNWRITTEN with the
register's index in the table of R31. -/
def Obligations.UnwrittenRegisterReadFaults : Prop :=
  ∀ s : State,
    (s.atStep .decode = true → s.eng.st = none →
      exec .wkDecode s = .next { s with eng := { s.eng with fault := some ⟨.unwritten, 0⟩ } }) ∧
    (s.atStep .advance = true → s.eng.slot = none →
      exec .wkAdvance s = .next { s with eng := { s.eng with fault := some ⟨.unwritten, 1⟩ } }) ∧
    (s.atStep .alloc = true → s.eng.len = none →
      exec .wkAlloc s = .next { s with eng := { s.eng with fault := some ⟨.unwritten, 4⟩ } }) ∧
    (∀ len, s.atStep .validate = true → s.eng.len = some len → s.eng.errs = none →
      exec .wkValidate s = .next { s with eng := { s.eng with fault := some ⟨.unwritten, 2⟩ } }) ∧
    (s.atStep .copy = true → s.eng.len = none →
      exec .wkCopy s = .next { s with eng := { s.eng with fault := some ⟨.unwritten, 4⟩ } }) ∧
    (s.atStep .deliver = true → s.eng.buf = none →
      exec .wkDeliver s = .next { s with eng := { s.eng with fault := some ⟨.unwritten, 5⟩ } })

/-! ## The whole machine -/

/-- The invariant holds at reset, for every configuration that passes the check. What reset leaves in memory and in the
device's hidden state is the model's choice (log entries 7 and 8). -/
def Obligations.ResetSatisfiesTheInvariant : Prop :=
  Inv State.reset ∧ ∀ c : Config, ConfigOk c → Inv (State.resetWith c)

/-- Every step keeps the invariant, whatever the environment offers and whichever access fails: host memory keeps its
canonical form, an activation is outstanding exactly while the worker is not idle (R173), the slot index stays in the
ring (R174), the working registers hold what the step order writes into them (R32, R177, R192), only an accepted frame is
copied, advanced and delivered (R180, R191), and a buffer is held from WK_ALLOC to WK_DELIVER only, its bytes in host
memory (R86 to R88; an answer of the allocator that breaks its duty counts as NONE, log entry 3). -/
def Obligations.EveryStepKeepsTheInvariant : Prop :=
  ∀ s t : State, Inv s → step s = .next t → Inv t

/-- R173 by itself, in every state and for every operation: busy exactly while the step pointer is not idle. -/
def Obligations.BusyExactlyWhileNotIdle : Prop :=
  ∀ (i : Instr) (s t : State), (s.eng.busy = true ↔ s.eng.wpc ≠ .idle) → exec i s = .next t →
    (t.eng.busy = true ↔ t.eng.wpc ≠ .idle)

/-- R32, R136: from a state of the invariant no step of an engine agent raises F_ADDR or F_UNWRITTEN: the only faults
it can record are failed accesses. -/
def Obligations.EngineStepsRaiseOnlyAccessFaults : Prop :=
  ∀ (i : Instr) (s t : State) (r : FaultRecord), Inv s → s.alive = true → isBus i = false → WellFormed s.cfg i = true →
    exec i s = .next t → t.eng.fault = some r → r.code = .bus ∨ r.code = .hostMem

/-- R135, R170, R266: each step puts out only the port events the spec lists for it. In particular the fast path never
allocates, delivers or writes RSR, the worker never writes TXBUF or TPLR, the host never writes RSR, and every
ring-advance write is `next_id` of the decoded slot. -/
def Obligations.StepsIssueOnlyTheirAccesses : Prop :=
  ∀ (i : Instr) (s t : State), Inv s → exec i s = .next t →
    ∃ events, t.trace = events ++ s.trace ∧ ∀ e ∈ events, mayIssue s i e

/-- R132, R133, R290: under REF_DEVICE no step of an engine agent changes a MACHI bit other than IRQ_EN and ALLPKTS,
whether its accesses complete or fail. -/
def Obligations.EngineChangesOnlyTheControlBits : Prop :=
  ∀ (i : Instr) (s t : State), ConfigOk s.cfg → s.cfg.refDevice = true → isBus i = false → i ≠ .evReset →
    exec i s = .next t →
    t.dev.word s.cfg.offMachi &&& ~~~(s.cfg.machiIrqEn ||| s.cfg.machiAllpkts)
      = s.dev.word s.cfg.offMachi &&& ~~~(s.cfg.machiIrqEn ||| s.cfg.machiAllpkts)

/-- R224, R281: under REF_DEVICE the soft-promiscuous flag and MACHI's ALLPKTS bit agree once INIT has run, and every
step of an engine agent keeps them so unless it faults. -/
def Obligations.PromiscFlagAgreesWithAllpkts : Prop :=
  ∀ (i : Instr) (s t : State), ConfigOk s.cfg → s.cfg.refDevice = true → isBus i = false →
    (s.eng.initDone = false → s.eng.promisc = false) →
    (s.eng.initDone = true → (s.eng.promisc = true ↔ s.dev.word s.cfg.offMachi &&& s.cfg.machiAllpkts ≠ 0)) →
    exec i s = .next t → t.eng.fault = none →
    (t.eng.initDone = false → t.eng.promisc = false) ∧
    (t.eng.initDone = true → (t.eng.promisc = true ↔ t.dev.word s.cfg.offMachi &&& s.cfg.machiAllpkts ≠ 0))

/-- R9, R30: the configuration is fixed for a run. -/
def Obligations.NoStepChangesTheConfiguration : Prop :=
  ∀ s t : State, step s = .next t → t.cfg = s.cfg

/-- Host memory is written only by WK_COPY, inside the buffer the worker holds from the pad on (R72, R184), and by the
host itself. -/
def Obligations.OnlyTheCopyStepWritesHostMemory : Prop :=
  ∀ (i : Instr) (s t : State) (a : Nat), exec i s = .next t → t.mem.read a ≠ s.mem.read a →
    i = .wkCopy ∧ ∃ n b, s.eng.len = some (.bytes n) ∧ s.eng.buf = some (some b) ∧
      b.toNat + s.cfg.alignPad ≤ a ∧ a < b.toNat + s.cfg.alignPad + roundUp8 n

/-- The invariant holds in every state that a run from reset reaches, whatever the environment chooses between any two
steps: every interleaving of agents (R261), every answer, every failure (log entries 3, 4 and 10). -/
def Obligations.ReachableStatesSatisfyTheInvariant : Prop :=
  ∀ (c : Config) (s : State), ConfigOk c → Reachable c s → Inv s

/-- R194, R301: under REF_DEVICE an activation ends. Where nothing at all is offered (no command, event, tick, capture or
host write), the worker alone steps (log entry 4), and some finite number of its steps leaves it idle, unless an access
fails and the engine stops. -/
def Obligations.ActivationEndsUnderTheReferenceDevice : Prop :=
  ∀ s : State, Inv s → s.cfg.refDevice = true → s.up = true → s.env.agenda = [] →
    ∃ n t, Host.Core.run Sys2Proof.core n s = .next t ∧ (t.eng.wpc = .idle ∨ t.eng.fault ≠ none)

end
end

