-- ==== Sys2Proof/Laws/Config.lean ====
section
/-! SUPPORT. What a configuration that passes the check of R255 satisfies, and what follows for the selection of
registers by offset (R120, R136): every row is selected at its own offset, and only there. -/

namespace Sys2Proof.Machine

/-- The constraints of R255 as facts. -/
structure ConfigFacts (c : Config) : Prop where
  ring : 2 ≤ c.slotCount
  mask : c.slotIndexMask.toNat = c.slotCount - 1
  done : c.doneMask ≠ 0
  doneOff : c.doneMask &&& c.slotIndexMask = 0
  err : c.baseErr ≠ 0
  errFits : c.baseErr.toNat * 2 ^ (c.slotCount - 1) < 2 ^ 64
  lenFits : c.maxFrameBytes ≤ c.lenMask.toNat
  stride8 : c.slotStride % 8 = 0
  strideFits : roundUp8 c.maxFrameBytes ≤ c.slotStride
  pad : c.alignPad < 8
  rxBuf : c.rxBufMin = c.alignPad + roundUp8 c.maxFrameBytes
  tx8 : c.txWindowBytes % 8 = 0
  offs8 : c.offMaclo % 8 = 0 ∧ c.offMachi % 8 = 0 ∧ c.offTplr % 8 = 0 ∧ c.offRsr % 8 = 0 ∧ c.offRbad % 8 = 0 ∧
    c.offRplr % 8 = 0 ∧ c.offTxbuf % 8 = 0 ∧ c.offRxbuf % 8 = 0 ∧ c.rplrStride % 8 = 0
  rplr : 8 ≤ c.rplrStride
  apart : allDisjoint (regions c) = true
  irqBit : isControlBit c.machiIrqEn = true
  allBit : isControlBit c.machiAllpkts = true
  bitsApart : c.machiIrqEn ≠ c.machiAllpkts
  macMask : c.machiMacMask = 0xFFFF
  start : ∀ r ∈ regions c, r.1 < 2 ^ c.offBits
  below : ∀ r ∈ regions c, r.1 + r.2 ≤ 2 ^ c.offBits

theorem ConfigOk.facts {c : Config} (h : ConfigOk c) : ConfigFacts c := by
  have h' := List.findIdx?_eq_none_iff.mp h
  simp only [constraints, List.mem_cons, List.not_mem_nil, or_false, forall_eq_or_imp, forall_eq,
    Bool.not_eq_false', Bool.and_eq_true, decide_eq_true_eq, bne_iff_ne, ne_eq, beq_iff_eq, List.all_cons, List.all_nil,
    isRingSize, belowOffBits, List.all_eq_true] at h'
  obtain ⟨⟨h1, -⟩, h2, h3, h4, h5, h6, h7, h8, h9, h10, h11, h12, h13, h14, h15, h16⟩ := h'
  exact ⟨h1, h2, h3, h4, h5, h6, h7, h8, h9, h10, h11, h12, by tauto, h13.2, h14, h15.1.1.1, h15.1.1.2, h15.1.2,
    h15.2, fun r hr => (h16 r hr).1, fun r hr => (h16 r hr).2⟩

/-- Two byte ranges, each a base and a size, share no byte. -/
def Apart (a m b n : Nat) : Prop := m = 0 ∨ n = 0 ∨ a + m ≤ b ∨ b + n ≤ a

theorem disjoint_iff {a b : Region} : disjoint a b = true ↔ Apart a.1 a.2 b.1 b.2 := by
  simp [disjoint, Apart, or_assoc]

/-- No two registers or windows overlap, written out. -/
theorem ConfigFacts.apart_all {c : Config} (h : ConfigFacts c) : (regions c).Pairwise (fun a b => Apart a.1 a.2 b.1 b.2) := by
  have key : ∀ l : List Region, allDisjoint l = true →
      l.Pairwise (fun a b => Apart a.1 a.2 b.1 b.2) := by
    intro l
    induction l with
    | nil => intro _; exact .nil
    | cons r rs ih =>
      intro hl
      simp only [allDisjoint, Bool.and_eq_true, List.all_eq_true] at hl
      exact .cons (fun b hb => disjoint_iff.mp (hl.1 b hb)) (ih hl.2)
  exact key _ h.apart

/-- The end of the length register of slot `s`. -/
theorem rplr_end {c : Config} {s : Nat} (h : s < c.slotCount) :
    s * c.rplrStride + c.rplrStride ≤ c.slotCount * c.rplrStride := by
  calc s * c.rplrStride + c.rplrStride = (s + 1) * c.rplrStride := by ring
    _ ≤ c.slotCount * c.rplrStride := Nat.mul_le_mul_right _ h

/-- The end of slot `s` of the receive window. -/
theorem rxbuf_end {c : Config} {s : Nat} (h : s < c.slotCount) :
    s * c.slotStride + c.slotStride ≤ c.slotCount * c.slotStride := by
  calc s * c.slotStride + c.slotStride = (s + 1) * c.slotStride := by ring
    _ ≤ c.slotCount * c.slotStride := Nat.mul_le_mul_right _ h

/-- The operands of a read row are in range. -/
def readInRange (c : Config) : ReadReg → Prop
  | .rplr s => s < c.slotCount
  | .rxbuf s k => s < c.slotCount ∧ 8 * k < c.slotStride
  | _ => True

/-- The operand of a write row is in range. -/
def writeInRange (c : Config) : WriteReg → Prop
  | .txbuf k => 8 * k < c.txWindowBytes
  | _ => True

theorem Apart.ne {a b x n : Nat} (h : Apart a 8 b n) (h1 : b ≤ x) (h2 : x < b + n) : x ≠ a := by
  unfold Apart at h; omega

theorem Apart.ne_reg {a b : Nat} (h : Apart a 8 b 8) : b ≠ a := by
  unfold Apart at h; omega

theorem Apart.outside {a m b n x : Nat} (h : Apart a m b n) (h1 : b ≤ x) (h2 : x < b + n) : ¬ (a ≤ x ∧ x < a + m) := by
  unfold Apart at h; omega

theorem Apart.outside_rplr {a m b n x : Nat} {p : Prop} (h : Apart a m b n) (h1 : b ≤ x) (h2 : x < b + n) :
    ¬ (a ≤ x ∧ x < a + m ∧ p) := fun ⟨h3, h4, _⟩ => h.outside h1 h2 ⟨h3, h4⟩

/-- The pairwise facts that the selection of rows rests on. -/
structure RegionsApart (c : Config) : Prop where
  lo_hi : Apart c.offMaclo 8 c.offMachi 8
  lo_rsr : Apart c.offMaclo 8 c.offRsr 8
  lo_rbad : Apart c.offMaclo 8 c.offRbad 8
  lo_rplr : Apart c.offMaclo 8 c.offRplr (c.slotCount * c.rplrStride)
  lo_rx : Apart c.offMaclo 8 c.offRxbuf (c.slotCount * c.slotStride)
  hi_tplr : Apart c.offMachi 8 c.offTplr 8
  hi_rsr : Apart c.offMachi 8 c.offRsr 8
  hi_rbad : Apart c.offMachi 8 c.offRbad 8
  hi_rplr : Apart c.offMachi 8 c.offRplr (c.slotCount * c.rplrStride)
  hi_tx : Apart c.offMachi 8 c.offTxbuf c.txWindowBytes
  hi_rx : Apart c.offMachi 8 c.offRxbuf (c.slotCount * c.slotStride)
  tplr_rsr : Apart c.offTplr 8 c.offRsr 8
  tplr_tx : Apart c.offTplr 8 c.offTxbuf c.txWindowBytes
  rsr_rbad : Apart c.offRsr 8 c.offRbad 8
  rsr_rplr : Apart c.offRsr 8 c.offRplr (c.slotCount * c.rplrStride)
  rsr_tx : Apart c.offRsr 8 c.offTxbuf c.txWindowBytes
  rsr_rx : Apart c.offRsr 8 c.offRxbuf (c.slotCount * c.slotStride)
  rbad_rplr : Apart c.offRbad 8 c.offRplr (c.slotCount * c.rplrStride)
  rbad_rx : Apart c.offRbad 8 c.offRxbuf (c.slotCount * c.slotStride)
  rplr_rx : Apart c.offRplr (c.slotCount * c.rplrStride) c.offRxbuf (c.slotCount * c.slotStride)
  lo_tplr : Apart c.offMaclo 8 c.offTplr 8
  lo_tx : Apart c.offMaclo 8 c.offTxbuf c.txWindowBytes
  tplr_rbad : Apart c.offTplr 8 c.offRbad 8
  tplr_rplr : Apart c.offTplr 8 c.offRplr (c.slotCount * c.rplrStride)
  tplr_rx : Apart c.offTplr 8 c.offRxbuf (c.slotCount * c.slotStride)
  rbad_tx : Apart c.offRbad 8 c.offTxbuf c.txWindowBytes
  rplr_tx : Apart c.offRplr (c.slotCount * c.rplrStride) c.offTxbuf c.txWindowBytes
  tx_rx : Apart c.offTxbuf c.txWindowBytes c.offRxbuf (c.slotCount * c.slotStride)

theorem ConfigFacts.regionsApart {c : Config} (h : ConfigFacts c) : RegionsApart c := by
  have hp := h.apart_all
  have at' (i j : Nat) (hj : j < 8) (hij : i < j) :
      Apart ((regions c)[i]'(by simp [regions]; omega)).1 ((regions c)[i]'(by simp [regions]; omega)).2
        ((regions c)[j]'(by simpa [regions] using hj)).1 ((regions c)[j]'(by simpa [regions] using hj)).2 :=
    List.pairwise_iff_getElem.mp hp i j _ _ hij
  exact {
    lo_hi := at' 0 1 (by decide) (by decide), lo_tplr := at' 0 2 (by decide) (by decide)
    lo_rsr := at' 0 3 (by decide) (by decide), lo_rbad := at' 0 4 (by decide) (by decide)
    lo_rplr := at' 0 5 (by decide) (by decide), lo_tx := at' 0 6 (by decide) (by decide)
    lo_rx := at' 0 7 (by decide) (by decide), hi_tplr := at' 1 2 (by decide) (by decide)
    hi_rsr := at' 1 3 (by decide) (by decide), hi_rbad := at' 1 4 (by decide) (by decide)
    hi_rplr := at' 1 5 (by decide) (by decide), hi_tx := at' 1 6 (by decide) (by decide)
    hi_rx := at' 1 7 (by decide) (by decide), tplr_rsr := at' 2 3 (by decide) (by decide)
    tplr_rbad := at' 2 4 (by decide) (by decide), tplr_rplr := at' 2 5 (by decide) (by decide)
    tplr_tx := at' 2 6 (by decide) (by decide), tplr_rx := at' 2 7 (by decide) (by decide)
    rsr_rbad := at' 3 4 (by decide) (by decide), rsr_rplr := at' 3 5 (by decide) (by decide)
    rsr_tx := at' 3 6 (by decide) (by decide), rsr_rx := at' 3 7 (by decide) (by decide)
    rbad_rplr := at' 4 5 (by decide) (by decide), rbad_tx := at' 4 6 (by decide) (by decide)
    rbad_rx := at' 4 7 (by decide) (by decide), rplr_tx := at' 5 6 (by decide) (by decide)
    rplr_rx := at' 5 7 (by decide) (by decide), tx_rx := at' 6 7 (by decide) (by decide) }

/-- Every read row is selected at its own offset. -/
theorem selectRead_offset {c : Config} (h : ConfigFacts c) {r : ReadReg} (hr : readInRange c r) :
    selectRead c (readOffset c r) = some r := by
  have p := h.regionsApart
  obtain ⟨m1, m2, -, m4, m5, m6, -, m8, m9⟩ := h.offs8
  cases r with
  | maclo => simp [readOffset, selectRead, m1]
  | machi => simp [readOffset, selectRead, m2, p.lo_hi.ne_reg]
  | rsr => simp [readOffset, selectRead, m4, p.lo_rsr.ne_reg, p.hi_rsr.ne_reg]
  | rbad => simp [readOffset, selectRead, m5, p.lo_rbad.ne_reg, p.hi_rbad.ne_reg, p.rsr_rbad.ne_reg]
  | rplr s =>
    have hpos := h.rplr
    have hend := rplr_end (c := c) hr
    have h1 : c.offRplr ≤ c.offRplr + s * c.rplrStride := Nat.le_add_right _ _
    have h2 : c.offRplr + s * c.rplrStride < c.offRplr + c.slotCount * c.rplrStride := by omega
    have hm : s * c.rplrStride % 8 = 0 := by rw [Nat.mul_mod, m9]; simp
    have h8 : (c.offRplr + s * c.rplrStride) % 8 = 0 := by omega
    simp only [readOffset]
    unfold selectRead
    rw [if_neg (not_not_intro h8), if_neg (p.lo_rplr.ne h1 h2), if_neg (p.hi_rplr.ne h1 h2),
      if_neg (p.rsr_rplr.ne h1 h2), if_neg (p.rbad_rplr.ne h1 h2), Nat.add_sub_cancel_left,
      if_pos ⟨h1, h2, Nat.mul_mod_left _ _⟩, Nat.mul_div_cancel _ (by omega)]
  | rxbuf s k =>
    obtain ⟨hr1, hr2⟩ := hr
    have hend := rxbuf_end (c := c) hr1
    have hpos : 0 < c.slotStride := by omega
    have h1 : c.offRxbuf ≤ c.offRxbuf + s * c.slotStride + 8 * k := by omega
    have h2 : c.offRxbuf + s * c.slotStride + 8 * k < c.offRxbuf + c.slotCount * c.slotStride := by omega
    have hm : s * c.slotStride % 8 = 0 := by rw [Nat.mul_mod, h.stride8]; simp
    have h8 : (c.offRxbuf + s * c.slotStride + 8 * k) % 8 = 0 := by omega
    have hsub : c.offRxbuf + s * c.slotStride + 8 * k - c.offRxbuf = 8 * k + c.slotStride * s := by
      rw [Nat.mul_comm c.slotStride]; omega
    simp only [readOffset]
    unfold selectRead
    rw [if_neg (not_not_intro h8), if_neg (p.lo_rx.ne h1 h2), if_neg (p.hi_rx.ne h1 h2), if_neg (p.rsr_rx.ne h1 h2),
      if_neg (p.rbad_rx.ne h1 h2), if_neg (p.rplr_rx.outside_rplr h1 h2), if_pos ⟨h1, h2⟩, hsub,
      Nat.add_mul_div_left _ _ hpos, Nat.add_mul_mod_self_left, Nat.mod_eq_of_lt hr2, Nat.div_eq_of_lt hr2,
      Nat.zero_add, Nat.mul_div_cancel_left _ (by omega)]

/-- Every write row is selected at its own offset. -/
theorem selectWrite_offset {c : Config} (h : ConfigFacts c) {r : WriteReg} (hr : writeInRange c r) :
    selectWrite c (writeOffset c r) = some r := by
  have p := h.regionsApart
  obtain ⟨-, m2, m3, m4, -, -, m7, -, -⟩ := h.offs8
  cases r with
  | machi => simp [writeOffset, selectWrite, m2]
  | tplr => simp [writeOffset, selectWrite, m3, p.hi_tplr.ne_reg]
  | rsr => simp [writeOffset, selectWrite, m4, p.hi_rsr.ne_reg, p.tplr_rsr.ne_reg]
  | txbuf k =>
    have hk : 8 * k < c.txWindowBytes := hr
    have h1 : c.offTxbuf ≤ c.offTxbuf + 8 * k := Nat.le_add_right _ _
    have h2 : c.offTxbuf + 8 * k < c.offTxbuf + c.txWindowBytes := by omega
    have h8 : (c.offTxbuf + 8 * k) % 8 = 0 := by omega
    simp only [writeOffset]
    unfold selectWrite
    rw [if_neg (not_not_intro h8), if_neg (p.hi_tx.ne h1 h2), if_neg (p.tplr_tx.ne h1 h2), if_neg (p.rsr_tx.ne h1 h2),
      if_pos ⟨h1, h2⟩, Nat.add_sub_cancel_left, Nat.mul_div_cancel_left _ (by omega)]

theorem selectRead_maclo {c : Config} (h : ConfigFacts c) : selectRead c c.offMaclo = some .maclo :=
  selectRead_offset h (r := .maclo) trivial
theorem selectRead_machi {c : Config} (h : ConfigFacts c) : selectRead c c.offMachi = some .machi :=
  selectRead_offset h (r := .machi) trivial
theorem selectRead_rsr {c : Config} (h : ConfigFacts c) : selectRead c c.offRsr = some .rsr :=
  selectRead_offset h (r := .rsr) trivial
theorem selectRead_rbad {c : Config} (h : ConfigFacts c) : selectRead c c.offRbad = some .rbad :=
  selectRead_offset h (r := .rbad) trivial
theorem selectRead_rplr {c : Config} (h : ConfigFacts c) {s : Nat} (hs : s < c.slotCount) :
    selectRead c (readOffset c (.rplr s)) = some (.rplr s) := selectRead_offset h hs
theorem selectRead_rx {c : Config} (h : ConfigFacts c) {s k : Nat} (hs : s < c.slotCount) (hk : 8 * k < c.slotStride) :
    selectRead c (rxAddr c s k) = some (.rxbuf s k) := selectRead_offset h ⟨hs, hk⟩
theorem selectWrite_machi {c : Config} (h : ConfigFacts c) : selectWrite c c.offMachi = some .machi :=
  selectWrite_offset h (r := .machi) trivial
theorem selectWrite_tplr {c : Config} (h : ConfigFacts c) : selectWrite c c.offTplr = some .tplr :=
  selectWrite_offset h (r := .tplr) trivial
theorem selectWrite_rsr {c : Config} (h : ConfigFacts c) : selectWrite c c.offRsr = some .rsr :=
  selectWrite_offset h (r := .rsr) trivial
theorem selectWrite_tx {c : Config} (h : ConfigFacts c) {k : Nat} (hk : 8 * k < c.txWindowBytes) :
    selectWrite c (txAddr c k) = some (.txbuf k) := selectWrite_offset h (r := .txbuf k) hk

/-- What a selected read row says of the offset (the converse of `selectRead_offset`). -/
theorem selectRead_some {c : Config} {off : Nat} {r : ReadReg} (hs8 : c.slotStride % 8 = 0)
    (hr8 : c.offRxbuf % 8 = 0) (h : selectRead c off = some r) : readOffset c r = off ∧ readInRange c r := by
  unfold selectRead at h
  split at h
  · simp at h
  split at h
  · cases h; exact ⟨by simp [readOffset, *], trivial⟩
  split at h
  · cases h; exact ⟨by simp [readOffset, *], trivial⟩
  split at h
  · cases h; exact ⟨by simp [readOffset, *], trivial⟩
  split at h
  · cases h; exact ⟨by simp [readOffset, *], trivial⟩
  split at h
  · next hx =>
    cases h
    obtain ⟨h1, h2, h3⟩ := hx
    constructor
    · simp only [readOffset]; rw [Nat.div_mul_cancel (Nat.dvd_of_mod_eq_zero h3)]; omega
    · exact Nat.div_lt_of_lt_mul (by rw [Nat.mul_comm]; omega)
  split at h
  · next h0 _ _ _ _ _ hx =>
    cases h
    obtain ⟨h1, h2⟩ := hx
    have hpos : 0 < c.slotStride := by
      rcases Nat.eq_zero_or_pos c.slotStride with hz | hz
      · rw [hz] at h2; omega
      · exact hz
    have hdm := Nat.div_add_mod (off - c.offRxbuf) c.slotStride
    have hlt := Nat.mod_lt (off - c.offRxbuf) hpos
    have h8 : (off - c.offRxbuf) % c.slotStride % 8 = 0 := by
      rw [Nat.mod_mod_of_dvd _ (Nat.dvd_of_mod_eq_zero hs8)]; omega
    refine ⟨?_, Nat.div_lt_of_lt_mul (by rw [Nat.mul_comm]; omega), by omega⟩
    simp only [readOffset]
    rw [Nat.mul_comm ((off - c.offRxbuf) / c.slotStride)]
    omega
  · simp at h

/-- What a selected write row says of the offset (the converse of `selectWrite_offset`). -/
theorem selectWrite_some {c : Config} {off : Nat} {r : WriteReg} (ht8 : c.offTxbuf % 8 = 0)
    (h : selectWrite c off = some r) : writeOffset c r = off ∧ writeInRange c r := by
  unfold selectWrite at h
  split at h
  · simp at h
  split at h
  · cases h; exact ⟨by simp [writeOffset, *], trivial⟩
  split at h
  · cases h; exact ⟨by simp [writeOffset, *], trivial⟩
  split at h
  · cases h; exact ⟨by simp [writeOffset, *], trivial⟩
  split at h
  · next hx =>
    cases h
    refine ⟨?_, ?_⟩
    · simp only [writeOffset]; omega
    · show 8 * ((off - c.offTxbuf) / 8) < c.txWindowBytes
      omega
  · simp at h

/-- A masked slot index lies in the ring (R174). -/
theorem slotOf_lt {c : Config} (h : ConfigFacts c) (st : Word) : slotOf c st < c.slotCount := by
  have h1 : slotOf c st ≤ c.slotIndexMask.toNat := by
    simp only [slotOf, BitVec.toNat_and]; exact Nat.and_le_right
  have := h.mask; have := h.ring; omega

/-- An accepted length leaves every copied word inside the slot (R191). -/
theorem copy_inside {c : Config} (h : ConfigFacts c) {n k : Nat} (hn : n ≤ c.maxFrameBytes) (hk : k < words8 n) :
    8 * k + 8 ≤ c.slotStride := by
  have := h.strideFits
  unfold roundUp8 at this
  unfold words8 at hk
  omega

theorem controlBit_pow {w : Word} (h : isControlBit w = true) : ∃ i, w.toNat = 2 ^ i := by
  simp only [isControlBit, Bool.and_eq_true, bne_iff_ne, beq_iff_eq, ne_eq] at h
  have h0 : w.toNat ≠ 0 := fun h' => h.1.1 (BitVec.eq_of_toNat_eq h')
  have e : (w - 1).toNat = w.toNat - 1 := by
    rw [BitVec.toNat_sub]; have := w.isLt; simp; omega
  have h2 := congrArg BitVec.toNat h.1.2
  rw [BitVec.toNat_and, e] at h2
  exact (Nat.and_sub_one_eq_zero_iff_isPowerOfTwo h0).1 (by simpa using h2)

/-- IRQ_EN and ALLPKTS share no bit. -/
theorem ConfigFacts.bits_apart {c : Config} (h : ConfigFacts c) : c.machiIrqEn &&& c.machiAllpkts = 0 := by
  obtain ⟨i, hi⟩ := controlBit_pow h.irqBit
  obtain ⟨j, hj⟩ := controlBit_pow h.allBit
  have hij : i ≠ j := by rintro rfl; exact h.bitsApart (BitVec.eq_of_toNat_eq (hi.trans hj.symm))
  apply BitVec.eq_of_toNat_eq
  rw [BitVec.toNat_and, hi, hj]
  apply Nat.eq_of_testBit_eq
  intro k
  simp [Nat.testBit_two_pow]
  omega

end Sys2Proof.Machine
end

