-- ==== Sys2Proof/Laws/Encode.lean ====
section
/-! SUPPORT. Words and their fields: command words (R111, R114), bus headers (R119, R120), and the registers that one
offset selects. -/

namespace Sys2Proof.Machine

/-! ## Command words (R111) -/

theorem opc_cmdWord (opc : BitVec 8) (arg : BitVec 24) : (cmdWord opc arg).extractLsb' 0 8 = opc :=
  BitVec.extractLsb'_append_eq_right

theorem arg_cmdWord (opc : BitVec 8) (arg : BitVec 24) : (cmdWord opc arg).extractLsb' 8 24 = arg :=
  BitVec.extractLsb'_append_eq_left

/-- The decoder sees the two fields of a command word. -/
theorem decodeCmd_cmdWord (opc : BitVec 8) (arg : BitVec 24) (h : Word) :
    decodeCmd (cmdWord opc arg) h = decodeOpc opc.toNat arg h := by
  rw [decodeCmd, opc_cmdWord, arg_cmdWord]

/-- A command word is its `OPC` and its `ARG`. -/
theorem cmdWord_fields (w : BitVec 32) : cmdWord (w.extractLsb' 0 8) (w.extractLsb' 8 24) = w := by
  apply BitVec.eq_of_toNat_eq
  simp only [cmdWord, BitVec.toNat_append, BitVec.extractLsb'_toNat, Nat.shiftRight_zero]
  rw [← Nat.shiftLeft_add_eq_or_of_lt (Nat.mod_lt _ (by norm_num)), Nat.shiftLeft_eq, Nat.shiftRight_eq_div_pow]
  have := w.isLt; omega

theorem toNat_cmdWord (opc : BitVec 8) (arg : BitVec 24) :
    (cmdWord opc arg).toNat = arg.toNat * 256 + opc.toNat := by
  simp only [cmdWord, BitVec.toNat_append]
  rw [← Nat.shiftLeft_add_eq_or_of_lt opc.isLt, Nat.shiftLeft_eq]

/-- `ARG` of `SET_PROMISC` as written by the encoder: bit 0 is `on`, the rest 0 (R113). -/
theorem decodePromisc_encoded (on : Bool) :
    decodePromisc ((0 : BitVec 23) ++ BitVec.ofBool on) = .ok (.setPromisc on) := by
  cases on <;> decide

/-- `ARG` of `READ_COUNTER` as written by the encoder (R113). -/
theorem decodeCounter_encoded (sel : BitVec 3) (h : sel.toNat ≤ 4) :
    decodeCounter ((0 : BitVec 21) ++ sel) = .ok (.readCounter sel) := by
  have h1 : ((0 : BitVec 21) ++ sel).extractLsb' 3 21 = 0 := BitVec.extractLsb'_append_eq_left
  have h2 : ((0 : BitVec 21) ++ sel).extractLsb' 0 3 = sel := BitVec.extractLsb'_append_eq_right
  rw [decodeCounter, h1, h2, if_pos rfl, if_pos h]

/-! ## Bus headers (R119, R120) -/

theorem ConfigFacts.region_below {c : Config} (h : ConfigFacts c) {a n : Nat} (hr : (a, n) ∈ regions c) :
    a + n ≤ 2 ^ c.offBits := h.below (a, n) hr

/-- A readable register's offset fits the header's field (R120). -/
theorem readOffset_lt {c : Config} (h : ConfigFacts c) {r : ReadReg} (hr : readInRange c r) :
    readOffset c r < 2 ^ c.offBits := by
  cases r with
  | maclo => have := h.region_below (a := c.offMaclo) (n := 8) (by simp [regions]); simp only [readOffset]; omega
  | machi => have := h.region_below (a := c.offMachi) (n := 8) (by simp [regions]); simp only [readOffset]; omega
  | rsr => have := h.region_below (a := c.offRsr) (n := 8) (by simp [regions]); simp only [readOffset]; omega
  | rbad => have := h.region_below (a := c.offRbad) (n := 8) (by simp [regions]); simp only [readOffset]; omega
  | rplr s =>
    have := h.region_below (a := c.offRplr) (n := c.slotCount * c.rplrStride) (by simp [regions])
    have := rplr_end (c := c) hr; have := h.rplr
    simp only [readOffset]; omega
  | rxbuf s k =>
    have := h.region_below (a := c.offRxbuf) (n := c.slotCount * c.slotStride) (by simp [regions])
    have := rxbuf_end (c := c) hr.1; have := hr.2
    simp only [readOffset]; omega

/-- A writable register's offset fits the header's field (R120). -/
theorem writeOffset_lt {c : Config} (h : ConfigFacts c) {r : WriteReg} (hr : writeInRange c r) :
    writeOffset c r < 2 ^ c.offBits := by
  cases r with
  | machi => have := h.region_below (a := c.offMachi) (n := 8) (by simp [regions]); simp only [writeOffset]; omega
  | tplr => have := h.region_below (a := c.offTplr) (n := 8) (by simp [regions]); simp only [writeOffset]; omega
  | rsr => have := h.region_below (a := c.offRsr) (n := 8) (by simp [regions]); simp only [writeOffset]; omega
  | txbuf k =>
    have := h.region_below (a := c.offTxbuf) (n := c.txWindowBytes) (by simp [regions])
    have : 8 * k < c.txWindowBytes := hr
    simp only [writeOffset]; omega

theorem header_off {c : Config} {off : Nat} (we : Bool) (h : off < 2 ^ c.offBits) :
    busHeader c we off % 2 ^ c.offBits = off := by
  cases we <;> simp [busHeader, Nat.mod_eq_of_lt h]

theorem header_we {c : Config} {off : Nat} (we : Bool) (h : off < 2 ^ c.offBits) :
    busHeader c we off / 2 ^ c.offBits = if we then 1 else 0 := by
  cases we
  · simp [busHeader, Nat.div_eq_of_lt h]
  · simp [busHeader, Nat.add_div_left _ (Nat.two_pow_pos c.offBits), Nat.div_eq_of_lt h]

/-- A header is the one of its two fields. -/
theorem header_fields (c : Config) (hdr : Nat) (we : Bool) (h : hdr / 2 ^ c.offBits = if we then 1 else 0) :
    busHeader c we (hdr % 2 ^ c.offBits) = hdr := by
  have := Nat.div_add_mod hdr (2 ^ c.offBits)
  cases we <;> simp_all [busHeader]

/-- A read request selects its row by its offset. -/
theorem decode_busRead {c : Config} {off : Nat} (h : off < 2 ^ c.offBits) (v : Word) :
    decode c (.bus (busHeader c false off) v) = ((selectRead c off).map readInstr).elim (.error .noBusRow) .ok := by
  simp only [decode, decodeBus, header_off _ h, header_we _ h]; rfl

/-- A write request selects its row by its offset. -/
theorem decode_busWrite {c : Config} {off : Nat} (h : off < 2 ^ c.offBits) (v : Word) :
    decode c (.bus (busHeader c true off) v) = ((selectWrite c off).map (writeInstr v)).elim (.error .noBusRow) .ok := by
  simp only [decode, decodeBus, header_off _ h, header_we _ h]; rfl

end Sys2Proof.Machine
end

