-- ==== Sys2Proof/Laws/Memory.lean ====
section
/-! SUPPORT. The laws of sparse storage, host memory and the device's words: read after write, and the canonical form
of host memory kept by every operation. -/

namespace Sys2Proof.Machine

section
variable {α : Type}

theorem Sparse.get_set (l : List (Nat × α)) (k j : Nat) (v : α) :
    Sparse.get (Sparse.set l k v) j = if j = k then some v else Sparse.get l j := by
  induction l with
  | nil => simp [Sparse.set, Sparse.get]
  | cons c t ih =>
    obtain ⟨a, w⟩ := c
    simp only [Sparse.set]
    split
    · rfl
    · split
      · next h => subst h; simp only [Sparse.get]; split <;> simp_all
      · simp only [Sparse.get, ih]
        split <;> simp_all; omega

theorem Sparse.get_erase (l : List (Nat × α)) (k j : Nat) :
    Sparse.get (Sparse.erase l k) j = if j = k then none else Sparse.get l j := by
  induction l with
  | nil => simp [Sparse.erase, Sparse.get]
  | cons c t ih =>
    obtain ⟨a, w⟩ := c
    simp only [Sparse.erase]
    split
    · next h => subst h; rw [ih]; split <;> simp_all [Sparse.get]
    · simp only [Sparse.get, ih]
      split <;> simp_all; omega

theorem Sparse.mem_set {l : List (Nat × α)} {k : Nat} {v : α} {c : Nat × α} (h : c ∈ Sparse.set l k v) :
    c = (k, v) ∨ c ∈ l := by
  induction l with
  | nil => simpa [Sparse.set] using h
  | cons d t ih =>
    obtain ⟨a, w⟩ := d
    simp only [Sparse.set] at h
    split at h
    · simpa using h
    · split at h <;> simp only [List.mem_cons] at h ⊢ <;> rcases h with h | h
      · exact .inl h
      · exact .inr (.inr h)
      · exact .inr (.inl h)
      · exact (ih h).imp id .inr

theorem Sparse.mem_erase {l : List (Nat × α)} {k : Nat} {c : Nat × α} (h : c ∈ Sparse.erase l k) : c ∈ l := by
  induction l with
  | nil => simp [Sparse.erase] at h
  | cons d t ih =>
    obtain ⟨a, w⟩ := d
    simp only [Sparse.erase] at h
    split at h
    · exact .tail _ (ih h)
    · rcases List.mem_cons.mp h with h | h
      · exact h ▸ .head _
      · exact .tail _ (ih h)

theorem Sparse.sorted_cons {a : Nat} {w : α} {t : List (Nat × α)} :
    Sparse.sorted ((a, w) :: t) = true ↔ (∀ c ∈ t, a < c.1) ∧ Sparse.sorted t = true := by
  simp [Sparse.sorted, List.all_eq_true]

theorem Sparse.sorted_set {l : List (Nat × α)} (k : Nat) (v : α) (h : Sparse.sorted l = true) :
    Sparse.sorted (Sparse.set l k v) = true := by
  induction l with
  | nil => rfl
  | cons d t ih =>
    obtain ⟨a, w⟩ := d
    have hs := Sparse.sorted_cons.mp h
    simp only [Sparse.set]
    split
    · next hk =>
      refine Sparse.sorted_cons.mpr ⟨fun c hc => ?_, h⟩
      rcases List.mem_cons.mp hc with rfl | hc
      · exact hk
      · exact hk.trans (hs.1 c hc)
    · split
      · next hka => subst hka; exact Sparse.sorted_cons.mpr hs
      · refine Sparse.sorted_cons.mpr ⟨fun c hc => ?_, ih hs.2⟩
        rcases Sparse.mem_set hc with rfl | hc
        · show a < k; omega
        · exact hs.1 c hc

theorem Sparse.sorted_erase {l : List (Nat × α)} (k : Nat) (h : Sparse.sorted l = true) :
    Sparse.sorted (Sparse.erase l k) = true := by
  induction l with
  | nil => rfl
  | cons d t ih =>
    obtain ⟨a, w⟩ := d
    have hs := Sparse.sorted_cons.mp h
    simp only [Sparse.erase]
    split
    · exact ih hs.2
    · exact Sparse.sorted_cons.mpr ⟨fun c hc => hs.1 c (Sparse.mem_erase hc), ih hs.2⟩

end

/-! ## Host memory -/

theorem Memory.read_write (m : Memory) (a j : Nat) (b : Byte) :
    Memory.read (Memory.write m a b) j = if j = a then b else Memory.read m j := by
  unfold Memory.read Memory.write
  split
  · next h => rw [Sparse.get_erase]; split <;> simp_all
  · rw [Sparse.get_set]; split <;> simp_all

theorem Memory.wf_iff {m : Memory} :
    Memory.wf m = true ↔ Sparse.sorted m = true ∧ ∀ c ∈ m, c.2 ≠ Memory.blank := by
  simp [Memory.wf, List.all_eq_true]

theorem Memory.write_wf {m : Memory} (a : Nat) (b : Byte) (h : Memory.wf m = true) :
    Memory.wf (Memory.write m a b) = true := by
  rw [Memory.wf_iff] at h ⊢
  unfold Memory.write
  split
  · exact ⟨Sparse.sorted_erase a h.1, fun c hc => h.2 c (Sparse.mem_erase hc)⟩
  · next hb =>
    refine ⟨Sparse.sorted_set a b h.1, fun c hc => ?_⟩
    rcases Sparse.mem_set hc with rfl | hc
    · exact hb
    · exact h.2 c hc

theorem Memory.writeBytes_wf (bs : List Byte) {m : Memory} (a : Nat) (h : Memory.wf m = true) :
    Memory.wf (Memory.writeBytes m a bs) = true := by
  induction bs generalizing m a with
  | nil => exact h
  | cons b bs ih => exact ih (a + 1) (Memory.write_wf a b h)

/-- What every byte reads as after a write of several. -/
theorem Memory.read_writeBytes (bs : List Byte) (m : Memory) (a j : Nat) :
    Memory.read (Memory.writeBytes m a bs) j = if a ≤ j then bs.getD (j - a) (Memory.read m j) else Memory.read m j := by
  induction bs generalizing m a with
  | nil => simp [Memory.writeBytes]
  | cons b bs ih =>
    rw [Memory.writeBytes, ih, Memory.read_write]
    by_cases h1 : a + 1 ≤ j
    · have h2 : j - a = (j - (a + 1)) + 1 := by omega
      rw [if_pos h1, if_neg (show j ≠ a by omega), if_pos (show a ≤ j by omega), h2, List.getD_cons_succ]
    · rw [if_neg h1]
      by_cases h3 : j = a
      · subst h3; simp
      · rw [if_neg h3, if_neg (show ¬ a ≤ j by omega)]

/-- A byte outside the written range reads as before. -/
theorem Memory.read_writeBytes_outside {bs : List Byte} {m : Memory} {a j : Nat} (h : j < a ∨ a + bs.length ≤ j) :
    Memory.read (Memory.writeBytes m a bs) j = Memory.read m j := by
  rw [Memory.read_writeBytes]
  split
  · rw [List.getD_eq_getElem?_getD, List.getElem?_eq_none (by omega)]; rfl
  · rfl

theorem length_bytesOf (w : Word) (n : Nat) : (bytesOf w n).length = n := by simp [bytesOf]

theorem getD_bytesOf (w : Word) {n i : Nat} (h : i < n) (d : Byte) : (bytesOf w n).getD i d = byteOf w i := by
  simp [bytesOf, h]

/-- The byte at `a + i` after the 8 bytes of `w` are written at `a`. -/
theorem Memory.read_writeWord (m : Memory) (a j : Nat) (w : Word) :
    Memory.read (Memory.writeBytes m a (bytesOf w 8)) j
      = if a ≤ j ∧ j < a + 8 then byteOf w (j - a) else Memory.read m j := by
  by_cases h : a ≤ j ∧ j < a + 8
  · rw [if_pos h, Memory.read_writeBytes, if_pos h.1, getD_bytesOf w (by omega)]
  · rw [if_neg h, Memory.read_writeBytes_outside (by rw [length_bytesOf]; omega)]

/-! ## Device words -/

theorem word_store (d : Device) (off j : Nat) (v : Word) :
    (d.store off v).word j = if j = off then v else d.word j := by
  unfold Device.word Device.store
  rw [Sparse.get_set]
  split <;> rfl

@[simp] theorem word_store_same (d : Device) (off : Nat) (v : Word) : (d.store off v).word off = v := by
  simp [word_store]

theorem word_store_ne (d : Device) {off j : Nat} (v : Word) (h : j ≠ off) : (d.store off v).word j = d.word j := by
  simp [word_store, h]

end Sys2Proof.Machine
end

