-- ==== Sys2Proof/Laws/State.lean ====
section
/-! SUPPORT. One lemma per field per update of the state, so that no proof unfolds a record update. -/

namespace Sys2Proof.Machine

variable (s : State)

/-! ## updEng, updDev, emit, withAgenda -/

@[simp] theorem updEng_cfg (f) : (s.updEng f).cfg = s.cfg := rfl
@[simp] theorem updEng_eng (f) : (s.updEng f).eng = f s.eng := rfl
@[simp] theorem updEng_dev (f) : (s.updEng f).dev = s.dev := rfl
@[simp] theorem updEng_mem (f) : (s.updEng f).mem = s.mem := rfl
@[simp] theorem updEng_env (f) : (s.updEng f).env = s.env := rfl
@[simp] theorem updEng_trace (f) : (s.updEng f).trace = s.trace := rfl

@[simp] theorem updDev_cfg (f) : (s.updDev f).cfg = s.cfg := rfl
@[simp] theorem updDev_eng (f) : (s.updDev f).eng = s.eng := rfl
@[simp] theorem updDev_dev (f) : (s.updDev f).dev = f s.dev := rfl
@[simp] theorem updDev_mem (f) : (s.updDev f).mem = s.mem := rfl
@[simp] theorem updDev_env (f) : (s.updDev f).env = s.env := rfl
@[simp] theorem updDev_trace (f) : (s.updDev f).trace = s.trace := rfl

@[simp] theorem emit_cfg (e) : (s.emit e).cfg = s.cfg := rfl
@[simp] theorem emit_eng (e) : (s.emit e).eng = s.eng := rfl
@[simp] theorem emit_dev (e) : (s.emit e).dev = s.dev := rfl
@[simp] theorem emit_mem (e) : (s.emit e).mem = s.mem := rfl
@[simp] theorem emit_env (e) : (s.emit e).env = s.env := rfl
@[simp] theorem emit_trace (e) : (s.emit e).trace = e :: s.trace := rfl

@[simp] theorem withAgenda_cfg (l) : (s.withAgenda l).cfg = s.cfg := rfl
@[simp] theorem withAgenda_eng (l) : (s.withAgenda l).eng = s.eng := rfl
@[simp] theorem withAgenda_dev (l) : (s.withAgenda l).dev = s.dev := rfl
@[simp] theorem withAgenda_mem (l) : (s.withAgenda l).mem = s.mem := rfl
@[simp] theorem withAgenda_trace (l) : (s.withAgenda l).trace = s.trace := rfl
@[simp] theorem withAgenda_agenda (l) : (s.withAgenda l).env.agenda = l := rfl
@[simp] theorem withAgenda_busFail (l) : (s.withAgenda l).env.busFail = s.env.busFail := rfl
@[simp] theorem withAgenda_memFail (l) : (s.withAgenda l).env.memFail = s.env.memFail := rfl
@[simp] theorem withAgenda_setupOk (l) : (s.withAgenda l).env.setupOk = s.env.setupOk := rfl

/-! ## draws and failures -/

@[simp] theorem popDraw_cfg : s.popDraw.cfg = s.cfg := rfl
@[simp] theorem popDraw_eng : s.popDraw.eng = s.eng := rfl
@[simp] theorem popDraw_dev : s.popDraw.dev = s.dev := rfl
@[simp] theorem popDraw_mem : s.popDraw.mem = s.mem := rfl
@[simp] theorem popDraw_trace : s.popDraw.trace = s.trace := rfl
@[simp] theorem popDraw_agenda : s.popDraw.env.agenda = s.env.agenda := rfl
@[simp] theorem popDraw_busFail : s.popDraw.env.busFail = s.env.busFail := rfl
@[simp] theorem popDraw_memFail : s.popDraw.env.memFail = s.env.memFail := rfl

@[simp] theorem popAlloc_cfg : s.popAlloc.cfg = s.cfg := rfl
@[simp] theorem popAlloc_eng : s.popAlloc.eng = s.eng := rfl
@[simp] theorem popAlloc_dev : s.popAlloc.dev = s.dev := rfl
@[simp] theorem popAlloc_mem : s.popAlloc.mem = s.mem := rfl
@[simp] theorem popAlloc_trace : s.popAlloc.trace = s.trace := rfl
@[simp] theorem popAlloc_agenda : s.popAlloc.env.agenda = s.env.agenda := rfl

@[simp] theorem tickBus_cfg : s.tickBus.cfg = s.cfg := rfl
@[simp] theorem tickBus_eng : s.tickBus.eng = s.eng := rfl
@[simp] theorem tickBus_dev : s.tickBus.dev = s.dev := rfl
@[simp] theorem tickBus_mem : s.tickBus.mem = s.mem := rfl
@[simp] theorem tickBus_trace : s.tickBus.trace = s.trace := rfl
@[simp] theorem tickBus_agenda : s.tickBus.env.agenda = s.env.agenda := rfl
@[simp] theorem tickBus_memFail : s.tickBus.env.memFail = s.env.memFail := rfl

@[simp] theorem tickMem_cfg : s.tickMem.cfg = s.cfg := rfl
@[simp] theorem tickMem_eng : s.tickMem.eng = s.eng := rfl
@[simp] theorem tickMem_dev : s.tickMem.dev = s.dev := rfl
@[simp] theorem tickMem_mem : s.tickMem.mem = s.mem := rfl
@[simp] theorem tickMem_trace : s.tickMem.trace = s.trace := rfl
@[simp] theorem tickMem_agenda : s.tickMem.env.agenda = s.env.agenda := rfl
@[simp] theorem tickMem_busFail : s.tickMem.env.busFail = s.env.busFail := rfl

/-! ## completed and failed device accesses -/

@[simp] theorem afterRead_cfg (off r) : (s.afterRead off r).cfg = s.cfg := by
  unfold State.afterRead; split <;> rfl
@[simp] theorem afterRead_eng (off r) : (s.afterRead off r).eng = s.eng := by
  unfold State.afterRead; split <;> rfl
@[simp] theorem afterRead_dev (off r) : (s.afterRead off r).dev = s.dev := by
  unfold State.afterRead; split <;> rfl
@[simp] theorem afterRead_mem (off r) : (s.afterRead off r).mem = s.mem := by
  unfold State.afterRead; split <;> rfl
@[simp] theorem afterRead_trace (off r) : (s.afterRead off r).trace = .rd off (s.answer r) :: s.trace := by
  unfold State.afterRead; split <;> rfl
@[simp] theorem afterRead_agenda (off r) : (s.afterRead off r).env.agenda = s.env.agenda := by
  unfold State.afterRead; split <;> rfl
@[simp] theorem afterRead_memFail (off r) : (s.afterRead off r).env.memFail = s.env.memFail := by
  unfold State.afterRead; split <;> rfl

@[simp] theorem afterWrite_cfg (off v r) : (s.afterWrite off v r).cfg = s.cfg := rfl
@[simp] theorem afterWrite_eng (off v r) : (s.afterWrite off v r).eng = s.eng := rfl
@[simp] theorem afterWrite_dev (off v r) : (s.afterWrite off v r).dev = applyWrite s.cfg s.dev v r := rfl
@[simp] theorem afterWrite_mem (off v r) : (s.afterWrite off v r).mem = s.mem := rfl
@[simp] theorem afterWrite_trace (off v r) : (s.afterWrite off v r).trace = .wr off v :: s.trace := rfl
@[simp] theorem afterWrite_agenda (off v r) : (s.afterWrite off v r).env.agenda = s.env.agenda := rfl
@[simp] theorem afterWrite_memFail (off v r) : (s.afterWrite off v r).env.memFail = s.env.memFail := rfl

@[simp] theorem afterFailed_cfg (off) : (s.afterFailed off).cfg = s.cfg := rfl
@[simp] theorem afterFailed_eng (off) : (s.afterFailed off).eng = s.eng := rfl
@[simp] theorem afterFailed_dev (off) : (s.afterFailed off).dev = s.dev := rfl
@[simp] theorem afterFailed_mem (off) : (s.afterFailed off).mem = s.mem := rfl
@[simp] theorem afterFailed_trace (off) : (s.afterFailed off).trace = .failed off :: s.trace := rfl

/-! ## recording a fault, resetting -/

@[simp] theorem recordFault_cfg (c i) : (s.recordFault c i).cfg = s.cfg := rfl
@[simp] theorem recordFault_eng (c i) :
    (s.recordFault c i).eng = { s.eng with fault := s.eng.fault.or (some ⟨c, i⟩) } := rfl
@[simp] theorem recordFault_dev (c i) : (s.recordFault c i).dev = s.dev := rfl
@[simp] theorem recordFault_mem (c i) : (s.recordFault c i).mem = s.mem := rfl
@[simp] theorem recordFault_env (c i) : (s.recordFault c i).env = s.env := rfl
@[simp] theorem recordFault_trace (c i) : (s.recordFault c i).trace = s.trace := rfl

@[simp] theorem resetMachine_cfg : s.resetMachine.cfg = s.cfg := rfl
@[simp] theorem resetMachine_eng : s.resetMachine.eng = Engine.reset s.cfg := rfl
@[simp] theorem resetMachine_dev : s.resetMachine.dev = Device.reset s.cfg s.env.drawn := rfl
@[simp] theorem resetMachine_mem : s.resetMachine.mem = s.mem := rfl
@[simp] theorem resetMachine_trace : s.resetMachine.trace = s.trace := rfl

/-! ## device words -/

@[simp] theorem store_cons (d : Device) (off v) : (d.store off v).cons = d.cons := rfl
@[simp] theorem store_full (d : Device) (off v) : (d.store off v).full = d.full := rfl
@[simp] theorem store_bad (d : Device) (off v) : (d.store off v).bad = d.bad := rfl
@[simp] theorem store_wire (d : Device) (off v) : (d.store off v).wire = d.wire := rfl
@[simp] theorem store_seed (d : Device) (off v) : (d.store off v).seed = d.seed := rfl

/-- `State.reset` is what EV_RESET leaves, but for the number of its draw. -/
theorem resetMachine_reset : State.reset.resetMachine.eng = State.reset.eng := rfl

end Sys2Proof.Machine
end

