-- ==== Sys2Proof/Laws/Op.lean ====
section
/-! SUPPORT. How an operation runs (sequencing, fault, state read), and the two ways to say what one can do: `Sat` (what
holds of its result and final state, and of the state where it raised a fault) and `Within` (a reflexive and transitive
relation between the states before and after, whichever way it ended). -/

namespace Sys2Proof.Machine

/-! ## Running -/

@[simp] theorem run_bind {α β : Type} (x : Op α) (f : α → Op β) (s : State) :
    (x >>= f) s = match x s with
      | .ok a t => f a t
      | .error e t => .error e t := by
  show EStateM.bind x f s = _
  unfold EStateM.bind
  cases x s <;> rfl

@[simp] theorem run_pure {α : Type} (a : α) (s : State) : (pure a : Op α) s = .ok a s := rfl

@[simp] theorem run_get (s : State) : (get : Op State) s = .ok s s := rfl

@[simp] theorem run_ite {α : Type} (c : Prop) [Decidable c] (x y : Op α) (s : State) :
    (if c then x else y) s = if c then x s else y s := by split <;> rfl

@[simp] theorem run_raise {α : Type} (c : FaultCode) (i : Word) (s : State) :
    (raise c i : Op α) s = .error () (s.recordFault c i) := rfl

@[simp] theorem run_updEng (f : Engine → Engine) (s : State) : updEng f s = .ok () (s.updEng f) := rfl

@[simp] theorem run_emit (e : PortEvent) (s : State) : emit e s = .ok () (s.emit e) := rfl

@[simp] theorem run_respond (st : Status) (v : Word) (s : State) :
    respond st v s = .ok () (s.updEng fun e => { e with resp := ⟨st, v⟩ }) := rfl

@[simp] theorem run_goto (w : Wpc) (s : State) : goto w s = .ok () (s.updEng fun e => { e with wpc := w }) := rfl

@[simp] theorem run_signal (s : State) : signal s = .ok () (s.updEng Engine.signal) := rfl

@[simp] theorem run_draw (s : State) : draw s = .ok s.nextDraw s.popDraw := rfl

@[simp] theorem run_drawByte (s : State) : drawByte s = .ok (byteOf s.nextDraw 0) s.popDraw := by simp [drawByte]

@[simp] theorem run_alloc (n : Nat) (s : State) :
    alloc n s = .ok (s.nextAlloc n) (s.popAlloc.emit (.alloc n (s.nextAlloc n))) := rfl

/-- A buffer that `Alloc(n)` returns has its `n` bytes in host memory and shares none with a held one (R86, R89). -/
theorem nextAlloc_lawful {s : State} {n : Nat} {b : Word} (h : s.nextAlloc n = some b) :
    b.toNat + n ≤ 2 ^ s.cfg.hostAddrBits ∧ s.unaliased n b = true := by
  simp only [State.nextAlloc, Option.filter_eq_some_iff, Bool.and_eq_true, State.inHost, decide_eq_true_eq] at h
  exact h.2

@[simp] theorem run_releaseFrame (h : Word) (n : Nat) (s : State) :
    releaseFrame h n s = .ok () (s.emit (.releaseFrame h n)) := rfl

@[simp] theorem run_releaseBuf (b : Word) (s : State) : releaseBuf b s = .ok () (s.emit (.releaseBuf b)) := rfl

@[simp] theorem run_deliver (b : Word) (off n id : Nat) (s : State) :
    deliver b off n id s = .ok () (s.emit (.deliver b off n id)) := rfl

theorem run_readReg {α : Type} (idx : Nat) (reg : Option α) (s : State) :
    readReg idx reg s = match reg with
      | some a => .ok a s
      | none => .error () (s.recordFault .unwritten (BitVec.ofNat 64 idx)) := by
  cases reg <;> rfl

theorem readSt_some {s : State} {w : Word} (h : s.eng.st = some w) : readSt s = .ok w s := by
  simp [readSt, run_readReg, h]

theorem readSlot_some {s : State} {i : Nat} (h : s.eng.slot = some i) : readSlot s = .ok i s := by
  simp [readSlot, run_readReg, h]

theorem readErrs_some {s : State} {w : Word} (h : s.eng.errs = some w) : readErrs s = .ok w s := by
  simp [readErrs, run_readReg, h]

theorem readLen_some {s : State} {l : FrameLen} (h : s.eng.len = some l) : readLen s = .ok l s := by
  simp [readLen, run_readReg, h]

theorem readLenBytes_some {s : State} {n : Nat} (h : s.eng.len = some (.bytes n)) : readLenBytes s = .ok n s := by
  simp [readLenBytes, readLen_some h]

theorem readBuf_some {s : State} {b : Word} (h : s.eng.buf = some (some b)) : readBuf s = .ok b s := by
  simp [readBuf, run_readReg, h]

/-- The state an operation ends in, by result or by fault. -/
def endState {α : Type} : EStateM.Result Unit State α → State
  | .ok _ t => t
  | .error _ t => t

@[simp] theorem endState_ok {α : Type} (a : α) (t : State) :
    endState (EStateM.Result.ok a t : EStateM.Result Unit State α) = t := rfl
@[simp] theorem endState_error {α : Type} (t : State) :
    endState (EStateM.Result.error () t : EStateM.Result Unit State α) = t := rfl

theorem stateAfter_eq (x : Op Unit) (s : State) : stateAfter x s = endState (x s) := by
  unfold stateAfter; cases x s <;> rfl

theorem stateAfter_ok {x : Op Unit} {s t : State} {a : Unit} (h : x s = .ok a t) : stateAfter x s = t := by
  simp [stateAfter, h]

theorem stateAfter_error {x : Op Unit} {s t : State} {e : Unit} (h : x s = .error e t) : stateAfter x s = t := by
  simp [stateAfter, h]

/-! ## Gates -/

theorem gate_on {b : Bool} (h : b = true) (x : Op Unit) (s : State) : gate b x s = .next (stateAfter x s) := by
  simp [gate, h]

theorem gate_off {b : Bool} (h : b = false) (x : Op Unit) (s : State) : gate b x s = .next s := by
  simp [gate, h]

/-! ## Sat: what holds where an operation ends -/

/-- `Q` holds of result and state if the operation ends, `E` of the state if it raises a fault. -/
def Sat {α : Type} (x : Op α) (s : State) (Q : α → State → Prop) (E : State → Prop) : Prop :=
  match x s with
  | .ok a t => Q a t
  | .error _ t => E t

theorem Sat.bind {α β : Type} {x : Op α} {f : α → Op β} {s : State} {Q : α → State → Prop} {R : β → State → Prop}
    {E : State → Prop} (hx : Sat x s Q E) (hf : ∀ a t, Q a t → Sat (f a) t R E) : Sat (x >>= f) s R E := by
  unfold Sat at hx ⊢
  rw [run_bind]
  cases h : x s with
  | ok a t => rw [h] at hx; exact hf a t hx
  | error e t => rw [h] at hx; exact hx

theorem Sat.mono {α : Type} {x : Op α} {s : State} {Q Q' : α → State → Prop} {E E' : State → Prop}
    (hx : Sat x s Q E) (hQ : ∀ a t, Q a t → Q' a t) (hE : ∀ t, E t → E' t) : Sat x s Q' E' := by
  unfold Sat at hx ⊢
  cases h : x s with
  | ok a t => rw [h] at hx; exact hQ a t hx
  | error e t => rw [h] at hx; exact hE t hx

theorem Sat.stateAfter {x : Op Unit} {s : State} {P : State → Prop} (hx : Sat x s (fun _ t => P t) P) :
    P (stateAfter x s) := by
  unfold Sat at hx
  rw [stateAfter_eq]
  cases h : x s with
  | ok a t => rw [h] at hx; exact hx
  | error e t => rw [h] at hx; exact hx

/-! ## Within: a relation between before and after -/

/-- A relation an operation may be shown to stay within. -/
structure Closed (R : State → State → Prop) : Prop where
  refl : ∀ s, R s s
  trans : ∀ {s t u}, R s t → R t u → R s u

/-- Whichever way `x` ends, the states before and after are related. -/
def Within {α : Type} (R : State → State → Prop) (x : Op α) : Prop := ∀ s, R s (endState (x s))

section
variable {R : State → State → Prop} (hR : Closed R)
include hR

theorem Within.pure {α : Type} (a : α) : Within R (pure a : Op α) := fun s => hR.refl s

theorem Within.get : Within R (get : Op State) := fun s => hR.refl s

theorem Within.bind {α β : Type} {x : Op α} {f : α → Op β} (hx : Within R x) (hf : ∀ a, Within R (f a)) :
    Within R (x >>= f) := by
  intro s
  rw [run_bind]
  have h1 := hx s
  cases h : x s with
  | ok a t => rw [h] at h1; exact hR.trans h1 (hf a t)
  | error e t => rw [h] at h1; exact h1

omit hR in
theorem Within.ite {α : Type} {c : Prop} [Decidable c] {x y : Op α} (hx : Within R x) (hy : Within R y) :
    Within R (if c then x else y) := by split <;> assumption

omit hR in
theorem Within.iteOf {α : Type} {c : Prop} [Decidable c] {x y : Op α} (hx : c → Within R x) (hy : ¬ c → Within R y) :
    Within R (if c then x else y) := by split <;> [exact hx ‹_›; exact hy ‹_›]

theorem Within.gate {b : Bool} {x : Op Unit} {s t : State} (hx : Within R x) (h : gate b x s = .next t) : R s t := by
  cases b
  · rw [gate_off rfl] at h; cases h; exact hR.refl s
  · rw [gate_on rfl] at h; cases h; rw [stateAfter_eq]; exact hx s

end

end Sys2Proof.Machine
end

