-- ==== Sys2Proof/Laws/Ops.lean ====
section
/-! SUPPORT. One specification per shared operation: what it answers when the platform reports no failure, and the
relation it stays within whichever way it ends. -/

namespace Sys2Proof.Machine

/-! ## No failure reported -/

section
variable {s : State} (hq : s.env.busFail = none)
include hq

theorem busDue_of_none : s.busDue = false := by simp [State.busDue, hq]

theorem tickBus_of_none : s.tickBus = s := by
  obtain ⟨cfg, eng, dev, mem, ⟨a, b, c, d, f, m, o⟩, tr⟩ := s
  simp only at hq; subst hq; rfl

theorem afterRead_busFail (off : Nat) (r : ReadReg) : (s.afterRead off r).env.busFail = none := by
  unfold State.afterRead; split <;> simp [State.tickBus, State.popDraw, hq]

theorem afterWrite_busFail (off : Nat) (v : Word) (r : WriteReg) : (s.afterWrite off v r).env.busFail = none := by
  simp [State.afterWrite, State.tickBus, hq]

/-- A read of row `r`. -/
theorem devRead_ok {off : Nat} {r : ReadReg} (h : selectRead s.cfg off = some r) :
    devRead off s = .ok (s.answer r) (s.afterRead off r) := by
  simp [devRead, h, busDue_of_none hq]

/-- A write of row `r`. -/
theorem devWrite_ok {off : Nat} {v : Word} {r : WriteReg} (h : selectWrite s.cfg off = some r) :
    devWrite off v s = .ok () (s.afterWrite off v r) := by
  simp [devWrite, h, busDue_of_none hq]

/-- `CtlRMW`: both accesses. -/
theorem ctlRMW_ok (hc : ConfigFacts s.cfg) (clear set : Word) :
    ctlRMW clear set s = .ok () ((s.afterRead s.cfg.offMachi .machi).afterWrite s.cfg.offMachi
      ((s.answer .machi &&& ~~~clear) ||| set) .machi) := by
  have hw : selectWrite (s.afterRead s.cfg.offMachi .machi).cfg s.cfg.offMachi = some .machi := by
    rw [afterRead_cfg]; exact selectWrite_machi hc
  simp only [ctlRMW, run_bind, run_get, devRead_ok hq (selectRead_machi hc)]
  exact devWrite_ok (afterRead_busFail hq _ _) hw

end

/-- A failing read: nothing is read, F_BUS is recorded with the offset. -/
theorem devRead_fails {s : State} {off : Nat} {r : ReadReg} (h : selectRead s.cfg off = some r) (hd : s.busDue = true) :
    devRead off s = .error () ((s.afterFailed off).recordFault .bus (BitVec.ofNat 64 off)) := by
  simp [devRead, h, hd]

/-- A failing write. -/
theorem devWrite_fails {s : State} {off : Nat} {v : Word} {r : WriteReg} (h : selectWrite s.cfg off = some r)
    (hd : s.busDue = true) :
    devWrite off v s = .error () (((if s.busLands then s.updDev (fun d => applyWrite s.cfg d v r) else s).afterFailed
      off).recordFault .bus (BitVec.ofNat 64 off)) := by
  simp [devWrite, h, hd]

/-- `CtlRMW` whose read fails. -/
theorem ctlRMW_fails {s : State} (hc : ConfigFacts s.cfg) (hd : s.busDue = true) (clear set : Word) :
    ctlRMW clear set s
      = .error () ((s.afterFailed s.cfg.offMachi).recordFault .bus (BitVec.ofNat 64 s.cfg.offMachi)) := by
  simp only [ctlRMW, run_bind, run_get, devRead_fails (selectRead_machi hc) hd]

/-- A failing host read changes nothing but the platform's report. -/
theorem memRead_fails {s : State} (hd : s.memDue = true) (a : Nat) :
    memRead a s = .error () (s.recordFault .hostMem (BitVec.ofNat 64 a)) ∨
    memRead a s = .error () (s.tickMem.recordFault .hostMem (BitVec.ofNat 64 a)) := by
  unfold memRead
  cases s.inHost a 1
  · exact .inl rfl
  · right; simp [hd]

/-- A failing host write changes at most its own 8 bytes. -/
theorem memWrite8_fails {s : State} (hd : s.memDue = true) (a : Nat) (w : Word) :
    memWrite8 a w s = .error () (s.recordFault .hostMem (BitVec.ofNat 64 a)) ∨
    memWrite8 a w s = .error ()
      ({ s.tickMem with mem := s.mem.writeBytes a (s.landedBytes a w) }.recordFault .hostMem (BitVec.ofNat 64 a)) := by
  unfold memWrite8
  cases s.inHost a 8
  · exact .inl rfl
  · right; simp [hd]

theorem length_landedBytes (s : State) (a : Nat) (w : Word) : (s.landedBytes a w).length = 8 := by
  simp [State.landedBytes]

theorem memRead_ok {s : State} {a : Nat} (hq : s.env.memFail = none) (ha : a + 1 ≤ 2 ^ s.cfg.hostAddrBits) :
    memRead a s = .ok (s.mem.read a) s := by
  have h1 : s.inHost a 1 = true := by simp [State.inHost, ha]
  have h2 : s.memDue = false := by simp [State.memDue, hq]
  have h3 : s.tickMem = s := by
    obtain ⟨cfg, eng, dev, mem, ⟨a, b, c, d, f, m, o⟩, tr⟩ := s
    simp only at hq; subst hq; rfl
  simp [memRead, h1, h2, h3]

theorem memWrite8_ok {s : State} {a : Nat} {w : Word} (hq : s.env.memFail = none)
    (ha : a + 8 ≤ 2 ^ s.cfg.hostAddrBits) :
    memWrite8 a w s = .ok () { s with mem := s.mem.writeBytes a (bytesOf w 8) } := by
  have h1 : s.inHost a 8 = true := by simp [State.inHost, ha]
  have h2 : s.memDue = false := by simp [State.memDue, hq]
  have h3 : s.tickMem = s := by
    obtain ⟨cfg, eng, dev, mem, ⟨a, b, c, d, f, m, o⟩, tr⟩ := s
    simp only at hq; subst hq; rfl
  simp [memWrite8, h1, h2, h3]

/-! ## Whichever way it ends

The answer under `REF_DEVICE`, and what an access adds to the trace. -/

theorem answer_ref {s : State} (h : s.cfg.refDevice = true) (r : ReadReg) : s.answer r = refRead s.cfg s.dev r := by
  simp [State.answer, h]

theorem answer_draw {s : State} (h : s.cfg.refDevice = false) (r : ReadReg) : s.answer r = s.nextDraw := by
  simp [State.answer, h]

/-- `devRead` stays within a relation that holds across a completed read, a failed access and a recorded fault. -/
theorem devRead_within {R : State → State → Prop} (off : Nat)
    (hread : ∀ s r, selectRead s.cfg off = some r → R s (s.afterRead off r))
    (hfail : ∀ s r, selectRead s.cfg off = some r →
      R s ((s.afterFailed off).recordFault .bus (BitVec.ofNat 64 off)))
    (haddr : ∀ s, selectRead s.cfg off = none → R s (s.recordFault .addr (BitVec.ofNat 64 off))) :
    Within R (devRead off) := by
  intro s
  unfold devRead
  split
  · next h => exact haddr s h
  · next r h =>
    split
    · exact hfail s r h
    · exact hread s r h

/-- `devWrite` likewise; a failed write may have reached the device. -/
theorem devWrite_within {R : State → State → Prop} (off : Nat) (v : Word)
    (hwrite : ∀ s r, selectWrite s.cfg off = some r → R s (s.afterWrite off v r))
    (hfail : ∀ (s : State) (r : WriteReg) (d : Device), selectWrite s.cfg off = some r →
      (d = s.dev ∨ d = applyWrite s.cfg s.dev v r) →
      R s (((s.updDev fun _ => d).afterFailed off).recordFault .bus (BitVec.ofNat 64 off)))
    (haddr : ∀ s, selectWrite s.cfg off = none → R s (s.recordFault .addr (BitVec.ofNat 64 off))) :
    Within R (devWrite off v) := by
  intro s
  unfold devWrite
  split
  · next h => exact haddr s h
  · next r h =>
    split
    · split
      · exact hfail s r _ h (.inr rfl)
      · exact hfail s r s.dev h (.inl rfl)
    · exact hwrite s r h

/-- `memWrite8` within a relation that holds across any write of 8 bytes there and a recorded fault. -/
theorem memWrite8_within {R : State → State → Prop} (a : Nat) (w : Word)
    (hwrite : ∀ (s : State) bs, bs.length = 8 → R s { s.tickMem with mem := s.mem.writeBytes a bs })
    (hraise : ∀ (s : State), R s (s.recordFault .hostMem (BitVec.ofNat 64 a)))
    (hfail : ∀ (s : State) bs, bs.length = 8 →
      R s ({ s.tickMem with mem := s.mem.writeBytes a bs }.recordFault .hostMem (BitVec.ofNat 64 a))) :
    Within R (memWrite8 a w) := by
  intro s
  unfold memWrite8
  split
  · exact hraise s
  · split
    · exact hfail s _ (length_landedBytes s a w)
    · exact hwrite s _ (length_bytesOf w 8)

/-- `memRead` within a relation that holds across the tick and a recorded fault. -/
theorem memRead_within {R : State → State → Prop} (a : Nat) (htick : ∀ s : State, R s s.tickMem)
    (hraise : ∀ s : State, R s (s.recordFault .hostMem (BitVec.ofNat 64 a)))
    (hfail : ∀ s : State, R s (s.tickMem.recordFault .hostMem (BitVec.ofNat 64 a))) : Within R (memRead a) := by
  intro s
  unfold memRead
  split
  · exact hraise s
  · split
    · exact hfail s
    · exact htick s

/-! ## The parts of the state an access can change, whichever way it ends -/

/-- A device read changes no configuration, device, host memory, and of the engine at most the fault field. -/
theorem devRead_end (off : Nat) (s : State) :
    (endState (devRead off s)).cfg = s.cfg ∧ (endState (devRead off s)).dev = s.dev ∧
    (endState (devRead off s)).mem = s.mem ∧
    (endState (devRead off s)).eng = { s.eng with fault := (endState (devRead off s)).eng.fault } := by
  unfold devRead
  split
  · exact ⟨rfl, rfl, rfl, rfl⟩
  · split
    · exact ⟨rfl, rfl, rfl, rfl⟩
    · exact ⟨by simp, by simp, by simp, by simp⟩

/-- A device write changes at most the device, and the fault field. -/
theorem devWrite_end (off : Nat) (v : Word) (s : State) :
    (endState (devWrite off v s)).cfg = s.cfg ∧ (endState (devWrite off v s)).mem = s.mem ∧
    (endState (devWrite off v s)).eng = { s.eng with fault := (endState (devWrite off v s)).eng.fault } ∧
    ((endState (devWrite off v s)).dev = s.dev ∨
      ∃ r, selectWrite s.cfg off = some r ∧ (endState (devWrite off v s)).dev = applyWrite s.cfg s.dev v r) := by
  unfold devWrite
  split
  · exact ⟨rfl, rfl, rfl, .inl rfl⟩
  · next r h =>
    split
    · split
      · exact ⟨rfl, rfl, rfl, .inr ⟨r, h, rfl⟩⟩
      · exact ⟨rfl, rfl, rfl, .inl rfl⟩
    · exact ⟨rfl, rfl, rfl, .inr ⟨r, h, rfl⟩⟩

/-- A host read changes at most the fault field. -/
theorem memRead_end (a : Nat) (s : State) :
    (endState (memRead a s)).cfg = s.cfg ∧ (endState (memRead a s)).dev = s.dev ∧
    (endState (memRead a s)).mem = s.mem ∧
    (endState (memRead a s)).eng = { s.eng with fault := (endState (memRead a s)).eng.fault } := by
  unfold memRead
  split
  · exact ⟨rfl, rfl, rfl, rfl⟩
  · split <;> exact ⟨rfl, rfl, rfl, rfl⟩

/-- A host write changes at most its own 8 bytes and the fault field. -/
theorem memWrite8_end (a : Nat) (w : Word) (s : State) :
    (endState (memWrite8 a w s)).cfg = s.cfg ∧ (endState (memWrite8 a w s)).dev = s.dev ∧
    (endState (memWrite8 a w s)).eng = { s.eng with fault := (endState (memWrite8 a w s)).eng.fault } ∧
    ((endState (memWrite8 a w s)).mem = s.mem ∨
      ∃ bs, bs.length = 8 ∧ (endState (memWrite8 a w s)).mem = s.mem.writeBytes a bs) := by
  unfold memWrite8
  split
  · exact ⟨rfl, rfl, rfl, .inl rfl⟩
  · split
    · exact ⟨rfl, rfl, rfl, .inr ⟨_, length_landedBytes s a w, rfl⟩⟩
    · exact ⟨rfl, rfl, rfl, .inr ⟨_, length_bytesOf w 8, rfl⟩⟩

/-- A completed read leaves the engine alone. -/
theorem devRead_eng {off : Nat} {s t : State} {w : Word} (h : devRead off s = .ok w t) : t.eng = s.eng := by
  unfold devRead at h
  split at h
  · cases h
  · split at h <;> cases h
    simp

/-- A completed write leaves the engine alone. -/
theorem devWrite_eng {off : Nat} {v : Word} {s t : State} {u : Unit} (h : devWrite off v s = .ok u t) :
    t.eng = s.eng := by
  unfold devWrite at h
  split at h
  · cases h
  · split at h <;> cases h
    simp

/-- A working register that answers held the answer, and reading it changed nothing. -/
theorem readReg_ok {α : Type} {idx : Nat} {reg : Option α} {s t : State} {a : α} (h : readReg idx reg s = .ok a t) :
    reg = some a ∧ t = s := by
  rw [run_readReg] at h
  cases reg <;> cases h
  exact ⟨rfl, rfl⟩

/-- Only a write to MACHI changes the word the device holds there. -/
theorem applyWrite_machi {c : Config} (hc : ConfigFacts c) (d : Device) {off : Nat} {v : Word} {r : WriteReg}
    (hs : selectWrite c off = some r) (hne : r ≠ .machi) :
    (applyWrite c d v r).word c.offMachi = d.word c.offMachi := by
  obtain ⟨-, h2⟩ := selectWrite_some (by have := hc.offs8; tauto) hs
  have p := hc.regionsApart
  cases r with
  | machi => exact absurd rfl hne
  | tplr =>
    simp only [applyWrite]
    split <;> exact word_store_ne _ _ p.hi_tplr.ne_reg.symm
  | rsr => rfl
  | txbuf k =>
    have h3 : 8 * k < c.txWindowBytes := h2
    exact word_store_ne _ _ (p.hi_tx.ne (Nat.le_add_right _ (8 * k)) (by omega)).symm

end Sys2Proof.Machine
end

