-- ==== Sys2Proof/Laws/Step.lean ====
section
/-! SUPPORT. What one step is: the offered item's, or with nothing offered the internal agent's. -/

namespace Sys2Proof.Machine

/-- The outcome of what a step boundary brings. -/
def Fetched.outcome : Fetched → Host.Outcome State Fault Refusal
  | .run i t => exec i t
  | .next t => .next t
  | .stop f => .fault f

@[simp] theorem outcome_run (i : Instr) (t : State) : (Fetched.run i t).outcome = exec i t := rfl
@[simp] theorem outcome_next (t : State) : (Fetched.next t).outcome = .next t := rfl
@[simp] theorem outcome_stop (f : Fault) : (Fetched.stop f).outcome = .fault f := rfl

theorem step_eq (s : State) : step s = (fetch s).outcome := by
  unfold step Fetched.outcome
  cases fetch s <;> rfl

/-- An item is offered. -/
theorem step_offer {s : State} {item : Item} {rest : List Item} (hc : ConfigOk s.cfg)
    (h : s.env.agenda = item :: rest) : step s = (takeItem (s.withAgenda rest) item).outcome := by
  have hc' : brokenConstraint s.cfg = none := hc
  simp only [step_eq, fetch, hc', h]

/-- Nothing is offered. -/
theorem step_internal {s : State} (hc : ConfigOk s.cfg) (h : s.env.agenda = []) :
    step s = (fetchInternal s).outcome := by
  have hc' : brokenConstraint s.cfg = none := hc
  simp only [step_eq, fetch, hc', h]

end Sys2Proof.Machine
end

