-- ==== Sys2Proof/Laws/Exec.lean ====
section
/-! SUPPORT. What a step can do, said once: `At` (a relation between the states before and after an operation, at one
state), and for a relation that the primitives keep, that every step of an engine agent keeps it. -/

namespace Sys2Proof.Machine

/-! ## An operation at one state -/

/-- The state before `x` and the state it ends in, by result or by fault, are related. -/
def At {α : Type} (R : State → State → Prop) (x : Op α) (s : State) : Prop := R s (endState (x s))

section
variable {R : State → State → Prop}

theorem Within.at {α : Type} {x : Op α} (h : Within R x) (s : State) : At R x s := h s

theorem At.bind {α β : Type} {x : Op α} {f : α → Op β} {s : State} (hR : Closed R) (hx : At R x s)
    (hf : ∀ a t, x s = .ok a t → R s t → At R (f a) t) : At R (x >>= f) s := by
  unfold At at hx ⊢
  rw [run_bind]
  cases h : x s with
  | ok a t => rw [h] at hx; exact hR.trans hx (hf a t h hx)
  | error e t => rw [h] at hx; exact hx

theorem At.get_bind {β : Type} {f : State → Op β} {s : State} (hf : At R (f s) s) : At R (get >>= f) s := hf

theorem At.pure {α : Type} (hR : Closed R) (a : α) (s : State) : At R (pure a : Op α) s := hR.refl s

theorem At.gate {b : Bool} {x : Op Unit} {s t : State} (hR : Closed R) (hx : b = true → At R x s)
    (h : gate b x s = .next t) : R s t := by
  cases hb : b
  · rw [gate_off hb] at h; cases h; exact hR.refl s
  · rw [gate_on hb] at h; cases h; rw [stateAfter_eq]; exact hx hb

/-- A step that is not enabled is not taken (R40, R41, R33): the state is kept. -/
theorem exec_of_not_enabled {i : Instr} {s : State} (h : s.enables i = false) : exec i s = .next s := by
  cases i with
  | evReset => cases h
  | evPollTick =>
    cases hu : s.up
    · exact gate_off hu _ _
    · have hm : s.cfg.mode ≠ .polling := by simpa [State.enables, hu] using h
      refine (gate_on hu _ _).trans ?_
      rw [stateAfter_ok (a := ()) (t := s) (by simp only [pollTick, run_bind, run_get, if_neg hm]; rfl)]
  | _ => exact gate_off h _ _

/-- Reading a working register changes nothing but for its own fault (R32). -/
theorem At.readReg {α : Type} (hR : Closed R) (hraise : ∀ i s, R s (s.recordFault .unwritten i)) (idx : Nat)
    (reg : Option α) (s : State) : At R (readReg idx reg) s := by
  cases reg with
  | some a => exact hR.refl s
  | none => exact hraise _ s

end

theorem cfg_closed : Closed fun s t => t.cfg = s.cfg := ⟨fun _ => rfl, fun h k => k.trans h⟩

/-- What `CtlRMW` leaves of the bits outside both of its words (R132). -/
theorem rmwWord_and {v clear set m : Word} (h1 : clear &&& m = 0) (h2 : set &&& m = 0) :
    rmwWord v clear set &&& m = v &&& m := by
  apply BitVec.eq_of_getLsbD_eq
  intro i hi
  have a := congrArg (fun w => w.getLsbD i) h1
  have b := congrArg (fun w => w.getLsbD i) h2
  simp only [BitVec.getLsbD_and] at a b
  simp only [rmwWord, BitVec.getLsbD_and, BitVec.getLsbD_or, BitVec.getLsbD_not, hi, decide_true, Bool.true_and]
  cases hm : m.getLsbD i <;> cases hc : clear.getLsbD i <;> cases hs : set.getLsbD i <;> simp_all

/-! ## Relations the primitives keep -/

/-- A relation that every primitive keeps, whichever way it ends; `CtlRMW` only with IRQ_EN, and engine updates only
where they leave `promisc` and `initDone` alone. -/
structure Kept (R : State → State → Prop) : Prop where
  closed : Closed R
  cfg : ∀ {s t}, R s t → t.cfg = s.cfg
  eng : ∀ f s, (∀ e, (f e).promisc = e.promisc ∧ (f e).initDone = e.initDone) → At R (updEng f) s
  emit : ∀ e s, At R (emit e) s
  raise : ∀ c i s, R s (s.recordFault c i)
  draw : ∀ s, R s s.popDraw
  alloc : ∀ s, R s s.popAlloc
  read : ∀ off s, At R (devRead off) s
  write : ∀ off v s, (ConfigOk s.cfg → selectWrite s.cfg off ≠ some .machi) → At R (devWrite off v) s
  mask : ∀ s, At R (ctlRMW s.cfg.machiIrqEn 0) s
  unmask : ∀ s, At R (ctlRMW 0 s.cfg.machiIrqEn) s
  memRead : ∀ a s, At R (memRead a) s

section
variable {R : State → State → Prop} (hR : Kept R)
include hR

theorem Kept.respond (st : Status) (v : Word) (s : State) : At R (respond st v) s := hR.eng _ s fun _ => ⟨rfl, rfl⟩

theorem Kept.goto (w : Wpc) (s : State) : At R (goto w) s := hR.eng _ s fun _ => ⟨rfl, rfl⟩

theorem Kept.signal (s : State) : At R signal s :=
  hR.eng _ s fun e => by unfold Engine.signal; split <;> exact ⟨rfl, rfl⟩

theorem Kept.readReg {α : Type} (idx : Nat) (reg : Option α) (s : State) : At R (readReg idx reg) s :=
  At.readReg hR.closed (fun _ _ => hR.raise _ _ _) idx reg s

theorem Kept.drawByte (s : State) : At R drawByte s := hR.draw s

theorem Kept.readLenBytes (s : State) : At R readLenBytes s :=
  At.bind hR.closed (hR.readReg _ _ s) fun len t _ _ => by
    cases len with
    | bytes n => exact hR.closed.refl t
    | badlen => exact hR.raise _ _ t

theorem Kept.txByte (h : Word) (len j : Nat) (s : State) : At R (txByte h len j) s := by
  unfold Machine.txByte
  split
  · exact hR.memRead _ s
  · exact hR.drawByte s

theorem Kept.txBytes (h : Word) (len n : Nat) : ∀ j s, At R (txBytes h len n j) s := by
  induction n with
  | zero => intro j s; exact hR.closed.refl s
  | succ n ih =>
    intro j s
    exact At.bind hR.closed (hR.txByte h len j s) fun b t _ _ =>
      At.bind hR.closed (ih (j + 1) t) fun bs u _ _ => hR.closed.refl u

/-- The offset of a window word selects no control register. -/
theorem Kept.writeTx (k : Nat) (w : Word) (s : State) (hk : ConfigOk s.cfg → 8 * k < s.cfg.txWindowBytes) :
    At R (devWrite (txAddr s.cfg k) w) s :=
  hR.write _ _ _ fun hc => by rw [selectWrite_tx hc.facts (hk hc)]; simp

theorem Kept.txCopy (h : Word) (len n : Nat) : ∀ k s, (ConfigOk s.cfg → 8 * (k + n) ≤ s.cfg.txWindowBytes) →
    At R (txCopy h len n k) s := by
  induction n with
  | zero => intro k s _; exact hR.closed.refl s
  | succ n ih =>
    intro k s hk
    refine At.bind hR.closed (At.bind hR.closed (hR.txBytes h len 8 (8 * k) s) fun _ u _ _ => hR.closed.refl u)
      fun w t _ ht => At.get_bind ?_
    have hc := hR.cfg ht
    exact At.bind hR.closed (hR.writeTx k w t (by rw [hc]; intro h; have := hk h; omega)) fun _ u _ hu =>
      ih (k + 1) u (by rw [hR.cfg hu, hc]; intro h; have := hk h; omega)

/-- TX_SEND. -/
theorem Kept.txSend (len : Nat) (h : Word) (s : State) : At R (txSend len h) s := by
  have drop : At R (txDrop h len) s := At.bind hR.closed (hR.emit _ s) fun _ t _ _ => hR.respond _ _ t
  refine At.get_bind ?_
  split
  · exact drop
  split
  · exact drop
  · next hl =>
    refine At.get_bind ?_
    refine At.bind hR.closed
      (hR.txCopy h len _ 0 s fun hc => by have := hc.facts.tx8; unfold words8; omega) fun _ t _ ht => ?_
    refine At.bind hR.closed (hR.write _ _ t fun hc => ?_) fun _ u _ _ => ?_
    · rw [hR.cfg ht] at hc ⊢; rw [selectWrite_tplr hc.facts]; simp
    · exact At.bind hR.closed (hR.eng _ u fun _ => ⟨rfl, rfl⟩) fun _ v _ _ =>
        At.bind hR.closed (hR.emit _ v) fun _ w _ _ => hR.respond _ _ w

theorem Kept.readMac (s : State) : At R readMac s :=
  At.get_bind <| At.bind hR.closed (hR.read _ s) fun _ t _ _ =>
    At.bind hR.closed (hR.read _ t) fun _ u _ _ => hR.respond _ _ u

theorem Kept.ifStart (s : State) : At R ifStart s := by
  refine At.bind hR.closed (hR.eng _ s fun _ => ⟨rfl, rfl⟩) fun _ t _ _ => At.get_bind ?_
  split
  · exact At.bind hR.closed (hR.unmask t) fun _ u _ _ => hR.respond _ _ u
  · exact hR.respond _ _ t

theorem Kept.ifStop (s : State) : At R ifStop s :=
  At.bind hR.closed (hR.eng _ s fun _ => ⟨rfl, rfl⟩) fun _ t _ _ => hR.respond _ _ t

theorem Kept.setCaps (req : BitVec 24) (s : State) : At R (setCaps req) s := by
  unfold Machine.setCaps
  split
  · exact At.bind hR.closed (hR.eng _ s fun _ => ⟨rfl, rfl⟩) fun _ t _ _ => hR.respond _ _ t
  · exact hR.respond _ _ s

theorem Kept.readCounter (sel : BitVec 3) (s : State) : At R (readCounter sel) s := by
  refine At.get_bind ?_
  split
  · exact hR.respond _ _ s
  · exact hR.raise _ _ s

theorem Kept.fastPath (s : State) : At R fastPath s := by
  refine At.get_bind ?_
  split
  · refine At.bind hR.closed (hR.read _ s) fun _ t _ ht => ?_
    split
    · refine At.bind hR.closed ?_ fun _ u _ _ => hR.signal u
      rw [← hR.cfg ht]; exact hR.mask t
    · exact hR.closed.refl t
  · exact hR.closed.refl s

theorem Kept.checkAndSignal (s : State) : At R checkAndSignal s := by
  refine At.get_bind ?_
  split
  · refine At.bind hR.closed (hR.read _ s) fun _ t _ ht => ?_
    split
    · exact hR.signal t
    · exact hR.closed.refl t
  · exact hR.closed.refl s

theorem Kept.pollTick (s : State) : At R pollTick s := by
  refine At.get_bind ?_
  split
  · exact hR.checkAndSignal s
  · exact hR.closed.refl s

theorem Kept.wkTest (s : State) : At R wkTest s :=
  At.get_bind <| At.bind hR.closed (hR.read _ s) fun _ t _ _ => hR.eng _ t fun _ => ⟨rfl, rfl⟩

theorem Kept.wkDecode (s : State) : At R wkDecode s :=
  At.get_bind <| At.bind hR.closed (hR.readReg _ _ s) fun _ t _ _ =>
    At.bind hR.closed (hR.eng _ t fun _ => ⟨rfl, rfl⟩) fun _ u _ _ =>
    At.bind hR.closed (hR.read _ u) fun _ v _ _ =>
    At.bind hR.closed (hR.eng _ v fun _ => ⟨rfl, rfl⟩) fun _ w _ _ =>
    At.bind hR.closed (hR.read _ w) fun _ x _ _ => hR.eng _ x fun _ => ⟨rfl, rfl⟩

theorem Kept.wkValidate (s : State) : At R wkValidate s :=
  At.get_bind <| At.bind hR.closed (hR.readReg _ _ s) fun _ t _ _ =>
    At.bind hR.closed (hR.readReg _ _ t) fun _ u _ _ =>
    At.bind hR.closed (hR.readReg _ _ u) fun _ v _ _ => hR.goto _ v

/-- The ring-advance write (R190). -/
theorem Kept.advance (i : Nat) (s t : State) (hc : t.cfg = s.cfg) : At R (devWrite s.cfg.offRsr (nextId i)) t :=
  hR.write _ _ t fun h => by rw [hc] at h ⊢; rw [selectWrite_rsr h.facts]; simp

theorem Kept.wkReject (s : State) : At R wkReject s := by
  refine At.get_bind <| At.bind hR.closed (hR.eng _ s fun _ => ⟨rfl, rfl⟩) fun _ t _ ht =>
    At.bind hR.closed (hR.readReg _ _ t) fun i u _ hu => At.bind hR.closed (hR.advance i s u ?_) fun _ v _ _ => hR.goto _ v
  rw [hR.cfg hu, hR.cfg ht]

theorem Kept.wkAdvance (s : State) : At R wkAdvance s := by
  refine At.get_bind <| At.bind hR.closed (hR.readReg _ _ s) fun i u _ hu =>
    At.bind hR.closed (hR.advance i s u (hR.cfg hu)) fun _ v _ _ => hR.goto _ v

theorem Kept.wkAlloc (s : State) : At R wkAlloc s :=
  At.get_bind <| At.bind hR.closed (hR.readReg _ _ s) fun _ u _ _ =>
    At.bind hR.closed (hR.closed.trans (hR.alloc u) (hR.emit _ _)) fun b t _ _ =>
    hR.eng _ t fun _ => by cases b <;> exact ⟨rfl, rfl⟩

theorem Kept.rxCopy (hmem : ∀ a w s, At R (memWrite8 a w) s) (n : Nat) : ∀ k s, At R (rxCopy n k) s := by
  induction n with
  | zero => intro k s; exact hR.closed.refl s
  | succ n ih =>
    intro k s
    exact At.get_bind <| At.bind hR.closed (hR.readReg _ _ s) fun _ t _ _ =>
      At.bind hR.closed (hR.read _ t) fun _ u _ _ =>
      At.bind hR.closed (hR.readReg _ _ u) fun _ v _ _ =>
      At.bind hR.closed (hmem _ _ v) fun _ w _ _ => ih (k + 1) w

theorem Kept.wkCopy (hmem : ∀ a w s, At R (memWrite8 a w) s) (s : State) : At R wkCopy s :=
  At.bind hR.closed (hR.readLenBytes s) fun _ t _ _ =>
    At.bind hR.closed (hR.rxCopy hmem _ 0 t) fun _ u _ _ => hR.goto _ u

theorem Kept.wkDeliver (s : State) : At R wkDeliver s := by
  refine At.get_bind <| At.bind hR.closed (hR.readReg _ _ s) fun _ t _ _ => ?_
  have last : ∀ u : State, At R (updEng fun e => { e with buf := some none, wpc := .test }) u :=
    fun u => hR.eng _ u fun _ => ⟨rfl, rfl⟩
  split
  · exact At.bind hR.closed (hR.readLenBytes t) fun _ u _ _ => At.bind hR.closed (hR.emit _ u) fun _ v _ _ =>
      At.bind hR.closed (hR.eng _ v fun _ => ⟨rfl, rfl⟩) fun _ w _ _ => last w
  · exact At.bind hR.closed (hR.emit _ t) fun _ v _ _ =>
      At.bind hR.closed (hR.eng _ v fun _ => ⟨rfl, rfl⟩) fun _ w _ _ => last w

theorem Kept.wkExit (s : State) : At R wkExit s := by
  refine At.bind hR.closed (hR.eng _ s fun _ => ⟨rfl, rfl⟩) fun _ t _ _ => At.get_bind ?_
  split
  · exact hR.unmask t
  · exact hR.closed.refl t

/-- Every step of an engine agent keeps the relation, but for ST_INIT and SET_PROMISC (which write ALLPKTS and their
own flags) and EV_RESET; WK_COPY if the relation also survives its writes to host memory. -/
theorem exec_kept {i : Instr} {s t : State} (hbus : isBus i = false) (h1 : i ≠ .stInit) (h2 : ∀ on, i ≠ .setPromisc on)
    (h3 : i ≠ .evReset) (hmem : i = .wkCopy → ∀ a w s, At R (memWrite8 a w) s) (h : exec i s = .next t) : R s t := by
  cases i with
  | txSend len w => exact At.gate hR.closed (fun _ => hR.txSend _ _ s) h
  | ifStart => exact At.gate hR.closed (fun _ => hR.ifStart s) h
  | ifStop => exact At.gate hR.closed (fun _ => hR.ifStop s) h
  | setPromisc on => exact absurd rfl (h2 on)
  | setCaps req => exact At.gate hR.closed (fun _ => hR.setCaps req s) h
  | getPromisc => exact At.gate hR.closed (fun _ => hR.respond _ _ s) h
  | getCaps => exact At.gate hR.closed (fun _ => hR.respond _ _ s) h
  | getMaxlen => exact At.gate hR.closed (fun _ => hR.respond _ _ s) h
  | readMac => exact At.gate hR.closed (fun _ => hR.readMac s) h
  | readCounter sel => exact At.gate hR.closed (fun _ => hR.readCounter sel s) h
  | evRxIrq => exact At.gate hR.closed (fun _ => hR.fastPath s) h
  | evPollTick => exact At.gate hR.closed (fun _ => hR.pollTick s) h
  | evWatchdogTick => exact At.gate hR.closed (fun _ => hR.checkAndSignal s) h
  | evReset => exact absurd rfl h3
  | stInit => exact absurd rfl h1
  | wkTest => exact At.gate hR.closed (fun _ => hR.wkTest s) h
  | wkDecode => exact At.gate hR.closed (fun _ => hR.wkDecode s) h
  | wkValidate => exact At.gate hR.closed (fun _ => hR.wkValidate s) h
  | wkReject => exact At.gate hR.closed (fun _ => hR.wkReject s) h
  | wkAlloc => exact At.gate hR.closed (fun _ => hR.wkAlloc s) h
  | wkCopy => exact At.gate hR.closed (fun _ => hR.wkCopy (hmem rfl) s) h
  | wkAdvance => exact At.gate hR.closed (fun _ => hR.wkAdvance s) h
  | wkDeliver => exact At.gate hR.closed (fun _ => hR.wkDeliver s) h
  | wkExit => exact At.gate hR.closed (fun _ => hR.wkExit s) h
  | wkAbort => exact At.gate (x := wkAbort) hR.closed (fun _ => hR.eng _ s fun _ => ⟨rfl, rfl⟩) h
  | rdMaclo | rdMachi | rdRsr | rdRbad | rdRplr _ | rdRxbuf _ _ | wrMachi _ | wrTplr _ | wrRsr _ | wrTxbuf _ _ =>
    cases hbus

end

/-- A bus request keeps a relation that one access and a recorded fault keep. -/
theorem exec_bus {R : State → State → Prop} (hR : Closed R) (hraise : ∀ c i s, R s (s.recordFault c i))
    (hread : ∀ off s, At R (devRead off) s) (hwrite : ∀ off v s, At R (devWrite off v) s) {i : Instr} {s t : State}
    (hbus : isBus i = true) (h : exec i s = .next t) : R s t := by
  have rd : ∀ b r, At R (busRead b r) s := by
    intro b r
    refine At.get_bind ?_
    split
    · exact At.bind hR (hread _ s) fun _ u _ _ => hR.refl u
    · exact hraise _ _ s
  have wr : ∀ b r v, At R (busWrite b r v) s := by
    intro b r v
    refine At.get_bind ?_
    split
    · exact hwrite _ _ s
    · exact hraise _ _ s
  cases i <;> first
    | cases hbus; done
    | exact At.gate hR (fun _ => rd _ _) h
    | exact At.gate hR (fun _ => wr _ _ _) h

end Sys2Proof.Machine
end

