-- ==== Sys2Proof/Laws/Loops.lean ====
section
/-! SUPPORT. The two copy loops when the platform reports no failure: transmit (spec/41_transmit.md R150 to R152) and
receive (spec/42_receive.md R184, R185); and the capture of the reference device (spec/20_memory.md R91). -/

namespace Sys2Proof.Machine

/-! ## Bytes and words (R75) -/

theorem byteOf_ofBytes (bs : List Byte) {i : Nat} (h : bs.length ≤ 8) (hi : i < 8) :
    byteOf (ofBytes bs) i = bs.getD i 0 := by
  induction bs generalizing i with
  | nil => simp [ofBytes, byteOf]
  | cons b bs ih =>
    apply BitVec.eq_of_getLsbD_eq
    intro j hj
    cases i with
    | zero => simp [ofBytes, byteOf, hj, show j < 64 by omega]
    | succ i =>
      have := ih (i := i) (by simp at h; omega) (by omega)
      have h2 := congrArg (fun w => w.getLsbD j) this
      simp only [byteOf, BitVec.getLsbD_extractLsb', hj, decide_true, Bool.true_and] at h2
      simp only [byteOf, ofBytes, BitVec.getLsbD_extractLsb', hj, decide_true, Bool.true_and, BitVec.getLsbD_or,
        BitVec.getLsbD_setWidth, BitVec.getLsbD_shiftLeft, List.getD_cons_succ]
      rw [← h2, show 8 * (i + 1) + j - 8 = 8 * i + j by omega, BitVec.getLsbD_of_ge b _ (by omega)]
      simp [show 8 * (i + 1) + j < 64 by omega, show ¬ 8 * (i + 1) + j < 8 by omega]

/-! ## The transmit copy -/

/-- Only draws have been made: everything but the free values' bookkeeping is unchanged. -/
structure OnlyDraws (s t : State) : Prop where
  cfg : t.cfg = s.cfg
  eng : t.eng = s.eng
  dev : t.dev = s.dev
  mem : t.mem = s.mem
  trace : t.trace = s.trace
  agenda : t.env.agenda = s.env.agenda
  busFail : t.env.busFail = s.env.busFail
  memFail : t.env.memFail = s.env.memFail

theorem OnlyDraws.refl (s : State) : OnlyDraws s s := ⟨rfl, rfl, rfl, rfl, rfl, rfl, rfl, rfl⟩

theorem OnlyDraws.popDraw (s : State) : OnlyDraws s s.popDraw := ⟨rfl, rfl, rfl, rfl, rfl, rfl, rfl, rfl⟩

theorem OnlyDraws.trans {s t u : State} (h : OnlyDraws s t) (k : OnlyDraws t u) : OnlyDraws s u :=
  ⟨k.cfg.trans h.cfg, k.eng.trans h.eng, k.dev.trans h.dev, k.mem.trans h.mem, k.trace.trans h.trace,
    k.agenda.trans h.agenda, k.busFail.trans h.busFail, k.memFail.trans h.memFail⟩

/-- Byte `j` of the window copy: a frame byte or a drawn one. -/
theorem txByte_ok {s : State} {h : Word} {len : Nat} (j : Nat) (hq : s.env.memFail = none)
    (hh : h.toNat + len ≤ 2 ^ s.cfg.hostAddrBits) :
    ∃ b t, txByte h len j s = .ok b t ∧ OnlyDraws s t ∧ (j < len → b = s.mem.read (h.toNat + j)) := by
  unfold txByte
  split
  · exact ⟨_, _, memRead_ok hq (by omega), .refl s, fun _ => rfl⟩
  · exact ⟨_, _, run_drawByte s, .popDraw s, fun hj => absurd hj ‹_›⟩

theorem txBytes_ok {h : Word} {len : Nat} (n : Nat) : ∀ {s : State} (j : Nat), s.env.memFail = none →
    h.toNat + len ≤ 2 ^ s.cfg.hostAddrBits →
    ∃ bs t, txBytes h len n j s = .ok bs t ∧ OnlyDraws s t ∧ bs.length = n ∧
      ∀ i, i < n → j + i < len → bs.getD i 0 = s.mem.read (h.toNat + (j + i)) := by
  induction n with
  | zero => intro s j _ _; exact ⟨[], s, rfl, .refl s, rfl, fun i hi => absurd hi (by omega)⟩
  | succ n ih =>
    intro s j hq hh
    obtain ⟨b, t, h1, h2, h3⟩ := txByte_ok j hq hh
    obtain ⟨bs, u, k1, k2, k3, k4⟩ := ih (s := t) (j + 1) (h2.memFail.trans hq) (by rw [h2.cfg]; exact hh)
    refine ⟨b :: bs, u, by simp only [txBytes, run_bind, h1, k1, run_pure], h2.trans k2, by simp [k3], ?_⟩
    intro i hi hj
    cases i with
    | zero => exact h3 hj
    | succ i =>
      rw [List.getD_cons_succ, k4 i (by omega) (by omega), h2.mem, show j + 1 + i = j + (i + 1) by omega]

/-- `tx_word(h, L, k)` (R151): byte i is frame byte `8 * k + i` where the frame has one. -/
theorem txWord_ok {s : State} {h : Word} {len : Nat} (k : Nat) (hq : s.env.memFail = none)
    (hh : h.toNat + len ≤ 2 ^ s.cfg.hostAddrBits) :
    ∃ w t, txWord h len k s = .ok w t ∧ OnlyDraws s t ∧
      ∀ i, i < 8 → 8 * k + i < len → byteOf w i = s.mem.read (h.toNat + (8 * k + i)) := by
  obtain ⟨bs, t, h1, h2, h3, h4⟩ := txBytes_ok 8 (8 * k) hq hh
  exact ⟨ofBytes bs, t, by simp only [txWord, run_bind, h1, run_pure], h2,
    fun i hi hj => (byteOf_ofBytes bs (by omega) hi).trans (h4 i hi hj)⟩

/-- What the transmit copy of words `k` to `k + n - 1` leaves: only those words of the device have changed. -/
structure Copied (s t : State) (ws : Nat → Word) (k n : Nat) : Prop where
  cfg : t.cfg = s.cfg
  eng : t.eng = s.eng
  mem : t.mem = s.mem
  agenda : t.env.agenda = s.env.agenda
  busFail : t.env.busFail = none
  trace : t.trace = ((List.range' k n).map fun j => PortEvent.wr (txAddr s.cfg j) (ws j)).reverse ++ s.trace
  words : ∀ j, k ≤ j → j < k + n → t.dev.word (txAddr s.cfg j) = ws j
  others : ∀ off, (∀ j, k ≤ j → j < k + n → off ≠ txAddr s.cfg j) → t.dev.word off = s.dev.word off
  cons : t.dev.cons = s.dev.cons
  full : t.dev.full = s.dev.full
  bad : t.dev.bad = s.dev.bad
  wire : t.dev.wire = s.dev.wire

theorem txAddr_inj {c : Config} {j k : Nat} (h : txAddr c j = txAddr c k) : j = k := by
  simp only [txAddr, writeOffset] at h; omega

/-- The copy loop of R150. -/
theorem txCopy_ok {h : Word} {len : Nat} (n : Nat) : ∀ {s : State} (k : Nat), ConfigFacts s.cfg → s.quiet →
    h.toNat + len ≤ 2 ^ s.cfg.hostAddrBits → 8 * (k + n) ≤ s.cfg.txWindowBytes →
    ∃ ws t, txCopy h len n k s = .ok () t ∧ Copied s t ws k n ∧
      ∀ j i, k ≤ j → j < k + n → i < 8 → 8 * j + i < len → byteOf (ws j) i = s.mem.read (h.toNat + (8 * j + i)) := by
  induction n with
  | zero =>
    intro s k _ hq _ _
    exact ⟨fun _ => 0, s, rfl, ⟨rfl, rfl, rfl, rfl, hq.1, by simp, by omega, fun _ _ => rfl, rfl, rfl, rfl, rfl⟩, by omega⟩
  | succ n ih =>
    intro s k hf hq hh hw
    obtain ⟨w, t, h1, h2, h3⟩ := txWord_ok k hq.2 hh
    have hb : t.env.busFail = none := h2.busFail.trans hq.1
    have hsel : selectWrite t.cfg (txAddr t.cfg k) = some (.txbuf k) := by
      rw [h2.cfg]; exact selectWrite_tx hf (by omega)
    obtain ⟨ws, u, k1, k2, k3⟩ := ih (s := t.afterWrite (txAddr t.cfg k) w (.txbuf k)) (k + 1) (by simpa [h2.cfg] using hf)
      ⟨afterWrite_busFail hb _ _ _, by simpa [h2.memFail] using hq.2⟩ (by simpa [h2.cfg] using hh)
      (by rw [afterWrite_cfg, h2.cfg]; omega)
    have hc : (t.afterWrite (txAddr t.cfg k) w (.txbuf k)).cfg = s.cfg := h2.cfg
    have hd : (t.afterWrite (txAddr t.cfg k) w (.txbuf k)).dev = s.dev.store (txAddr s.cfg k) w := by
      simp [applyWrite, h2.cfg, h2.dev]
    refine ⟨fun j => if j = k then w else ws j, u, ?_, ⟨?_, ?_, ?_, ?_, ?_, ?_, ?_, ?_, ?_, ?_, ?_, ?_⟩, ?_⟩
    · simp only [txCopy, run_bind, h1, run_get, devWrite_ok hb hsel, k1]
    · exact k2.cfg.trans hc
    · exact k2.eng.trans h2.eng
    · exact k2.mem.trans h2.mem
    · exact k2.agenda.trans h2.agenda
    · exact k2.busFail
    · rw [k2.trace, hc, afterWrite_trace, h2.cfg, h2.trace, List.range'_succ, List.map_cons, List.reverse_cons,
        List.append_assoc]
      have : ∀ j ∈ List.range' (k + 1) n, PortEvent.wr (txAddr s.cfg j) (ws j)
          = PortEvent.wr (txAddr s.cfg j) (if j = k then w else ws j) := by
        intro j hj
        have := (List.mem_range'_1.mp hj).1
        rw [if_neg (by omega)]
      rw [List.map_congr_left this]
      simp
    · intro j hj1 hj2
      by_cases hjk : j = k
      · subst hjk
        have := k2.others (txAddr s.cfg j) (fun i hi _ he => by rw [hc] at he; have := txAddr_inj he; omega)
        simp [this, hd, -afterWrite_dev]
      · have := k2.words j (by omega) (by omega)
        rw [hc] at this
        simp [this, hjk]
    · intro off ho
      rw [k2.others off (fun j hj1 hj2 => by rw [hc]; exact ho j (by omega) (by omega)), hd]
      exact word_store_ne _ _ (ho k (by omega) (by omega))
    · rw [k2.cons, hd]; rfl
    · rw [k2.full, hd]; rfl
    · rw [k2.bad, hd]; rfl
    · rw [k2.wire, hd]; rfl
    · intro j i hj1 hj2 hi hlen
      by_cases hjk : j = k
      · subst hjk; simpa using h3 i hi hlen
      · simp only [hjk, if_false]
        rw [k3 j i (by omega) (by omega) hi hlen, afterWrite_mem, h2.mem]

/-! ## The receive copy -/

/-- What the receive copy of words `k` to `k + n - 1` of slot `i` to buffer `b` leaves. -/
structure Received (s t : State) (ws : Nat → Word) (i : Nat) (b : Word) (k n : Nat) : Prop where
  cfg : t.cfg = s.cfg
  eng : t.eng = s.eng
  dev : t.dev = s.dev
  agenda : t.env.agenda = s.env.agenda
  trace : t.trace = ((List.range' k n).map fun j => PortEvent.rd (rxAddr s.cfg i j) (ws j)).reverse ++ s.trace
  inside : ∀ j, k ≤ j → j < k + n → ∀ m, m < 8 → t.mem.read (bufAddr s.cfg b j + m) = byteOf (ws j) m
  outside : ∀ a, a < bufAddr s.cfg b k ∨ bufAddr s.cfg b (k + n) ≤ a → t.mem.read a = s.mem.read a
  ref : s.cfg.refDevice = true → ∀ j, k ≤ j → j < k + n → ws j = s.dev.word (rxAddr s.cfg i j)

/-- The copy loop of R185. -/
theorem rxCopy_ok {i : Nat} {b : Word} (n : Nat) : ∀ {s : State} (k : Nat), ConfigFacts s.cfg → s.quiet →
    s.eng.slot = some i → i < s.cfg.slotCount → s.eng.buf = some (some b) →
    8 * (k + n) ≤ s.cfg.slotStride → bufAddr s.cfg b (k + n) ≤ 2 ^ s.cfg.hostAddrBits →
    ∃ ws t, rxCopy n k s = .ok () t ∧ Received s t ws i b k n := by
  induction n with
  | zero =>
    intro s k _ hq _ _ _ _ _
    exact ⟨fun _ => 0, s, rfl, ⟨rfl, rfl, rfl, rfl, by simp, by omega, fun _ _ => rfl, by omega⟩⟩
  | succ n ih =>
    intro s k hf hq hs hi hb hw hm
    have hsel : selectRead s.cfg (rxAddr s.cfg i k) = some (.rxbuf i k) := selectRead_rx hf hi (by omega)
    obtain ⟨t, ht⟩ : ∃ t, t = s.afterRead (rxAddr s.cfg i k) (.rxbuf i k) := ⟨_, rfl⟩
    have tc : t.cfg = s.cfg := by simp [ht]
    have te : t.eng = s.eng := by simp [ht]
    have tb : t.env.busFail = none := by rw [ht]; exact afterRead_busFail hq.1 _ _
    have tm : t.env.memFail = none := by rw [ht, afterRead_memFail]; exact hq.2
    have hroom : bufAddr t.cfg b k + 8 ≤ 2 ^ t.cfg.hostAddrBits := by
      rw [tc]; unfold bufAddr at hm ⊢; omega
    obtain ⟨w, hw'⟩ : ∃ w, w = s.answer (.rxbuf i k) := ⟨_, rfl⟩
    obtain ⟨u, hu⟩ : ∃ u : State, u = { t with mem := t.mem.writeBytes (bufAddr s.cfg b k) (bytesOf w 8) } := ⟨_, rfl⟩
    have uc : u.cfg = s.cfg := by rw [hu]; exact tc
    have ue : u.eng = s.eng := by rw [hu]; exact te
    have ud : u.dev = s.dev := by rw [hu, ht]; simp
    obtain ⟨ws, v, k1, k2⟩ := ih (s := u) (k + 1) (by rw [uc]; exact hf) (by rw [hu]; exact ⟨tb, tm⟩) (by rw [ue]; exact hs)
      (by rw [uc]; exact hi) (by rw [ue]; exact hb) (by rw [uc]; omega)
      (by rw [uc, show k + 1 + n = k + (n + 1) by omega]; exact hm)
    have hmw : memWrite8 (bufAddr s.cfg b k) w t = .ok () u := by
      rw [hu, ← tc]; exact memWrite8_ok tm hroom
    have tmem : t.mem = s.mem := by simp [ht]
    refine ⟨fun j => if j = k then w else ws j, v, ?_, ⟨?_, ?_, ?_, ?_, ?_, ?_, ?_, ?_⟩⟩
    · simp only [rxCopy, run_bind, run_get, readSlot_some hs, devRead_ok hq.1 hsel, ← ht, ← hw',
        readBuf_some (te ▸ hb), hmw, k1]
    · exact k2.cfg.trans uc
    · exact k2.eng.trans ue
    · exact k2.dev.trans ud
    · rw [k2.agenda, hu, ht]; simp
    · rw [k2.trace, uc, List.range'_succ, List.map_cons, List.reverse_cons, List.append_assoc]
      have : ∀ j ∈ List.range' (k + 1) n, PortEvent.rd (rxAddr s.cfg i j) (ws j)
          = PortEvent.rd (rxAddr s.cfg i j) (if j = k then w else ws j) := by
        intro j hj
        have := (List.mem_range'_1.mp hj).1
        rw [if_neg (by omega)]
      rw [List.map_congr_left this, hu, ht, hw']
      simp
    · intro j hj1 hj2 m hm8
      by_cases hjk : j = k
      · subst hjk
        have ho := k2.outside (bufAddr s.cfg b j + m) (.inl (by rw [uc]; unfold bufAddr; omega))
        rw [ho, hu]
        show Memory.read (Memory.writeBytes t.mem _ _) _ = _
        rw [Memory.read_writeWord, if_pos ⟨by omega, by omega⟩, Nat.add_sub_cancel_left]
        simp
      · have := k2.inside j (by omega) (by omega) m hm8
        rw [uc] at this
        simp [this, hjk]
    · intro a ha
      have ho := k2.outside a (by rw [uc]; unfold bufAddr at ha ⊢; omega)
      rw [ho, hu]
      show Memory.read (Memory.writeBytes t.mem _ _) _ = _
      rw [Memory.read_writeWord, if_neg (by unfold bufAddr at ha ⊢; omega), tmem]
    · intro hr j hj1 hj2
      by_cases hjk : j = k
      · subst hjk
        simp only [if_true, hw', answer_ref hr]; rfl
      · simp only [hjk, if_false]
        rw [k2.ref (by rw [uc]; exact hr) j (by omega) (by omega), uc, ud]

/-! ## The capture (R91) -/

/-- Storing words at consecutive offsets changes those words of the device and nothing else. -/
theorem storeWords_facts (ws : List Word) : ∀ (d : Device) (off : Nat),
    (d.storeWords off ws).cons = d.cons ∧ (d.storeWords off ws).full = d.full ∧
    (d.storeWords off ws).bad = d.bad ∧ (d.storeWords off ws).wire = d.wire ∧
    (∀ x, (∀ k, k < ws.length → x ≠ off + 8 * k) → (d.storeWords off ws).word x = d.word x) ∧
    (∀ k, (h : k < ws.length) → (d.storeWords off ws).word (off + 8 * k) = ws[k]) := by
  induction ws with
  | nil => intro d off; exact ⟨rfl, rfl, rfl, rfl, fun _ _ => rfl, fun k h => absurd h (by simp)⟩
  | cons w ws ih =>
    intro d off
    obtain ⟨h1, h2, h3, h4, h5, h6⟩ := ih (d.store off w) (off + 8)
    refine ⟨h1, h2, h3, h4, ?_, ?_⟩
    · intro x hx
      rw [Device.storeWords, h5 x fun k hk => by have := hx (k + 1) (by simpa using hk); omega, word_store_ne]
      have := hx 0 (by simp); omega
    · intro k hk
      cases k with
      | zero =>
        show ((d.store off w).storeWords (off + 8) ws).word off = w
        rw [h5 off fun k hk => by omega]; simp
      | succ k =>
        rw [Device.storeWords, show off + 8 * (k + 1) = off + 8 + 8 * k by omega, h6 k (by simpa using hk)]; simp

theorem wordsOf_length (n : Nat) : ∀ bs, (wordsOf bs n).length = n := by
  induction n with
  | zero => intro bs; rfl
  | succ n ih => intro bs; simp [wordsOf, ih]

/-- Byte i of window word k is byte `8 * k + i` of the list (R75). -/
theorem wordsOf_byte (n : Nat) : ∀ (bs : List Byte) (k : Nat) (h : k < (wordsOf bs n).length) (i : Nat), i < 8 →
    byteOf ((wordsOf bs n)[k]) i = bs.getD (8 * k + i) 0 := by
  induction n with
  | zero => intro bs k h; simp [wordsOf] at h
  | succ n ih =>
    intro bs k h i hi
    cases k with
    | zero =>
      simp only [wordsOf, List.getElem_cons_zero]
      rw [byteOf_ofBytes _ (by simp) hi]
      simp [List.getD_eq_getElem?_getD, hi]
    | succ k =>
      simp only [wordsOf, List.getElem_cons_succ]
      rw [ih (bs.drop 8) k _ i hi]
      simp only [List.getD_eq_getElem?_getD, List.getElem?_drop]
      congr 2; omega

theorem drawBytes_facts (n : Nat) : ∀ s, (drawBytes n s).1.length = n ∧ OnlyDraws s (drawBytes n s).2 := by
  induction n with
  | zero => intro s; exact ⟨rfl, .refl s⟩
  | succ n ih =>
    intro s
    obtain ⟨h1, h2⟩ := ih s.popDraw
    exact ⟨by simp [drawBytes, h1], (OnlyDraws.popDraw s).trans h2⟩

end Sys2Proof.Machine
end

