-- ==== Sys2Proof/Laws/PerInstr.lean ====
section
/-! SUPPORT. Per-instruction statement `TableRow`: under the test configuration, the word the encoder writes for a
well-formed operation has the fixed bits that its row of spec/opcode_table.json gives. -/

namespace Sys2Proof.Laws.TableRow

open Sys2Proof Sys2Proof.Machine

/-- A row's `match` and `mask`. -/
def row : Instr → Nat × Nat
  | .txSend _ _ => (0x1, 0xFF)
  | .ifStart => (0x2, 0xFFFFFFFF)
  | .ifStop => (0x3, 0xFFFFFFFF)
  | .setPromisc _ => (0x4, 0xFFFFFEFF)
  | .setCaps _ => (0x5, 0xFF)
  | .getPromisc => (0x6, 0xFFFFFFFF)
  | .getCaps => (0x7, 0xFFFFFFFF)
  | .getMaxlen => (0x8, 0xFFFFFFFF)
  | .readMac => (0x9, 0xFFFFFFFF)
  | .readCounter _ => (0xA, 0xFFFFF8FF)
  | .evRxIrq => (0x40, 0xFF)
  | .evPollTick => (0x41, 0xFF)
  | .evWatchdogTick => (0x42, 0xFF)
  | .evReset => (0x43, 0xFF)
  | .stInit => (0x50, 0xFF)
  | .wkTest => (0x61, 0xFF)
  | .wkDecode => (0x62, 0xFF)
  | .wkValidate => (0x63, 0xFF)
  | .wkReject => (0x64, 0xFF)
  | .wkAlloc => (0x65, 0xFF)
  | .wkCopy => (0x66, 0xFF)
  | .wkAdvance => (0x67, 0xFF)
  | .wkDeliver => (0x68, 0xFF)
  | .wkExit => (0x69, 0xFF)
  | .wkAbort => (0x6A, 0xFF)
  | .rdMaclo => (0x0, 0x1FFFF)
  | .rdMachi => (0x8, 0x1FFFF)
  | .wrMachi _ => (0x10008, 0x1FFFF)
  | .wrTplr _ => (0x10010, 0x1FFFF)
  | .rdRsr => (0x18, 0x1FFFF)
  | .wrRsr _ => (0x10018, 0x1FFFF)
  | .rdRbad => (0x20, 0x1FFFF)
  | .rdRplr _ => (0x40, 0x1FFC7)
  | .wrTxbuf _ _ => (0x11000, 0x1F807)
  | .rdRxbuf _ _ => (0x4000, 0x1C007)

/-- The encoder's word agrees with the table's row in every bit the row fixes. -/
def Statement (i : Instr) : Prop :=
  WellFormed Config.tc i = true → headBits (encode Config.tc i) &&& (row i).2 = (row i).1

/-- The low byte of a command word is its `OPC`. -/
theorem opc_bits (opc : BitVec 8) (arg : BitVec 24) : (cmdWord opc arg).toNat &&& 0xFF = opc.toNat := by
  rw [toNat_cmdWord, show (0xFF : Nat) = 2 ^ 8 - 1 from rfl, Nat.and_two_pow_sub_one_eq_mod]
  have := opc.isLt; omega

theorem txSend (len : BitVec 24) (h : Word) : Statement (.txSend len h) := fun _ => opc_bits 0x01 len

theorem ifStart : Statement .ifStart := fun _ => rfl

theorem ifStop : Statement .ifStop := fun _ => rfl

theorem setPromisc (on : Bool) : Statement (.setPromisc on) := by
  cases on <;> intro _ <;> rfl

theorem setCaps (req : BitVec 24) : Statement (.setCaps req) := fun _ => opc_bits 0x05 req

theorem getPromisc : Statement .getPromisc := fun _ => rfl

theorem getCaps : Statement .getCaps := fun _ => rfl

theorem getMaxlen : Statement .getMaxlen := fun _ => rfl

theorem readMac : Statement .readMac := fun _ => rfl

theorem readCounter (sel : BitVec 3) : Statement (.readCounter sel) := by
  revert sel; unfold Statement; decide

theorem evRxIrq : Statement .evRxIrq := fun _ => rfl

theorem evPollTick : Statement .evPollTick := fun _ => rfl

theorem evWatchdogTick : Statement .evWatchdogTick := fun _ => rfl

theorem evReset : Statement .evReset := fun _ => rfl

theorem stInit : Statement .stInit := fun _ => rfl

theorem wkTest : Statement .wkTest := fun _ => rfl

theorem wkDecode : Statement .wkDecode := fun _ => rfl

theorem wkValidate : Statement .wkValidate := fun _ => rfl

theorem wkReject : Statement .wkReject := fun _ => rfl

theorem wkAlloc : Statement .wkAlloc := fun _ => rfl

theorem wkCopy : Statement .wkCopy := fun _ => rfl

theorem wkAdvance : Statement .wkAdvance := fun _ => rfl

theorem wkDeliver : Statement .wkDeliver := fun _ => rfl

theorem wkExit : Statement .wkExit := fun _ => rfl

theorem wkAbort : Statement .wkAbort := fun _ => rfl

theorem rdMaclo : Statement .rdMaclo := fun _ => rfl

theorem rdMachi : Statement .rdMachi := fun _ => rfl

theorem wrMachi (v : Word) : Statement (.wrMachi v) := by
  intro _
  show (2 ^ 16 + 8) &&& 0x1FFFF = 0x10008
  decide

theorem wrTplr (v : Word) : Statement (.wrTplr v) := by
  intro _
  show (2 ^ 16 + 0x10) &&& 0x1FFFF = 0x10010
  decide

theorem rdRsr : Statement .rdRsr := fun _ => rfl

theorem wrRsr (v : Word) : Statement (.wrRsr v) := by
  intro _
  show (2 ^ 16 + 0x18) &&& 0x1FFFF = 0x10018
  decide

theorem rdRbad : Statement .rdRbad := fun _ => rfl

theorem rplr_bits : ∀ s : Fin 8, (0 + (0x40 + s.val * 8)) &&& 0x1FFC7 = 0x40 := by decide

theorem rdRplr (s : Nat) : Statement (.rdRplr s) := by
  intro h
  have h : s < 8 := of_decide_eq_true h
  exact rplr_bits ⟨s, h⟩

set_option maxRecDepth 4000 in
theorem txbuf_bits : ∀ k : Fin 256, (0x10000 + (0x1000 + 8 * k.val)) &&& 0x1F807 = 0x11000 := by decide

theorem wrTxbuf (k : Nat) (v : Word) : Statement (.wrTxbuf k v) := by
  intro h
  have h : k < 256 := by have h : 8 * k < 2048 := of_decide_eq_true h; omega
  exact txbuf_bits ⟨k, h⟩

set_option maxRecDepth 4000 in
theorem rxbuf_bits : ∀ s : Fin 8, ∀ k : Fin 256, (0 + (0x4000 + s.val * 2048 + 8 * k.val)) &&& 0x1C007 = 0x4000 := by
  decide

theorem rdRxbuf (s : Nat) (k : Nat) : Statement (.rdRxbuf s k) := by
  intro h
  have h : s < 8 ∧ 8 * k < 2048 := by
    have h := Bool.and_eq_true_iff.mp h
    exact ⟨of_decide_eq_true h.1, of_decide_eq_true h.2⟩
  exact rxbuf_bits ⟨s, h.1⟩ ⟨k, by omega⟩

end Sys2Proof.Laws.TableRow
end

