-- ==== Sys2Proof/Tests/Slice0.lean ====
section
/-! SUPPORT. Tests against spec/95_test_vectors.md (each test names its vector), the ill-formed operands WellFormed
refuses, and for every obligation with hypotheses a state and operands that meet them. -/

namespace Sys2Proof.Tests

open Sys2Proof Sys2Proof.Machine

/-! ## Small states -/

/-- TC with the reference device. -/
def refCfg : Config := { Config.tc with refDevice := true }

/-- TC in polling mode. -/
def pollCfg : Config := { Config.tc with mode := .polling }

/-- An initialised, running engine at step pointer `w` under `c`; the device answers the draws `ws`. -/
def live (c : Config) (w : Wpc) (ws : List Word) : State :=
  let s := State.resetWith c
  { s with
    eng := { s.eng with initDone := true, running := true, wpc := w, busy := w != .idle }
    env := { s.env with nextDraws := ws } }

/-- The engine at `w` with every working register written: slot 3, length 13, buffer 0x8000_0000. -/
def full (c : Config) (w : Wpc) (ws : List Word) : State :=
  let s := live c w ws
  { s with eng := { s.eng with
      st := some 0x1003, slot := some 3, errs := some 0, raw := some 13, len := some (.bytes 13),
      buf := some (some 0x80000000) } }

def after (i : Instr) (s : State) : State :=
  match exec i s with
  | .next t => t
  | _ => s

def offering (s : State) (w : PortWord) : State := s.withAgenda [.port w]

def stepped (s : State) : State :=
  match step s with
  | .next t => t
  | _ => s

/-! ## WellFormed refuses each ill-formed operand -/

theorem test_illformed_counter : WellFormed Config.tc (.readCounter 5) = false := by decide
theorem test_illformed_rplr : WellFormed Config.tc (.rdRplr 8) = false := by decide
theorem test_illformed_txbuf : WellFormed Config.tc (.wrTxbuf 256 0) = false := by decide
theorem test_illformed_rxbuf_slot : WellFormed Config.tc (.rdRxbuf 8 0) = false := by decide
theorem test_illformed_rxbuf_word : WellFormed Config.tc (.rdRxbuf 0 256) = false := by decide

/-! ## Decoding, from the words of V3, V4 and the codes of R117, R118 -/

theorem test_decode_txSend : decode Config.tc (.cmd 0x00000D01 9) = .ok (.txSend 13 9) := by decide
theorem test_decode_txSend_max : decode Config.tc (.cmd 0xFFFFFF01 0) = .ok (.txSend 16777215 0) := by decide
theorem test_decode_ifStart : decode Config.tc (.cmd 0x00000002 0) = .ok .ifStart := by decide
theorem test_decode_ifStart_arg : decode Config.tc (.cmd 0x00000102 0) = .error .reservedArg := by decide
theorem test_decode_ifStop : decode Config.tc (.cmd 0x00000003 0) = .ok .ifStop := by decide
theorem test_decode_setPromisc : decode Config.tc (.cmd 0x00000104 0) = .ok (.setPromisc true) := by decide
theorem test_decode_setPromisc_arg : decode Config.tc (.cmd 0x00000204 0) = .error .reservedArg := by decide
theorem test_decode_setCaps : decode Config.tc (.cmd 0x00000305 0) = .ok (.setCaps 3) := by decide
theorem test_decode_getPromisc : decode Config.tc (.cmd 0x00000006 0) = .ok .getPromisc := by decide
theorem test_decode_getPromisc_arg : decode Config.tc (.cmd 0x01000006 0) = .error .reservedArg := by decide
theorem test_decode_getCaps : decode Config.tc (.cmd 0x00000007 0) = .ok .getCaps := by decide
theorem test_decode_getMaxlen : decode Config.tc (.cmd 0x00000008 0) = .ok .getMaxlen := by decide
theorem test_decode_readMac : decode Config.tc (.cmd 0x00000009 0) = .ok .readMac := by decide
theorem test_decode_readCounter : decode Config.tc (.cmd 0x0000040A 0) = .ok (.readCounter 4) := by decide
theorem test_decode_readCounter_sel : decode Config.tc (.cmd 0x0000050A 0) = .error .badSelect := by decide
theorem test_decode_readCounter_arg : decode Config.tc (.cmd 0x0000080A 0) = .error .reservedArg := by decide
theorem test_decode_reservedOpc : decode Config.tc (.cmd 0x000000FF 0) = .error .reservedOpc := by decide
theorem test_decode_events : [0x40, 0x41, 0x42, 0x43].map decodeEvt
    = [.ok .evRxIrq, .ok .evPollTick, .ok .evWatchdogTick, .ok .evReset] := by decide
theorem test_decode_no_events : [0x00, 0x3F, 0x44, 0xFF].map decodeEvt
    = List.replicate 4 (.error .notAnEvent) := by decide
theorem test_decode_steps : [0x50, 0x61, 0x62, 0x63, 0x64, 0x65].map decodeStep
    = [.ok .stInit, .ok .wkTest, .ok .wkDecode, .ok .wkValidate, .ok .wkReject, .ok .wkAlloc] := by decide
theorem test_decode_more_steps : [0x66, 0x67, 0x68, 0x69, 0x6A, 0x60].map decodeStep
    = [.ok .wkCopy, .ok .wkAdvance, .ok .wkDeliver, .ok .wkExit, .ok .wkAbort, .error .notAStep] := by decide
theorem test_decode_bus_reads :
    [0x00000, 0x00008, 0x00018, 0x00020, 0x00058, 0x00078, 0x05838, 0x07FF8].map (decodeBus Config.tc · 0)
    = [.ok .rdMaclo, .ok .rdMachi, .ok .rdRsr, .ok .rdRbad, .ok (.rdRplr 3), .ok (.rdRplr 7), .ok (.rdRxbuf 3 7),
       .ok (.rdRxbuf 7 255)] := by decide
theorem test_decode_bus_writes :
    [0x10008, 0x10010, 0x10018, 0x11000, 0x117F8].map (decodeBus Config.tc · 5)
    = [.ok (.wrMachi 5), .ok (.wrTplr 5), .ok (.wrRsr 5), .ok (.wrTxbuf 0 5), .ok (.wrTxbuf 255 5)] := by decide
theorem test_decode_no_bus_rows :
    [0x10000, 0x00010, 0x10020, 0x00028, 0x00080, 0x00044, 0x10040, 0x11800].map (decodeBus Config.tc · 0)
    = List.replicate 8 (.error .noBusRow) := by decide
theorem test_decode_more_no_bus_rows :
    [0x01000, 0x11004, 0x08000, 0x14000, 0x04001].map (decodeBus Config.tc · 0)
    = List.replicate 5 (.error .noBusRow) := by decide

/-! ## Helpers: V1, V2, V5 -/

theorem test_rounding : [0, 1, 7, 8, 9, 13, 2046].map (fun n => (roundUp8 n, words8 n))
    = [(0, 0), (8, 1), (8, 1), (8, 1), (16, 2), (16, 2), (2048, 256)] := by decide
theorem test_decodeLen : [0xFFFFF03E, 0x1000, 0x7FF].map (decodeLen Config.tc · false)
    = [.bytes 62, .bytes 0, .bytes 2047] := by decide
theorem test_decodeLen_trim : [0x3, 0x4, 0x803].map (decodeLen Config.tc · true)
    = [.badlen, .bytes 0, .bytes 2047] := by decide
theorem test_addresses : (rxAddr Config.tc 3 7, rxAddr Config.tc 7 255, txAddr Config.tc 255,
    bufAddr Config.tc 0x80000000 7) = (0x5838, 0x7FF8, 0x17F8, 0x8000003A) := by decide
theorem test_macBytes : macBytes 0xFFFFFFFFFFFFABCD 0xFFFFFFFF01020304
    = [0xAB, 0xCD, 0x01, 0x02, 0x03, 0x04] := by decide

/-! ## Commands: V5, V6, V8, V9 -/

/-- Host bytes `00 01 02 ...` at 0x1000_0000. -/
def hostFrame (n : Nat) : Memory :=
  Memory.writeBytes [] 0x10000000 ((List.range n).map (BitVec.ofNat 8))

/-- V6, L = 13; the three bytes past the frame are drawn as 0xEE. -/
theorem test_txSend_13 :
    let t := after (.txSend 13 0x10000000) { live Config.tc .idle [0xEE, 0xEE, 0xEE] with mem := hostFrame 13 }
    t.trace = [.releaseFrame 0x10000000 13, .wr 0x010 13, .wr 0x1008 0xEEEEEE0C0B0A0908, .wr 0x1000 0x0706050403020100] ∧
    (t.eng.opackets, t.eng.obytes, t.eng.resp) = (1, 13, ⟨.ok, 0⟩) := by decide

/-- V9 row 2: the host read of `h + 8` fails. -/
theorem test_txSend_fails :
    let s := { live Config.tc .idle [] with mem := hostFrame 13 }
    let t := after (.txSend 13 0x10000000) { s with env := { s.env with memFail := some ⟨8, 0⟩ } }
    t.trace = [.wr 0x1000 0x0706050403020100] ∧ t.eng.fault = some ⟨.hostMem, 0x10000008⟩ ∧ t.eng.opackets = 0 := by
  decide

/-- V8 row 1. -/
theorem test_ifStart :
    let t := after .ifStart (live Config.tc .idle [0x1234])
    t.trace = [.wr 0x008 0x00801234, .rd 0x008 0x1234] ∧ t.eng.running = true := by decide

/-- V8 row 2: polling mode. -/
theorem test_ifStart_polling :
    let t := after .ifStart (live pollCfg .idle [])
    t.trace = [] ∧ t.eng.running = true ∧ t.eng.resp = ⟨.ok, 0⟩ := by decide

/-- V8 row 3. -/
theorem test_ifStop : let t := after .ifStop (live Config.tc .idle []); t.trace = [] ∧ t.eng.running = false := by decide

/-- V8 row 4. -/
theorem test_setPromisc_on :
    let t := after (.setPromisc true) (live Config.tc .idle [0x00801234])
    t.trace = [.wr 0x008 0x00C01234, .rd 0x008 0x00801234] ∧ t.eng.promisc = true := by decide

/-- V5: `CtlRMW(MACHI_ALLPKTS, 0)` over all ones. -/
theorem test_setPromisc_off :
    (after (.setPromisc false) (live Config.tc .idle [0xFFFFFFFFFFFFFFFF])).trace
      = [.wr 0x008 0xFFFFFFFFFFBFFFFF, .rd 0x008 0xFFFFFFFFFFFFFFFF] := by decide

/-- V8 row 6. -/
theorem test_setCaps_on :
    let t := after (.setCaps 1) (live Config.tc .idle [])
    t.eng.rxcsum = true ∧ (after .getCaps t).eng.resp = ⟨.ok, 1⟩ := by decide

/-- V4: SET_CAPS 3. -/
theorem test_setCaps_rejected :
    let t := after (.setCaps 3) (live Config.tc .idle [])
    t.eng.rxcsum = false ∧ t.eng.resp = ⟨.rejected, 0⟩ := by decide

theorem test_getPromisc : (after .getPromisc (live Config.tc .idle [])).eng.resp = ⟨.ok, 0⟩ := by decide

/-- V8 row 8. -/
theorem test_getMaxlen : (after .getMaxlen (live Config.tc .idle [])).eng.resp = ⟨.ok, 2046⟩ := by decide

/-- V5. -/
theorem test_readMac :
    let t := after .readMac (live Config.tc .idle [0x00800002, 0xA1B2C3D4])
    t.eng.resp = ⟨.ok, 0x0002A1B2C3D4⟩ ∧ t.trace = [.rd 0x000 0xA1B2C3D4, .rd 0x008 0x00800002] := by decide

/-- V4: READ_COUNTER 4. -/
theorem test_readCounter :
    let s := live Config.tc .idle []
    (after (.readCounter 4) { s with eng := { s.eng with obytes := 77 } }).eng.resp = ⟨.ok, 77⟩ := by decide

/-- V4: READ_COUNTER, sel 5, as a word on the command port. -/
theorem test_readCounter_sel5 :
    (stepped (offering (live Config.tc .idle []) (.cmd 0x50A 0))).eng.fault = some ⟨.badCmd, 0x50A⟩ := by decide

/-! ## Events: V7, V8, V9 -/

/-- V7 row 1. -/
theorem test_fastPath :
    let t := after .evRxIrq (live Config.tc .idle [0x1003, 0x00800000])
    t.trace = [.wr 0x008 0, .rd 0x008 0x00800000, .rd 0x018 0x1003] ∧ t.eng.busy = true ∧ t.eng.wpc = .test := by decide

/-- V7 row 3: a signal during an activation is coalesced. -/
theorem test_fastPath_busy :
    let t := after .evRxIrq (live Config.tc .copy [0x1005, 0x00800000])
    t.trace = [.wr 0x008 0, .rd 0x008 0x00800000, .rd 0x018 0x1005] ∧ t.eng.busy = true ∧ t.eng.wpc = .copy := by decide

/-- V8 row 10. -/
theorem test_pollTick :
    let t := after .evPollTick (live pollCfg .idle [0x1000])
    t.trace = [.rd 0x018 0x1000] ∧ t.eng.wpc = .test := by decide

/-- V8 row 9: interrupt mode. -/
theorem test_pollTick_interrupt : (after .evPollTick (live Config.tc .idle [0x1000])).trace = [] := by decide

/-- V8 row 13. -/
theorem test_watchdog :
    let t := after .evWatchdogTick (live Config.tc .idle [0x1005])
    t.trace = [.rd 0x018 0x1005] ∧ t.eng.wpc = .test := by decide

/-- V8 row 14. -/
theorem test_watchdog_busy : (after .evWatchdogTick (live Config.tc .copy [0x1005])).trace = [] := by decide

/-- V9 row 6. -/
theorem test_reset :
    let s := live Config.tc .copy []
    let t := after .evReset { s with eng := { s.eng with fault := some ⟨.bus, 0x18⟩, ipackets := 5 } }
    t.eng.fault = none ∧ t.eng.ipackets = 0 ∧ t.eng.initDone = false ∧ t.eng.wpc = .idle := by decide

/-! ## INIT and the worker: V7, V9, W1, W2 -/

/-- V9 row 7. -/
theorem test_init :
    let s := State.reset
    let t := after .stInit { s with env := { s.env with nextDraws := [0x00C0ABCD] } }
    t.trace = [.wr 0x008 0xABCD, .rd 0x008 0x00C0ABCD] ∧ t.eng.initDone = true ∧ t.eng.promisc = false := by decide

/-- V7 row 6. -/
theorem test_wkTest_done :
    let t := after .wkTest (live Config.tc .test [0x1000])
    t.eng.wpc = .decode ∧ t.eng.st = some 0x1000 := by decide

/-- V7 row 7. -/
theorem test_wkTest_exit : (after .wkTest (live Config.tc .test [0xEFFF])).eng.wpc = .exit := by decide

/-- V7 row 8. -/
theorem test_wkDecode :
    let s := full Config.tc .decode [0x80, 0x40]
    let t := after .wkDecode { s with eng := { s.eng with st := some 0x1007 } }
    t.trace = [.rd 0x078 0x40, .rd 0x020 0x80] ∧ t.eng.slot = some 7 ∧ t.eng.errs = some 0x80 ∧
    t.eng.len = some (.bytes 64) ∧ (after .wkValidate t).eng.wpc = .reject := by decide

/-- W1 and W2 (R180): slot 3 with RBAD 0, and with 0x108. -/
theorem test_wkValidate :
    let s := full Config.tc .validate []
    (after .wkValidate s).eng.wpc = .alloc ∧
    (after .wkValidate { s with eng := { s.eng with errs := some 0x108 } }).eng.wpc = .reject := by decide

/-- V1: a length of 2047 is rejected, 2046 accepted. -/
theorem test_wkValidate_ceiling :
    let s := full Config.tc .validate []
    (after .wkValidate { s with eng := { s.eng with len := some (.bytes 2046) } }).eng.wpc = .alloc ∧
    (after .wkValidate { s with eng := { s.eng with len := some (.bytes 2047) } }).eng.wpc = .reject := by decide

/-- V7 row 9: the last slot. -/
theorem test_wkReject :
    let s := full Config.tc .reject []
    let t := after .wkReject { s with eng := { s.eng with slot := some 7 } }
    t.trace = [.wr 0x018 8] ∧ t.eng.ierrors = 1 ∧ t.eng.wpc = .test ∧ t.dev.cons = 0 := by decide

/-- V7 row 10. -/
theorem test_wkAlloc_none :
    let s := full Config.tc .alloc []
    let t := after .wkAlloc { s with env := { s.env with nextAllocs := [none] } }
    t.trace = [.alloc 2050 none] ∧ t.eng.iqdrops = 1 ∧ t.eng.wpc = .abort := by decide

/-- W1. -/
theorem test_wkAlloc_some :
    let s := full Config.tc .alloc []
    let t := after .wkAlloc { s with env := { s.env with nextAllocs := [some 0x80001000] } }
    t.eng.buf = some (some 0x80001000) ∧ t.eng.wpc = .copy := by decide

/-- V7 row 13: 16 bytes are written from `b + 2`. -/
theorem test_wkCopy :
    let t := after .wkCopy (full Config.tc .copy [0x0706050403020100, 0x11100F0E0D0C0B0A])
    t.trace = [.rd 0x5808 0x11100F0E0D0C0B0A, .rd 0x5800 0x0706050403020100] ∧ t.eng.wpc = .advance ∧
    t.mem.bytes 0x80000000 19 = [0, 0, 0, 1, 2, 3, 4, 5, 6, 7, 10, 11, 12, 13, 14, 15, 16, 17, 0] := by decide

/-- V7 row 12: an empty frame copies nothing. -/
theorem test_wkCopy_empty :
    let s := full Config.tc .copy []
    let t := after .wkCopy { s with eng := { s.eng with len := some (.bytes 0) } }
    t.trace = [] ∧ t.mem = [] ∧ t.eng.wpc = .advance := by decide

/-- W1. -/
theorem test_wkAdvance :
    let t := after .wkAdvance (full Config.tc .advance [])
    t.trace = [.wr 0x018 4] ∧ t.dev.cons = 4 ∧ t.eng.wpc = .deliver := by decide

/-- V9 row 1. -/
theorem test_wkAdvance_fails :
    let s := full Config.tc .advance []
    let t := after .wkAdvance { s with env := { s.env with busFail := some ⟨0, false⟩ } }
    t.eng.fault = some ⟨.bus, 0x18⟩ ∧ t.trace = [.failed 0x18] ∧ t.eng.wpc = .advance := by decide

/-- W1's delivery, of 13 bytes. -/
theorem test_wkDeliver :
    let t := after .wkDeliver (full Config.tc .deliver [])
    t.trace = [.deliver 0x80000000 2 13 1] ∧ t.eng.ipackets = 1 ∧ t.eng.buf = some none ∧ t.eng.wpc = .test := by decide

/-- V7 row 14. -/
theorem test_wkDeliver_stopped :
    let s := full Config.tc .deliver []
    let t := after .wkDeliver { s with eng := { s.eng with running := false } }
    t.trace = [.releaseBuf 0x80000000] ∧ t.eng.iqdrops = 1 ∧ t.eng.ipackets = 0 := by decide

/-- W1. -/
theorem test_wkExit :
    let t := after .wkExit (live Config.tc .exit [0])
    t.trace = [.wr 0x008 0x00800000, .rd 0x008 0] ∧ t.eng.busy = false ∧ t.eng.wpc = .idle := by decide

/-- V7 row 15. -/
theorem test_wkExit_polling :
    let t := after .wkExit (live pollCfg .exit [])
    t.trace = [] ∧ t.eng.busy = false ∧ t.eng.wpc = .idle := by decide

/-- V7 row 11. -/
theorem test_wkAbort :
    let t := after .wkAbort (live Config.tc .abort [])
    t.trace = [] ∧ t.eng.busy = false ∧ t.eng.wpc = .idle := by decide

/-- V7 row 11 and the end of P5: stalled where a slot is done, not where the ring is empty; quiescent either way, whatever
commands and captures wait. -/
theorem test_stalled_quiescent :
    let e := after .wkAbort (live refCfg .abort [])
    let p := after .wkAbort ((live refCfg .abort []).capture [1] 1 false)
    e.stalled = false ∧ p.stalled = true ∧ p.quiescent = true ∧
    (p.withAgenda [.port (.cmd 2 0), .capture [] 0 false]).quiescent = true ∧
    (p.withAgenda [.port (.evt 0x42)]).quiescent = false := by decide

/-- R301: a slot reported again before the ring advances is one done slot; after the advance it is another. -/
theorem test_doneSlots :
    doneSlots Config.tc [.rd 0x018 0x1003, .rd 0x018 0x1003] = 1 ∧
    doneSlots Config.tc [.rd 0x018 0x1003, .wr 0x018 4, .rd 0x018 0x1003, .rd 0x018 0x0003] = 2 := by decide

/-! ## Bus requests: R43 to R50, R80, R81, under the reference device after reset (section 3 of the vectors) -/

/-- The device after reset and INIT: MACHI 0x0002, MACLO 0xA1B2_C3D4, every slot empty. -/
theorem test_bus_mac :
    (after .rdMaclo (live refCfg .idle [])).trace = [.rd 0x000 0xA1B2C3D4] ∧
    (after .rdMachi (live refCfg .idle [])).trace = [.rd 0x008 0x0002] := by decide

theorem test_bus_status :
    (after .rdRsr (live refCfg .idle [])).trace = [.rd 0x018 0] ∧
    (after .rdRbad (live refCfg .idle [])).trace = [.rd 0x020 0] := by decide

theorem test_bus_draws :
    (after (.rdRplr 3) (live Config.tc .idle [64])).trace = [.rd 0x058 64] ∧
    (after (.rdRxbuf 7 255) (live Config.tc .idle [9])).trace = [.rd 0x7FF8 9] := by decide

theorem test_bus_writes :
    (after (.wrMachi 0x00400000) (live refCfg .idle [])).dev.word 0x008 = 0x00400000 ∧
    (after (.wrRsr 8) (live refCfg .idle [])).dev.cons = 0 ∧
    (after (.wrTxbuf 255 7) (live refCfg .idle [])).dev.word 0x17F8 = 7 := by decide

/-- R90: a TPLR write sends the first bytes of the window. -/
theorem test_bus_send :
    (after (.wrTplr 3) (after (.wrTxbuf 0 0x0706050403020100) (live refCfg .idle []))).dev.wire = [[0, 1, 2]] := by
  decide

/-- R121: a slot outside the register file. -/
theorem test_bus_range :
    (after (.rdRplr 8) (live Config.tc .idle [])).eng.fault = some ⟨.addr, 0x80⟩ := by decide

/-- The words a table row gives are run by the very next step after reset (log entry 12). -/
theorem test_withFetchWord :
    (stepped (State.reset.withFetchWord 32 0x00000008)).eng.resp = ⟨.ok, 2046⟩ ∧
    (stepped (State.reset.withFetchWord 8 0x6A)).eng.wpc = .idle ∧
    (stepped (State.reset.withFetchWord 24 0x10018)).trace = [.wr 0x018 0] := by decide

/-! ## Witnesses: for every obligation with hypotheses, states and operands that meet them (for each clause) -/

theorem ok_tc : ConfigOk Config.tc := by decide
theorem ok_ref : ConfigOk refCfg := by decide
theorem ok_poll : ConfigOk pollCfg := by decide

theorem live_quiet (c : Config) (w : Wpc) (ws : List Word) : (live c w ws).quiet := ⟨rfl, rfl⟩
theorem full_quiet (c : Config) (w : Wpc) (ws : List Word) : (full c w ws).quiet := ⟨rfl, rfl⟩

/-- The invariant at an idle engine, whatever its flags and its ring. -/
theorem inv_idle {s : State} (h1 : ConfigOk s.cfg) (h2 : s.mem = []) (h3 : s.eng.busy = false) (h4 : s.eng.wpc = .idle)
    (h5 : s.eng.slot = none) (h6 : s.eng.len = none) (h0 : s.eng.buf = none) (h7 : s.dev.cons < s.cfg.slotCount)
    (h8 : s.dev.full.length = s.cfg.slotCount) (h9 : s.dev.bad.length = s.cfg.slotCount) : Machine.Inv s where
  config := h1
  memory := by rw [h2]; rfl
  busy := by simp [h3, h4]
  slot := by simp [h5]
  len := by simp [h6]
  registers := by rw [h4]; trivial
  buf := by simp [h0]
  ring := ⟨h7, h8, h9⟩

/-- The invariant at WK_COPY: every working register holds a value. -/
theorem inv_copy : Machine.Inv (full refCfg .copy []) where
  config := ok_ref
  memory := rfl
  busy := by decide
  slot := by intro i h; cases h; decide
  len := by intro n h; cases h; decide
  registers := ⟨⟨⟨0x1003, rfl, by decide, rfl⟩, ⟨0, rfl⟩, ⟨13, false, rfl, by decide⟩⟩,
    ⟨13, 0, 3, rfl, rfl, rfl, by decide⟩, ⟨0x80000000, rfl⟩⟩
  buf := by intro b h; cases h; decide
  ring := by decide

theorem witness_DecodeOfEncode : ConfigOk Config.tc ∧ WellFormed Config.tc (.rdRxbuf 7 255) = true ∧
    WellFormed Config.tc (.readCounter 4) = true := by decide
theorem witness_DecodedWord : ConfigOk Config.tc ∧ decode Config.tc (.bus 0x07FF8 0) = .ok (.rdRxbuf 7 255) := by decide
theorem witness_CommandOperands :
    (0x00000D01 : BitVec 32).extractLsb' 0 8 = 0x01 ∧
    ((0x00000104 : BitVec 32).extractLsb' 0 8 = 0x04 ∧ (0x00000104 : BitVec 32).extractLsb' 9 23 = 0) ∧
    (0x80000005 : BitVec 32).extractLsb' 0 8 = 0x05 ∧
    ((0x0000040A : BitVec 32).extractLsb' 0 8 = 0x0A ∧ (0x0000040A : BitVec 32).extractLsb' 11 21 = 0 ∧
      ((0x0000040A : BitVec 32).extractLsb' 8 3).toNat ≤ 4) := by decide
theorem witness_IllegalCommandWord :
    ConfigOk (offering (live Config.tc .idle []) (.cmd 0xB 0)).cfg ∧
    (offering (live Config.tc .idle []) (.cmd 0xB 0)).up = true ∧
    (offering (live Config.tc .idle []) (.cmd 0xB 0)).env.agenda = [.port (.cmd 0xB 0)] ∧
    ∀ n ∈ [0x0, 0xB, 0x102, 0x204, 0x50A, 0x80A], n < 2 ^ 32 ∧
      ¬ (n % 256 = 1 ∨ n % 256 = 5 ∨ (n % 256 ∈ [2, 3, 6, 7, 8, 9] ∧ n / 256 = 0) ∨
        (n % 256 = 4 ∧ n / 256 < 2) ∨ (n % 256 = 10 ∧ n / 256 ≤ 4)) := by decide
theorem witness_UnknownEvent : ConfigOk Config.tc ∧
    (offering State.reset (.evt 0x3F)).env.agenda = [.port (.evt 0x3F)] ∧
    (0x3F : BitVec 8).toNat ≤ 0x3F ∧ 0x44 ≤ (0x44 : BitVec 8).toNat := by decide
theorem witness_UnmatchedBusRequest_step :
    ConfigOk (offering State.reset (.bus (busHeader Config.tc true 0x20) 0)).cfg ∧
    (offering State.reset (.bus (busHeader Config.tc true 0x20) 0)).alive = true ∧ 0x20 < 2 ^ Config.tc.offBits ∧
    selectWrite Config.tc 0x20 = none ∧ selectRead Config.tc 0x28 = none ∧
    (offering State.reset (.bus (busHeader Config.tc true 0x20) 0)).env.agenda
      = [.port (.bus (busHeader Config.tc true 0x20) 0)] := by decide
theorem witness_UnmatchedBusRequest_offsets :
    0x44 % 8 ≠ 0 ∧ 0x10 = Config.tc.offTplr ∧
    (Config.tc.offTxbuf ≤ 0x17F8 ∧ 0x17F8 < Config.tc.offTxbuf + Config.tc.txWindowBytes) ∧
    0x20 = Config.tc.offRbad ∧
    (Config.tc.offRplr ≤ 0x78 ∧ 0x78 < Config.tc.offRplr + Config.tc.slotCount * Config.tc.rplrStride) ∧
    (Config.tc.offRxbuf ≤ 0x7FF8 ∧ 0x7FF8 < Config.tc.offRxbuf + Config.tc.slotCount * Config.tc.slotStride) := by decide
theorem witness_StepRunsTheOffered : ConfigOk (offering State.reset (.cmd 8 0)).cfg ∧
    (offering State.reset (.cmd 8 0)).env.agenda = [.port (.cmd 8 0)] ∧
    decode Config.tc (.cmd 8 0) = .ok .getMaxlen := by decide
theorem witness_StepRunsTheInternal_init : ConfigOk State.reset.cfg ∧ State.reset.env.agenda = [] ∧
    State.reset.eng.fault = none ∧ State.reset.eng.initDone = false ∧ State.reset.env.setupOk = true := by decide
theorem witness_StepRunsTheInternal_noSetup :
    let s := { State.reset with env := { State.reset.env with setupOk := false } }
    ConfigOk s.cfg ∧ s.env.agenda = [] ∧ s.eng.fault = none ∧ s.eng.initDone = false ∧ s.env.setupOk = false := by decide
theorem witness_StepRunsTheInternal_worker :
    let s := live Config.tc .abort []
    ConfigOk s.cfg ∧ s.env.agenda = [] ∧ s.eng.fault = none ∧ s.eng.initDone = true ∧
    workerStep .wkAbort = some .abort ∧ s.eng.wpc = .abort := by decide

/-- An empty transmit window at 2^OFF_BITS starts outside the window's offsets (R255, constraint 15). -/
theorem test_emptyWindow :
    brokenConstraint { Config.tc with txWindowBytes := 0, offTxbuf := 0x10000 } = some 15 ∧
    brokenConstraint { Config.tc with txWindowBytes := 0 } = none ∧
    brokenConstraint { Config.tc with machiMacMask := 0xFF } = some 14 := by decide
theorem witness_BrokenConfiguration : brokenConstraint { Config.tc with slotCount := 6 } = some 0 := by decide

/-- A faulted engine. -/
def faulted : State :=
  { State.reset with eng := { State.reset.eng with fault := some ⟨.badCmd, 0xB⟩, initDone := true } }

theorem witness_FaultedEngine : ConfigOk faulted.cfg ∧ faulted.eng.fault = some ⟨.badCmd, 0xB⟩ ∧
    faulted.eng.fault ≠ none ∧ faulted.env.agenda = [] ∧ Instr.wkTest ≠ .evReset := by decide

/-- R41, R33, R91: a faulted engine takes no tick, an idle one calls no allocator, and only the reference device captures. -/
theorem test_notEnabled : faulted.enables .evWatchdogTick = false ∧ (live Config.tc .idle []).enables .wkAlloc = false ∧
    (live Config.tc .idle []).enables .evWatchdogTick = true ∧ (live Config.tc .alloc []).enables .wkAlloc = true ∧
    (live Config.tc .idle []).captures [1] = false ∧ (live refCfg .idle []).captures [1] = true := by decide
theorem witness_NothingRunsBeforeInit : State.reset.eng.initDone = false ∧ Instr.ifStart ≠ .stInit ∧
    Instr.ifStart ≠ .evReset ∧ isBus .ifStart = false := by decide
theorem witness_WorkerStepNeedsItsPointer : workerStep .wkCopy = some .copy ∧
    (live Config.tc .advance []).eng.wpc ≠ .copy := by decide
theorem witness_IdleEngine : ConfigOk (live Config.tc .idle []).cfg ∧ (live Config.tc .idle []).up = true ∧
    (live Config.tc .idle []).eng.wpc = .idle ∧ (live Config.tc .idle []).env.agenda = [] := by decide
theorem witness_ResetEvent : ConfigOk refCfg ∧ refCfg.refDevice = true := by decide
theorem witness_InitClears : ConfigOk State.reset.cfg ∧ State.reset.quiet ∧ State.reset.initReady = true :=
  ⟨by decide, ⟨rfl, rfl⟩, by decide⟩

/-- An engine that takes commands: IF_START, IF_STOP, SET_PROMISC, SET_CAPS, the GET commands, READ_MAC, READ_COUNTER
and the ticks, in each mode. -/
theorem witness_commands : ConfigOk (live Config.tc .idle []).cfg ∧ (live Config.tc .idle []).quiet ∧
    (live Config.tc .idle []).up = true ∧ Config.tc.mode = .interrupt ∧ ConfigOk (live pollCfg .idle []).cfg ∧
    (live pollCfg .idle []).up = true ∧ pollCfg.mode = .polling :=
  ⟨by decide, ⟨rfl, rfl⟩, by decide, by decide, by decide, by decide, by decide⟩
theorem witness_SetCaps : (1 : BitVec 24).toNat < 2 ∧ 2 ≤ (2 : BitVec 24).toNat := by decide
theorem witness_ReadCounter : (4 : BitVec 3).toNat < 5 ∧ 5 ≤ (5 : BitVec 3).toNat := by decide
theorem witness_ReadMac_ref : ConfigOk (live refCfg .idle []).cfg ∧ (live refCfg .idle []).quiet ∧
    (live refCfg .idle []).up = true ∧ (live refCfg .idle []).cfg.refDevice = true :=
  ⟨by decide, ⟨rfl, rfl⟩, by decide, by decide⟩
theorem witness_TxSendDrops :
    (let s := live Config.tc .idle []
     let t := { s with eng := { s.eng with running := false } }
     t.up = true ∧ t.eng.running = false) ∧
    (live Config.tc .idle []).up = true ∧ Config.tc.txWindowBytes < (2049 : BitVec 24).toNat := by decide

/-- A frame that fills the window exactly, and ends at the top of host memory. -/
theorem witness_TxSendCopies : ConfigOk (live refCfg .idle []).cfg ∧ (live refCfg .idle []).cfg.refDevice = true ∧
    (live refCfg .idle []).quiet ∧ (live refCfg .idle []).up = true ∧ (live refCfg .idle []).eng.running = true ∧
    (2048 : BitVec 24).toNat ≤ (live refCfg .idle []).cfg.txWindowBytes ∧
    (0xFFFFFFFFFFFFF800 : Word).toNat + (2048 : BitVec 24).toNat ≤ 2 ^ (live refCfg .idle []).cfg.hostAddrBits :=
  ⟨by decide, by decide, ⟨rfl, rfl⟩, by decide, by decide, by decide, by decide⟩

theorem witness_FastPath_done :
    let s := live Config.tc .idle [0x1000]
    ConfigOk s.cfg ∧ s.quiet ∧ s.irqReady = true ∧ s.cfg.mode = .interrupt ∧ s.answer .rsr &&& s.cfg.doneMask ≠ 0 :=
  ⟨by decide, ⟨rfl, rfl⟩, by decide, by decide, by decide⟩
theorem witness_FastPath_notDone :
    let s := live Config.tc .idle [0x3]
    s.irqReady = true ∧ s.cfg.mode = .interrupt ∧ s.answer .rsr &&& s.cfg.doneMask = 0 := by decide

/-- Under the reference device EV_RX_IRQ is not taken while the ring is empty, nor while IRQ_EN is clear. -/
theorem witness_FastPath_low :
    (after (.wrMachi 0x00800002) (live refCfg .idle [])).irqReady = false ∧
    ((live refCfg .idle []).capture [1] 1 false).irqReady = false ∧ (live Config.tc .idle []).irqReady = true := by decide
theorem witness_FastPath_polling : (live pollCfg .idle []).irqReady = true ∧ pollCfg.mode = .polling := by decide

/-- Under the reference device EV_RX_IRQ is enabled while the line is high. -/
theorem witness_FastPath_ref :
    let s := (live refCfg .idle []).capture [1] 1 false
    let t := after (.wrMachi 0x00800002) s
    t.irqReady = true ∧ t.cfg.refDevice = true ∧ t.answer .rsr &&& t.cfg.doneMask ≠ 0 := by decide
theorem witness_PollTick : ConfigOk (live pollCfg .idle [0x1000]).cfg ∧ (live pollCfg .idle [0x1000]).quiet ∧
    (live pollCfg .idle [0x1000]).up = true ∧ (live pollCfg .idle [0x1000]).cfg.mode = .polling ∧
    (live pollCfg .idle [0x1000]).eng.busy = false ∧ (live pollCfg .test []).eng.busy = true :=
  ⟨by decide, ⟨rfl, rfl⟩, by decide, by decide, by decide, by decide⟩
theorem witness_WatchdogTick : (live Config.tc .idle []).cfg.watchdog = true ∧
    (live Config.tc .idle []).eng.busy = false ∧ (live Config.tc .copy []).eng.busy = true ∧
    (live { Config.tc with watchdog := false } .idle []).up = true := by decide

/-- Every worker step is enabled in some quiet state with every register written. -/
theorem witness_worker (w : Wpc) : ConfigOk (full Config.tc w []).cfg ∧ (full Config.tc w []).quiet ∧
    (full Config.tc w []).atStep w = true :=
  ⟨ok_tc, full_quiet _ _ _, by cases w <;> decide⟩
theorem witness_DecodeStep : (full Config.tc .decode []).eng.st = some 0x1003 := by decide
theorem witness_DecodedLength : ((0xFFFFF03E : Word) &&& Config.tc.lenMask).toNat = 62 ∧
    ((3 : Word) &&& Config.tc.lenMask).toNat = 3 ∧ 3 < 4 ∧ ((4 : Word) &&& Config.tc.lenMask).toNat = 4 := by decide
theorem witness_ValidateStep :
    let s := full Config.tc .validate []
    s.eng.len = some (.bytes 13) ∧ s.eng.errs = some 0 ∧ s.eng.slot = some 3 ∧ 13 ≤ s.cfg.maxFrameBytes ∧
    (s.cfg.baseErr ||| (s.cfg.baseErr <<< 3)) &&& 0 = 0 ∧ (s.cfg.baseErr ||| (s.cfg.baseErr <<< 3)) &&& 0x8 ≠ 0 := by
  decide

/-- The last buffer that fits host memory is returned; one byte higher, or aliased with the held one, counts as `NONE`. -/
theorem witness_AllocStep :
    let s := full Config.tc .alloc []
    let offered := fun b : Word => { s with env := { s.env with nextAllocs := [some b] } }
    s.atStep .alloc = true ∧ s.eng.len = some (.bytes 13) ∧
    (offered 0xFFFFFFFFFFFFF7FE).nextAlloc s.cfg.rxBufMin = some 0xFFFFFFFFFFFFF7FE ∧
    (offered 0xFFFFFFFFFFFFF7FF).nextAlloc s.cfg.rxBufMin = none ∧
    (offered 0x80000801).nextAlloc s.cfg.rxBufMin = none := by decide

/-- The longest accepted frame, in the last slot, into a buffer at the top of host memory. -/
theorem witness_CopyStep :
    let s := full Config.tc .copy []
    let t := { s with eng := { s.eng with
                len := some (.bytes 2046), slot := some 7, buf := some (some 0xFFFFFFFFFFFFF7FE) } }
    t.atStep .copy = true ∧ 2046 ≤ t.cfg.maxFrameBytes ∧ 7 < t.cfg.slotCount ∧
    bufAddr t.cfg 0xFFFFFFFFFFFFF7FE 0 + roundUp8 2046 ≤ 2 ^ t.cfg.hostAddrBits := by decide
theorem witness_SlotSteps : (full Config.tc .reject []).eng.slot = some 3 ∧
    (full Config.tc .advance []).eng.slot = some 3 := by decide
theorem witness_DeliverStep : (full Config.tc .deliver []).eng.len = some (.bytes 13) ∧
    (full Config.tc .deliver []).eng.buf = some (some 0x80000000) ∧ (full Config.tc .deliver []).eng.running = true ∧
    (let s := full Config.tc .deliver []
     { s with eng := { s.eng with running := false } }).eng.running = false := by decide

/-- WK_ABORT with the interrupt masked, with a slot done and with none. -/
theorem witness_AbortStep :
    let s := after (.wrMachi 0x2) ((live refCfg .abort []).capture [1] 1 false)
    s.atStep .abort = true ∧ s.cfg.mode = .interrupt ∧ s.dev.word s.cfg.offMachi &&& s.cfg.machiIrqEn = 0 ∧
    s.answer .rsr &&& s.cfg.doneMask ≠ 0 ∧ (live refCfg .abort []).answer .rsr &&& refCfg.doneMask = 0 ∧
    exec .wkAbort s = .next (after .wkAbort s) :=
  ⟨by decide, by decide, by decide, by decide, by decide, rfl⟩
theorem witness_BusRequests : ConfigOk State.reset.cfg ∧ State.reset.quiet ∧ State.reset.alive = true ∧
    7 < State.reset.cfg.slotCount ∧ 8 * 255 < State.reset.cfg.slotStride ∧ 8 * 255 < State.reset.cfg.txWindowBytes :=
  ⟨by decide, ⟨rfl, rfl⟩, by decide, by decide, by decide, by decide⟩

/-- Capture: the slot at `cons`, the slot seven places on (the ring's last), and a full ring. -/
theorem witness_Capture :
    let s := (live refCfg .idle []).withAgenda [.capture [1, 2] 2 true]
    Machine.Inv s ∧ s.cfg.refDevice = true ∧ roundUp8 2 ≤ s.cfg.slotStride ∧
    s.env.agenda = [.capture [1, 2] 2 true] ∧ s.dev.isFull ((s.dev.cons + 0) % s.cfg.slotCount) = false :=
  ⟨inv_idle ok_ref rfl rfl rfl rfl rfl rfl (by decide) (by decide) (by decide), by decide, by decide, rfl, by decide⟩
theorem witness_Capture_last :
    let s := live refCfg .idle []
    let t := { s with dev := { s.dev with cons := 3, full := [true, true, false, true, true, true, true, true] } }
    Machine.Inv t ∧ t.dev.isFull ((t.dev.cons + 7) % t.cfg.slotCount) = false ∧
    (∀ m', m' < 7 → t.dev.isFull ((t.dev.cons + m') % t.cfg.slotCount) = true) :=
  ⟨inv_idle ok_ref rfl rfl rfl rfl rfl rfl (by decide) (by decide) (by decide), by decide, by decide⟩
theorem witness_Capture_full :
    let s := live refCfg .idle []
    let t := { s with dev := { s.dev with full := List.replicate 8 true } }
    Machine.Inv t ∧ ∀ m, m < t.cfg.slotCount → t.dev.isFull m = true :=
  ⟨inv_idle ok_ref rfl rfl rfl rfl rfl rfl (by decide) (by decide) (by decide), by decide⟩

/-- The platform reports the next device access as failed. -/
def busFails (s : State) : State := { s with env := { s.env with busFail := some ⟨0, false⟩ } }

/-- The second access of a step (the write of `CtlRMW` in WK_EXIT; the length register of WK_DECODE, its failing read at
offset 0x58) and the first. -/
theorem witness_FailedDeviceAccess :
    let s := full refCfg .exit []
    let d := full refCfg .decode []
    ConfigOk s.cfg ∧ s.env.busFail = none ∧ exec .wkExit s = .next (after .wkExit s) ∧
    (after .wkExit s).trace = [] ++ .wr 0x008 0x00800002 :: [.rd 0x008 0x00000002] ++ s.trace ∧
    (PortEvent.wr 0x008 0x00800002).accessAt 0x008 ∧
    (after .wkExit (s.failingBus 1 false)).eng.fault = some ⟨.bus, 0x008⟩ ∧
    (after .wkDecode (d.failingBus 1 false)).eng.fault = some ⟨.bus, 0x058⟩ ∧
    (after .wkDecode (d.failingBus 0 false)).eng.fault = some ⟨.bus, 0x020⟩ :=
  ⟨by decide, rfl, rfl, by decide, .inr ⟨_, rfl⟩, by decide, by decide, by decide⟩

/-- V9 row 2 (the host read of `h + 8` fails); the second word of a WK_COPY; a frame that runs past host memory. -/
theorem witness_FailedHostAccess :
    let s := full refCfg .copy []
    ConfigOk s.cfg ∧ s.atStep .copy = true ∧ s.eng.len = some (.bytes 13) ∧ 13 ≤ s.cfg.maxFrameBytes ∧
    1 < words8 13 ∧ s.eng.slot = some 3 ∧ 3 < s.cfg.slotCount ∧ s.eng.buf = some (some 0x80000000) ∧
    bufAddr s.cfg 0x80000000 1 + 8 ≤ 2 ^ s.cfg.hostAddrBits ∧ s.up = true ∧ s.eng.running = true ∧
    (13 : BitVec 24).toNat ≤ s.cfg.txWindowBytes ∧ 8 < (13 : BitVec 24).toNat ∧
    (0x1000 : Word).toNat + 8 < 2 ^ s.cfg.hostAddrBits ∧
    1 = 2 ^ s.cfg.hostAddrBits - (0xFFFFFFFFFFFFFFFF : Word).toNat ∧
    (after (.txSend 13 0x1000) (s.failingMem 8 0)).eng.fault = some ⟨.hostMem, 0x1008⟩ := by decide
theorem witness_FailedHostAccess_quiet : (full refCfg .copy []).quiet := ⟨rfl, rfl⟩

/-- A step pointer past reset with no register written. -/
theorem witness_Unwritten :
    ((live Config.tc .alloc []).atStep .alloc = true ∧ (live Config.tc .alloc []).eng.len = none) ∧
    ((live Config.tc .decode []).atStep .decode = true ∧ (live Config.tc .decode []).eng.st = none) ∧
    ((live Config.tc .advance []).atStep .advance = true ∧ (live Config.tc .advance []).eng.slot = none) ∧
    ((live Config.tc .copy []).atStep .copy = true ∧ (live Config.tc .copy []).eng.len = none) ∧
    ((live Config.tc .deliver []).atStep .deliver = true ∧ (live Config.tc .deliver []).eng.buf = none) ∧
    (let s := live Config.tc .validate []
     let t := { s with eng := { s.eng with len := some .badlen } }
     t.atStep .validate = true ∧ t.eng.len = some .badlen ∧ t.eng.errs = none) := by decide

theorem witness_Inv_reset : Machine.Inv State.reset ∧ ConfigOk refCfg ∧ ∃ t, step State.reset = .next t :=
  ⟨inv_idle ok_tc rfl rfl rfl rfl rfl rfl (by decide) (by decide) (by decide), ok_ref, _, rfl⟩

/-- The invariant where every register is written, and a step from there. -/
theorem witness_Inv_copy : Machine.Inv (full refCfg .copy []) ∧ ∃ t, exec .wkCopy (full refCfg .copy []) = .next t :=
  ⟨inv_copy, _, rfl⟩
theorem witness_Busy : ((full refCfg .copy []).eng.busy = true ↔ (full refCfg .copy []).eng.wpc ≠ .idle) ∧
    ∃ t, exec .wkCopy (full refCfg .copy []) = .next t := ⟨inv_copy.busy, _, rfl⟩

/-- An engine step that does record a fault. -/
theorem witness_OnlyAccessFaults : Machine.Inv (busFails (full refCfg .copy [])) ∧
    (busFails (full refCfg .copy [])).alive = true ∧ isBus .wkCopy = false ∧ WellFormed refCfg .wkCopy = true ∧
    (after .wkCopy (busFails (full refCfg .copy []))).eng.fault = some ⟨.bus, 0x5800⟩ :=
  ⟨⟨ok_ref, rfl, inv_copy.busy, inv_copy.slot, inv_copy.len, inv_copy.registers, inv_copy.buf, inv_copy.ring⟩, by decide, by decide,
    by decide, by decide⟩
theorem witness_ControlBits : ConfigOk (live refCfg .idle []).cfg ∧ (live refCfg .idle []).cfg.refDevice = true ∧
    isBus .ifStart = false ∧ Instr.ifStart ≠ .evReset ∧ ∃ t, exec .ifStart (live refCfg .idle []) = .next t :=
  ⟨by decide, by decide, by decide, by decide, _, rfl⟩

/-- After reset and INIT the promiscuous flag and ALLPKTS agree. -/
theorem witness_Promisc :
    let s := live refCfg .idle []
    (s.eng.initDone = true → (s.eng.promisc = true ↔ s.dev.word s.cfg.offMachi &&& s.cfg.machiAllpkts ≠ 0)) ∧
    (s.eng.initDone = false → s.eng.promisc = false) ∧ isBus (.setPromisc true) = false ∧
    exec (.setPromisc true) s = .next (after (.setPromisc true) s) ∧ (after (.setPromisc true) s).eng.fault = none :=
  ⟨by decide, by decide, by decide, rfl, by decide⟩
theorem witness_NoStepChangesCfg : ∃ t, step State.reset = .next t := ⟨_, rfl⟩

/-- A byte of host memory that WK_COPY does change. -/
theorem witness_CopyWrites :
    let s := full Config.tc .copy [1, 2]
    exec .wkCopy s = .next (after .wkCopy s) ∧ (after .wkCopy s).mem.read 0x80000002 ≠ s.mem.read 0x80000002 :=
  ⟨rfl, by decide⟩
theorem witness_Reachable : Reachable Config.tc State.reset := .reset
theorem witness_ActivationEnds : Machine.Inv (full refCfg .copy []) ∧ refCfg.refDevice = true ∧
    (full refCfg .copy []).up = true ∧ (full refCfg .copy []).env.agenda = [] :=
  ⟨inv_copy, by decide, by decide, rfl⟩
theorem witness_RefAnswers : (live refCfg .idle []).cfg.refDevice = true := by decide

end Sys2Proof.Tests
end

section
/-! PROOFS. The configuration is fixed for a run (R9, R30): every operation keeps it, whichever way it ends, and so does
everything else a step boundary can bring. -/

namespace Sys2Proof.Machine

/-! ## Operations -/

/-- The state after has the configuration of the state before. -/
def SameCfg (s t : State) : Prop := t.cfg = s.cfg

theorem updEng_keeps_cfg (f : Engine → Engine) (s : State) : At SameCfg (updEng f) s := updEng_cfg s f

theorem devRead_keeps_cfg (off : Nat) (s : State) : At SameCfg (devRead off) s := (devRead_end off s).1

theorem devWrite_keeps_cfg (off : Nat) (v : Word) (s : State) : At SameCfg (devWrite off v) s := (devWrite_end off v s).1

theorem ctlRMW_keeps_cfg (clear set : Word) (s : State) : At SameCfg (ctlRMW clear set) s :=
  At.get_bind <| At.bind cfg_closed (devRead_keeps_cfg _ s) fun _ t _ _ => devWrite_keeps_cfg _ _ t

/-- Every primitive keeps the configuration. -/
theorem sameCfg_kept : Kept SameCfg where
  closed := cfg_closed
  cfg h := h
  eng f s _ := updEng_keeps_cfg f s
  emit e s := emit_cfg s e
  raise c i s := recordFault_cfg s c i
  draw s := popDraw_cfg s
  alloc s := popAlloc_cfg s
  read := devRead_keeps_cfg
  write off v s _ := devWrite_keeps_cfg off v s
  mask s := ctlRMW_keeps_cfg _ _ s
  unmask s := ctlRMW_keeps_cfg _ _ s
  memRead a s := (memRead_end a s).1

theorem initStep_keeps_cfg (s : State) : At SameCfg initStep s :=
  At.get_bind <| At.bind cfg_closed (ctlRMW_keeps_cfg _ _ s) fun _ t _ _ => updEng_keeps_cfg _ t

theorem setPromisc_keeps_cfg (on : Bool) (s : State) : At SameCfg (setPromisc on) s := by
  refine At.bind cfg_closed (updEng_keeps_cfg _ s) fun _ t _ _ => At.get_bind ?_
  split <;> exact At.bind cfg_closed (ctlRMW_keeps_cfg _ _ t) fun _ u _ _ => updEng_keeps_cfg _ u

/-- Every operation keeps the configuration, completed, failed or not enabled. -/
theorem exec_keeps_cfg {i : Instr} {s t : State} (h : exec i s = .next t) : t.cfg = s.cfg := by
  cases hb : isBus i with
  | true => exact exec_bus cfg_closed sameCfg_kept.raise devRead_keeps_cfg devWrite_keeps_cfg hb h
  | false =>
    by_cases h1 : i = .stInit
    · subst h1; exact At.gate cfg_closed (fun _ => initStep_keeps_cfg s) h
    by_cases h2 : ∃ on, i = .setPromisc on
    · obtain ⟨on, rfl⟩ := h2; exact At.gate cfg_closed (fun _ => setPromisc_keeps_cfg on s) h
    by_cases h3 : i = .evReset
    · subst h3; cases h; exact resetMachine_cfg s
    · exact exec_kept sameCfg_kept hb h1 (fun on he => h2 ⟨on, he⟩) h3 (fun _ a w s => (memWrite8_end a w s).1) h

/-! ## What the environment offers -/

@[simp] theorem rejectWord_cfg (s : State) (w : PortWord) : (s.rejectWord w).cfg = s.cfg := by
  cases w with
  | cmd c _ => simp only [State.rejectWord]; split <;> rfl
  | bus hdr _ => simp only [State.rejectWord]; split <;> rfl
  | evt _ | step _ => rfl

@[simp] theorem drawBytes_cfg (n : Nat) (s : State) : (drawBytes n s).2.cfg = s.cfg := (drawBytes_facts n s).2.cfg

@[simp] theorem capture_cfg (s : State) (f : List Byte) (r : Word) (e : Bool) : (s.capture f r e).cfg = s.cfg := by
  unfold State.capture
  split
  · split
    · rfl
    · exact drawBytes_cfg _ s
  · rfl

@[simp] theorem hostWrite_cfg (s : State) (a : Nat) (bs : List Byte) : (s.hostWrite a bs).cfg = s.cfg := by
  unfold State.hostWrite; split <;> rfl

/-- A step boundary brings an operation in, or as, a state whose configuration is `c`. -/
def Fetched.HasCfg (c : Config) : Fetched → Prop
  | .run _ t => t.cfg = c
  | .next t => t.cfg = c
  | .stop _ => True

theorem takeItem_hasCfg (s : State) (item : Item) : (takeItem s item).HasCfg s.cfg := by
  cases item with
  | port w =>
    simp only [takeItem]
    split
    · exact rfl
    · exact rejectWord_cfg s w
  | capture f r e => exact capture_cfg s f r e
  | hostWrite a bs => exact hostWrite_cfg s a bs
  | allocFail => exact rfl
  | deviceChange off v => simp only [takeItem]; split <;> exact rfl

theorem fetchInternal_hasCfg (s : State) : (fetchInternal s).HasCfg s.cfg := by
  unfold fetchInternal
  split
  · exact rfl
  · split
    · trivial
    · exact rfl

theorem fetch_hasCfg (s : State) : (fetch s).HasCfg s.cfg := by
  unfold fetch
  split
  · trivial
  · split
    · exact fetchInternal_hasCfg s
    · exact takeItem_hasCfg _ _

/-! ## The step -/

theorem Fetched.HasCfg.outcome {c : Config} {f : Fetched} {t : State} (hf : f.HasCfg c) (h : f.outcome = .next t) :
    t.cfg = c := by
  cases f with
  | run i u => exact (exec_keeps_cfg h).trans hf
  | next u => cases h; exact hf
  | stop r => cases h

/-- Settles O57: what the step boundary brings has the configuration of `s`, and running it keeps it. -/
theorem noStepChangesTheConfiguration : Obligations.NoStepChangesTheConfiguration := by
  intro s t h
  rw [step_eq] at h
  exact (fetch_hasCfg s).outcome h

end Sys2Proof.Machine
end

section
/-! PROOFS. The step boundary: which operations an engine has enabled (spec/10_state.md R33, R40, R41) and what a step is
when nothing is offered (spec/60_exceptions.md R257, R261). -/

namespace Sys2Proof.Machine

section
variable {s : State} {i : Instr} {w : Wpc}

/-! ## Enabled operations -/

theorem alive_iff : s.alive = true ↔ s.eng.fault = none := by simp [State.alive]

theorem up_iff : s.up = true ↔ s.eng.initDone = true ∧ s.eng.fault = none := by simp [State.up, alive_iff]

theorem atStep_iff : s.atStep w = true ↔ s.up = true ∧ s.eng.wpc = w := by simp [State.atStep]

/-- A worker step is enabled where E.wpc names it (R33). -/
theorem enables_workerStep (h : workerStep i = some w) : s.enables i = s.atStep w := by
  cases i <;> cases h <;> rfl

/-- A command, an event or a worker step is enabled only in an engine that is up (R40, R41). -/
theorem up_of_enables (hbus : isBus i = false) (hinit : i ≠ .stInit) (hreset : i ≠ .evReset)
    (h : s.enables i = true) : s.up = true := by
  cases i with
  | txSend | ifStart | ifStop | setPromisc | setCaps | getPromisc | getCaps | getMaxlen | readMac | readCounter =>
    exact h
  | evRxIrq | evPollTick | evWatchdogTick => exact (Bool.and_eq_true_iff.mp h).1
  | wkTest | wkDecode | wkValidate | wkReject | wkAlloc | wkCopy | wkAdvance | wkDeliver | wkExit | wkAbort =>
    exact (atStep_iff.mp h).1
  | evReset => exact absurd rfl hreset
  | stInit => exact absurd rfl hinit
  | rdMaclo | rdMachi | rdRsr | rdRbad | rdRplr | rdRxbuf | wrMachi | wrTplr | wrRsr | wrTxbuf => cases hbus

/-- Only EV_RESET is enabled in a faulted engine (R41). -/
theorem alive_of_enables (hreset : i ≠ .evReset) (h : s.enables i = true) : s.alive = true := by
  by_cases hinit : i = .stInit
  · subst hinit
    simp only [State.enables, State.initReady, Bool.and_eq_true] at h
    exact h.1.2
  cases hbus : isBus i with
  | true =>
    cases i with
    | rdMaclo | rdMachi | rdRsr | rdRbad | rdRplr | rdRxbuf | wrMachi | wrTplr | wrRsr | wrTxbuf => exact h
    | _ => cases hbus
  | false => exact alive_iff.mpr (up_iff.mp (up_of_enables hbus hinit hreset h)).2

/-! ## The internal agent -/

/-- The code of E.wpc is the code of the worker step it names (R33, R118). -/
theorem decodeStep_wpcCode (h : workerStep i = some w) : decodeStep (wpcCode w) = .ok i := by
  cases i <;> cases h <;> rfl

theorem internal_init (hf : s.eng.fault = none) (hi : s.eng.initDone = false) :
    s.internal = if s.env.setupOk then some .stInit else none := by
  simp [State.internal, alive_iff.mpr hf, hi]

theorem internal_worker (hf : s.eng.fault = none) (hi : s.eng.initDone = true) (h : workerStep i = some s.eng.wpc) :
    s.internal = some i := by
  simp [State.internal, alive_iff.mpr hf, hi, decodeStep_wpcCode h, Except.toOption]

theorem internal_faulted {r : FaultRecord} (h : s.eng.fault = some r) : s.internal = none := by
  simp [State.internal, State.alive, h]

theorem fetchInternal_run (h : s.internal = some i) : fetchInternal s = .run i s := by
  simp [fetchInternal, h]

theorem fetchInternal_keep (hf : s.eng.fault = none) (h : s.internal = none) : fetchInternal s = .next s := by
  simp [fetchInternal, h, hf]

theorem fetchInternal_halted {r : FaultRecord} (h : s.eng.fault = some r) : fetchInternal s = .stop (.halted r) := by
  simp [fetchInternal, internal_faulted h, h]

end

/-! ## The obligations -/

/-- Settles O9: with nothing offered the step is the one that `State.internal` names. -/
theorem stepRunsTheInternalAgent : Obligations.StepRunsTheInternalAgent := by
  intro s hc ha hf
  refine ⟨fun hi hs => ?_, fun hi hs => ?_, fun hi i w hw hp => ?_⟩
  · rw [step_internal hc ha, fetchInternal_run (i := .stInit) (by rw [internal_init hf hi, hs]; rfl), outcome_run]
  · rw [step_internal hc ha, fetchInternal_keep hf (by rw [internal_init hf hi, hs]; rfl), outcome_next]
  · subst hp
    rw [step_internal hc ha, fetchInternal_run (internal_worker hf hi hw), outcome_run]

/-- Settles O11: an enabled operation other than EV_RESET needs an engine with no fault. -/
theorem faultedEngineTakesOnlyReset : Obligations.FaultedEngineTakesOnlyReset := by
  refine ⟨fun s i hf hi => ?_, fun s r hc hf ha => ?_, fun s => ⟨s.resetMachine, rfl, rfl⟩⟩
  · exact exec_of_not_enabled (Bool.eq_false_iff.mpr fun he => hf (alive_iff.mp (alive_of_enables hi he)))
  · rw [step_internal hc ha, fetchInternal_halted hf, outcome_stop]

/-- Settles O12: an enabled command, event or worker step needs E.init_done. -/
theorem nothingRunsBeforeInit : Obligations.NothingRunsBeforeInit := by
  intro s i hi hinit hreset hbus
  refine exec_of_not_enabled (Bool.eq_false_iff.mpr fun he => ?_)
  have hup := up_of_enables hbus hinit hreset he
  rw [(up_iff.mp hup).1] at hi
  cases hi

/-- Settles O13: a worker step is enabled at its own step pointer only. -/
theorem workerStepNeedsItsPointer : Obligations.WorkerStepNeedsItsPointer := by
  intro s i w hw hp
  refine exec_of_not_enabled (Bool.eq_false_iff.mpr fun he => hp ?_)
  rw [enables_workerStep hw] at he
  exact (atStep_iff.mp he).2

end Sys2Proof.Machine
end

section
/-! PROOFS. The state after reset (spec/10_state.md R53; spec/70_reset_and_hazards.md R280): the engine's fields, and the
invariant under every configuration that passes the check. -/

namespace Sys2Proof.Machine

theorem reset_eng : State.reset.eng = Engine.reset State.reset.cfg := rfl

/-- Settles O15: each field of `Engine.reset` has the value of R53. -/
theorem resetValuesOfTheEngine : Obligations.ResetValuesOfTheEngine := by
  unfold Obligations.ResetValuesOfTheEngine
  rw [reset_eng]
  and_intros <;> rfl

/-- The invariant at reset: the worker is idle, no working register and no byte of memory is written, the ring is empty. -/
theorem inv_resetWith {c : Config} (h : ConfigOk c) : Inv (State.resetWith c) where
  config := h
  memory := rfl
  busy := ⟨nofun, fun hw => absurd rfl hw⟩
  slot := nofun
  len := nofun
  registers := trivial
  buf := nofun
  ring := ⟨Nat.lt_of_lt_of_le Nat.two_pos h.facts.ring, List.length_replicate, List.length_replicate⟩

/-- Settles O50: `State.reset` is the reset under the test configuration, which passes the check. -/
theorem resetSatisfiesTheInvariant : Obligations.ResetSatisfiesTheInvariant :=
  ⟨inv_resetWith (by decide), fun _ => inv_resetWith⟩

end Sys2Proof.Machine
end

section
/-! PROOFS. A read of a working register that holds no value (spec/10_state.md R32; spec/60_exceptions.md R251). -/

namespace Sys2Proof.Machine

section
variable {s : State}

theorem readSt_none (h : s.eng.st = none) : readSt s = .error () (s.recordFault .unwritten 0) := by
  simp [readSt, run_readReg, h]

theorem readSlot_none (h : s.eng.slot = none) : readSlot s = .error () (s.recordFault .unwritten 1) := by
  simp [readSlot, run_readReg, h]

theorem readErrs_none (h : s.eng.errs = none) : readErrs s = .error () (s.recordFault .unwritten 2) := by
  simp [readErrs, run_readReg, h]

theorem readLen_none (h : s.eng.len = none) : readLen s = .error () (s.recordFault .unwritten 4) := by
  simp [readLen, run_readReg, h]

theorem readLenBytes_none (h : s.eng.len = none) : readLenBytes s = .error () (s.recordFault .unwritten 4) := by
  simp [readLenBytes, readLen_none h]

theorem readBuf_none (h : s.eng.buf = none) : readBuf s = .error () (s.recordFault .unwritten 5) := by
  simp [readBuf, run_readReg, h]

/-- An engine with no fault takes the record as it is. -/
theorem recordFault_of_alive (hf : s.eng.fault = none) (code : FaultCode) (info : Word) :
    s.recordFault code info = { s with eng := { s.eng with fault := some ⟨code, info⟩ } } := by
  simp [State.recordFault, hf]

/-- An enabled worker step whose first effect is a fault changes nothing but the recorded fault. -/
theorem gate_raises {w : Wpc} {x : Op Unit} {code : FaultCode} {info : Word} (hs : s.atStep w = true)
    (hx : x s = .error () (s.recordFault code info)) :
    gate (s.atStep w) x s = .next { s with eng := { s.eng with fault := some ⟨code, info⟩ } } := by
  have hf := (up_iff.mp (atStep_iff.mp hs).1).2
  rw [gate_on hs, stateAfter_error hx, recordFault_of_alive hf]

end

/-- Settles O49: each of the six steps reads the register before it does anything else. -/
theorem unwrittenRegisterReadFaults : Obligations.UnwrittenRegisterReadFaults := by
  intro s
  refine ⟨fun hs h => gate_raises hs ?_, fun hs h => gate_raises hs ?_, fun hs h => gate_raises hs ?_,
    fun len hs hl h => gate_raises hs ?_, fun hs h => gate_raises hs ?_, fun hs h => gate_raises hs ?_⟩
  · simp only [wkDecode, run_bind, run_get, readSt_none h]
  · simp only [wkAdvance, run_bind, run_get, readSlot_none h]
  · simp only [wkAlloc, run_bind, run_get, readLen_none h]
  · simp only [wkValidate, run_bind, run_get, readLen_some hl, readErrs_none h]
  · simp only [wkCopy, run_bind, readLenBytes_none h]
  · simp only [wkDeliver, run_bind, run_get, readBuf_none h]

end Sys2Proof.Machine
end

section
/-! PROOFS. The faults an engine step can record (spec/10_state.md R32; spec/40_register_interface.md R136;
spec/60_exceptions.md R251). A step body is followed with the engine it has at each point: while the accesses complete the
engine changes only by the step's own assignments, and every register the step reads holds a value there. -/

namespace Sys2Proof.Machine

/-! ## Safe operations -/

/-- A fault recorded in `t` is a failed device access or a failed host access. -/
def OnlyAccessFault (t : State) : Prop := ∀ r, t.eng.fault = some r → r.code = .bus ∨ r.code = .hostMem

/-- From the engine `e`, with no fault and under the configuration `c`, the operation ends with no fault, an answer and an
engine as `Q` says, or with a failed access. -/
def Safe {α : Type} (c : Config) (e : Engine) (x : Op α) (Q : α → Engine → Prop) : Prop :=
  ∀ s : State, s.cfg = c → s.eng = e → s.eng.fault = none →
    Sat x s (fun a t => t.cfg = c ∧ t.eng.fault = none ∧ Q a t.eng) OnlyAccessFault

/-- `Safe` where the engine is still `e`. -/
def SafeRead {α : Type} (c : Config) (e : Engine) (x : Op α) : Prop := Safe c e x fun _ e' => e' = e

/-- `Safe` whatever the engine is at the end. -/
def SafeBody (c : Config) (e : Engine) (x : Op Unit) : Prop := Safe c e x fun _ _ => True

theorem onlyAccessFault_of_alive {t : State} (h : t.eng.fault = none) : OnlyAccessFault t :=
  fun r hr => by rw [h] at hr; cases hr

theorem onlyAccessFault_recordFault {s : State} {code : FaultCode} (hf : s.eng.fault = none)
    (hc : code = .bus ∨ code = .hostMem) (info : Word) : OnlyAccessFault (s.recordFault code info) := by
  intro r hr
  rw [recordFault_of_alive hf] at hr
  cases hr
  exact hc

section
variable {α β : Type} {c : Config} {e : Engine}

theorem Sat.of_ok {x : Op α} {s t : State} {a : α} {Q : α → State → Prop} {E : State → Prop} (h : x s = .ok a t)
    (hq : Q a t) : Sat x s Q E := by
  unfold Sat; rw [h]; exact hq

theorem Sat.of_error {x : Op α} {s t : State} {Q : α → State → Prop} {E : State → Prop} (h : x s = .error () t)
    (ht : E t) : Sat x s Q E := by
  unfold Sat; rw [h]; exact ht

theorem Safe.bind {x : Op α} {f : α → Op β} {Q : α → Engine → Prop} {R : β → Engine → Prop} (hx : Safe c e x Q)
    (hf : ∀ a e', Q a e' → Safe c e' (f a) R) : Safe c e (x >>= f) R :=
  fun s hc he hn => Sat.bind (hx s hc he hn) fun a t ⟨htc, htn, ht⟩ => hf a t.eng ht t htc rfl htn

theorem SafeRead.bind {x : Op α} {f : α → Op β} {R : β → Engine → Prop} (hx : SafeRead c e x)
    (hf : ∀ a, Safe c e (f a) R) : Safe c e (x >>= f) R :=
  Safe.bind hx fun a e' he => by rw [he]; exact hf a

theorem Safe.get_bind {f : State → Op β} {R : β → Engine → Prop}
    (hf : ∀ s : State, s.cfg = c → s.eng = e → Safe c e (f s) R) : Safe c e (get >>= f) R :=
  fun s hc he => hf s hc he s hc he

theorem SafeRead.pure (a : α) : SafeRead c e (Pure.pure a : Op α) := fun _ hc he hn => ⟨hc, hn, he⟩

theorem SafeRead.body {x : Op Unit} (hx : SafeRead c e x) : SafeBody c e x :=
  fun s hc he hn => (hx s hc he hn).mono (fun _ _ ⟨htc, htn, _⟩ => ⟨htc, htn, trivial⟩) fun _ h => h

/-- An operation that in the engine `e` answers `a` and changes nothing, as a read of a register that holds a value. -/
theorem Safe.known_bind {x : Op α} {a : α} {f : α → Op β} {R : β → Engine → Prop}
    (hx : ∀ s : State, s.eng = e → x s = .ok a s) (hf : Safe c e (f a) R) : Safe c e (x >>= f) R :=
  fun s hc he hn => Sat.bind (Q := fun b t => b = a ∧ t = s) (Sat.of_ok (hx s he) ⟨rfl, rfl⟩) fun _ _ ⟨hb, ht⟩ => by
    rw [hb, ht]; exact hf s hc he hn

/-- An assignment that leaves the fault field alone: the engine after it is the assigned one. -/
theorem Safe.updEng_bind {f : Engine → Engine} {g : Unit → Op β} {R : β → Engine → Prop}
    (hf : (f e).fault = e.fault) (hg : Safe c (f e) (g ()) R) : Safe c e (updEng f >>= g) R := by
  intro s hc he hn
  subst he
  exact hg (s.updEng f) hc rfl (hf.trans hn)

theorem SafeBody.updEng {f : Engine → Engine} (hf : (f e).fault = e.fault) : SafeBody c e (updEng f) := by
  intro s hc he hn
  subst he
  exact ⟨hc, hf.trans hn, trivial⟩

theorem SafeBody.respond (st : Status) (v : Word) : SafeBody c e (respond st v) := SafeBody.updEng rfl

theorem SafeBody.signal : SafeBody c e signal := SafeBody.updEng (by unfold Engine.signal; split <;> rfl)

theorem SafeRead.emit (ev : PortEvent) : SafeRead c e (emit ev) := fun _ hc he hn => ⟨hc, hn, he⟩

theorem SafeRead.alloc (n : Nat) : SafeRead c e (alloc n) := fun _ hc he hn => ⟨hc, hn, he⟩

theorem SafeRead.drawByte : SafeRead c e drawByte := fun s hc he hn => Sat.of_ok (run_drawByte s) ⟨hc, hn, he⟩

/-! ## Accesses -/

theorem SafeRead.devRead {off : Nat} {r : ReadReg} (hr : selectRead c off = some r) : SafeRead c e (devRead off) := by
  rintro s rfl rfl hn
  cases hd : s.busDue
  · exact Sat.of_ok (a := s.answer r) (t := s.afterRead off r) (by simp [Machine.devRead, hr, hd]) (by simp [hn])
  · exact Sat.of_error (devRead_fails hr hd) (onlyAccessFault_recordFault hn (.inl rfl) _)

theorem SafeRead.devWrite {off : Nat} {v : Word} {r : WriteReg} (hr : selectWrite c off = some r) :
    SafeRead c e (devWrite off v) := by
  rintro s rfl rfl hn
  cases hd : s.busDue
  · exact Sat.of_ok (a := ()) (t := s.afterWrite off v r) (by simp [Machine.devWrite, hr, hd]) (by simp [hn])
  · exact Sat.of_error (devWrite_fails hr hd) (onlyAccessFault_recordFault (by split <;> exact hn) (.inl rfl) _)

theorem SafeRead.ctlRMW (hc : ConfigFacts c) (clear set : Word) : SafeRead c e (ctlRMW clear set) := by
  refine Safe.get_bind fun s hs _ => ?_
  rw [hs]
  exact (SafeRead.devRead (selectRead_machi hc)).bind fun v => SafeRead.devWrite (selectWrite_machi hc)

theorem SafeRead.memRead (a : Nat) : SafeRead c e (memRead a) := by
  rintro s rfl rfl hn
  cases hi : s.inHost a 1
  · exact Sat.of_error (by simp [Machine.memRead, hi]) (onlyAccessFault_recordFault hn (.inr rfl) (BitVec.ofNat 64 a))
  cases hd : s.memDue
  · exact Sat.of_ok (a := s.mem.read a) (t := s.tickMem) (by simp [Machine.memRead, hi, hd]) ⟨rfl, hn, rfl⟩
  · exact Sat.of_error (by simp [Machine.memRead, hi, hd])
      (onlyAccessFault_recordFault (s := s.tickMem) hn (.inr rfl) (BitVec.ofNat 64 a))

theorem SafeRead.memWrite8 (a : Nat) (w : Word) : SafeRead c e (memWrite8 a w) := by
  rintro s rfl rfl hn
  cases hi : s.inHost a 8
  · exact Sat.of_error (by simp [Machine.memWrite8, hi]) (onlyAccessFault_recordFault hn (.inr rfl) (BitVec.ofNat 64 a))
  cases hd : s.memDue
  · exact Sat.of_ok (a := ()) (t := { s.tickMem with mem := s.mem.writeBytes a (bytesOf w 8) })
      (by simp [Machine.memWrite8, hi, hd]) ⟨rfl, hn, rfl⟩
  · exact Sat.of_error (by simp [Machine.memWrite8, hi, hd])
      (onlyAccessFault_recordFault (s := { s.tickMem with mem := s.mem.writeBytes a (s.landedBytes a w) }) hn
        (.inr rfl) (BitVec.ofNat 64 a))

/-! ## Commands, events and INIT: no working register is read -/

theorem SafeRead.txByte (h : Word) (len j : Nat) : SafeRead c e (txByte h len j) := by
  unfold Machine.txByte
  split
  · exact SafeRead.memRead _
  · exact SafeRead.drawByte

theorem SafeRead.txBytes (h : Word) (len n : Nat) : ∀ j, SafeRead c e (txBytes h len n j) := by
  induction n with
  | zero => exact fun _ => SafeRead.pure []
  | succ n ih =>
    exact fun j => (SafeRead.txByte h len j).bind fun b => (ih (j + 1)).bind fun bs => SafeRead.pure (b :: bs)

theorem SafeRead.txWord (h : Word) (len k : Nat) : SafeRead c e (txWord h len k) :=
  (SafeRead.txBytes h len 8 (8 * k)).bind fun bs => SafeRead.pure (ofBytes bs)

/-- Every word of the transmit copy lies in the window. -/
theorem SafeRead.txCopy (hc : ConfigFacts c) (h : Word) (len n : Nat) :
    ∀ k, 8 * (k + n) ≤ c.txWindowBytes → SafeRead c e (txCopy h len n k) := by
  induction n with
  | zero => exact fun _ _ => SafeRead.pure ()
  | succ n ih =>
    intro k hk
    refine (SafeRead.txWord h len k).bind fun w => Safe.get_bind fun s hs _ => ?_
    rw [hs]
    exact (SafeRead.devWrite (selectWrite_tx hc (by omega))).bind fun _ => ih (k + 1) (by omega)

theorem SafeBody.txDrop (h : Word) (len : Nat) : SafeBody c e (txDrop h len) :=
  (SafeRead.emit _).bind fun _ => SafeBody.respond _ _

theorem SafeBody.txSend (hc : ConfigFacts c) (len : Nat) (h : Word) : SafeBody c e (txSend len h) := by
  refine Safe.get_bind fun s hs _ => ?_
  split
  · exact SafeBody.txDrop h len
  split
  · exact SafeBody.txDrop h len
  · next hl =>
    have hw : 8 * (0 + words8 len) ≤ c.txWindowBytes := by
      have := hc.tx8; rw [hs] at hl; unfold words8; omega
    refine Safe.get_bind fun u hu _ => (SafeRead.txCopy hc h len _ 0 hw).bind fun _ => ?_
    rw [hu]
    exact (SafeRead.devWrite (selectWrite_tplr hc)).bind fun _ => Safe.updEng_bind rfl <|
      (SafeRead.emit _).bind fun _ => SafeBody.respond _ _

theorem SafeBody.ifStart (hc : ConfigFacts c) : SafeBody c e ifStart := by
  refine Safe.updEng_bind rfl (Safe.get_bind fun s _ _ => ?_)
  split
  · exact (SafeRead.ctlRMW hc _ _).bind fun _ => SafeBody.respond _ _
  · exact SafeBody.respond _ _

theorem SafeBody.ifStop : SafeBody c e ifStop := Safe.updEng_bind rfl (SafeBody.respond _ _)

theorem SafeBody.setPromisc (hc : ConfigFacts c) (on : Bool) : SafeBody c e (setPromisc on) := by
  refine Safe.updEng_bind rfl (Safe.get_bind fun s _ _ => ?_)
  split <;> exact (SafeRead.ctlRMW hc _ _).bind fun _ => SafeBody.respond _ _

theorem SafeBody.setCaps (req : BitVec 24) : SafeBody c e (setCaps req) := by
  unfold Machine.setCaps
  split
  · exact Safe.updEng_bind rfl (SafeBody.respond _ _)
  · exact SafeBody.respond _ _

theorem SafeBody.readMac (hc : ConfigFacts c) : SafeBody c e readMac := by
  refine Safe.get_bind fun s hs _ => ?_
  rw [hs]
  exact (SafeRead.devRead (selectRead_machi hc)).bind fun _ =>
    (SafeRead.devRead (selectRead_maclo hc)).bind fun _ => SafeBody.respond _ _

/-- A well-formed `sel` selects a counter (R113). -/
theorem counter_some {sel : BitVec 3} (h : sel.toNat ≤ 4) (e : Engine) : ∃ v, e.counter sel = some v := by
  have hsel : sel.toNat = 0 ∨ sel.toNat = 1 ∨ sel.toNat = 2 ∨ sel.toNat = 3 ∨ sel.toNat = 4 := by omega
  rcases hsel with h | h | h | h | h <;> simp [Engine.counter, h]

theorem SafeBody.readCounter {sel : BitVec 3} (h : sel.toNat ≤ 4) : SafeBody c e (readCounter sel) := by
  refine Safe.get_bind fun s _ _ => ?_
  obtain ⟨v, hv⟩ := counter_some h s.eng
  rw [hv]
  exact SafeBody.respond .ok v

theorem SafeBody.fastPath (hc : ConfigFacts c) : SafeBody c e fastPath := by
  refine Safe.get_bind fun s hs _ => ?_
  rw [hs]
  split
  · refine (SafeRead.devRead (selectRead_rsr hc)).bind fun st0 => ?_
    split
    · exact (SafeRead.ctlRMW hc _ _).bind fun _ => SafeBody.signal
    · exact (SafeRead.pure ()).body
  · exact (SafeRead.pure ()).body

theorem SafeBody.checkAndSignal (hc : ConfigFacts c) : SafeBody c e checkAndSignal := by
  refine Safe.get_bind fun s hs _ => ?_
  rw [hs]
  split
  · refine (SafeRead.devRead (selectRead_rsr hc)).bind fun st0 => ?_
    split
    · exact SafeBody.signal
    · exact (SafeRead.pure ()).body
  · exact (SafeRead.pure ()).body

theorem SafeBody.pollTick (hc : ConfigFacts c) : SafeBody c e pollTick := by
  refine Safe.get_bind fun s _ _ => ?_
  split
  · exact SafeBody.checkAndSignal hc
  · exact (SafeRead.pure ()).body

theorem SafeBody.initStep (hc : ConfigFacts c) : SafeBody c e initStep :=
  Safe.get_bind fun _ _ _ => (SafeRead.ctlRMW hc _ _).bind fun _ => SafeBody.updEng rfl

/-! ## Worker steps: every register the step reads holds a value at its step pointer (R32, R177 to R187) -/

theorem accept_le {n i : Nat} {errs : Word} (h : accept c (.bytes n) errs i = true) : n ≤ c.maxFrameBytes := by
  simp only [accept, lenOk, Bool.and_eq_true, decide_eq_true_eq] at h
  exact h.1

theorem Decoded.slot_lt (hc : ConfigFacts c) (h : Decoded c e) : ∃ i, e.slot = some i ∧ i < c.slotCount := by
  obtain ⟨st, -, -, hi⟩ := h.slot
  exact ⟨_, hi, slotOf_lt hc st⟩

theorem Accepted.len_le (h : Accepted c e) : ∃ n, e.len = some (.bytes n) ∧ n ≤ c.maxFrameBytes := by
  obtain ⟨n, errs, i, hl, -, -, ha⟩ := h
  exact ⟨n, hl, accept_le ha⟩

theorem SafeBody.wkTest (hc : ConfigFacts c) : SafeBody c e wkTest := by
  refine Safe.get_bind fun s hs _ => ?_
  rw [hs]
  exact (SafeRead.devRead (selectRead_rsr hc)).bind fun w => SafeBody.updEng rfl

theorem SafeBody.wkDecode (hc : ConfigFacts c) (h : RegistersAt c e .decode) : SafeBody c e wkDecode := by
  obtain ⟨st, hst, -⟩ := h
  refine Safe.get_bind fun s hs _ => Safe.known_bind (fun _ hu => readSt_some (hu ▸ hst)) ?_
  rw [hs]
  exact Safe.updEng_bind rfl <| (SafeRead.devRead (selectRead_rbad hc)).bind fun errs => Safe.updEng_bind rfl <|
    (SafeRead.devRead (selectRead_rplr hc (slotOf_lt hc st))).bind fun raw => SafeBody.updEng rfl

theorem SafeBody.wkValidate (h : RegistersAt c e .validate) : SafeBody c e wkValidate := by
  obtain ⟨st, -, -, hi⟩ := h.slot
  obtain ⟨errs, he⟩ := h.errs
  obtain ⟨raw, trim, -, hl⟩ := h.len
  exact Safe.get_bind fun s _ _ => Safe.known_bind (fun _ hu => readLen_some (hu ▸ hl)) <|
    Safe.known_bind (fun _ hu => readErrs_some (hu ▸ he)) <|
    Safe.known_bind (fun _ hu => readSlot_some (hu ▸ hi)) <| SafeBody.updEng rfl

theorem SafeBody.wkReject (hc : ConfigFacts c) (h : RegistersAt c e .reject) : SafeBody c e wkReject := by
  obtain ⟨st, -, -, hi⟩ := h.slot
  refine Safe.get_bind fun s hs _ => Safe.updEng_bind rfl <|
    Safe.known_bind (fun _ hu => readSlot_some (by rw [hu]; exact hi)) ?_
  rw [hs]
  exact (SafeRead.devWrite (selectWrite_rsr hc)).bind fun _ => SafeBody.updEng rfl

theorem SafeBody.wkAlloc (h : RegistersAt c e .alloc) : SafeBody c e wkAlloc := by
  obtain ⟨n, hl, -⟩ := h.2.len_le
  exact Safe.get_bind fun s _ _ => Safe.known_bind (fun _ hu => readLen_some (hu ▸ hl)) <|
    (SafeRead.alloc _).bind fun b => SafeBody.updEng (by cases b <;> rfl)

/-- Every word of the receive copy lies in its slot. -/
theorem SafeRead.rxCopy (hc : ConfigFacts c) {i : Nat} {b : Word} (hi : e.slot = some i) (hlt : i < c.slotCount)
    (hb : e.buf = some (some b)) (n : Nat) : ∀ k, 8 * (k + n) ≤ c.slotStride → SafeRead c e (rxCopy n k) := by
  induction n with
  | zero => exact fun _ _ => SafeRead.pure ()
  | succ n ih =>
    intro k hk
    refine Safe.get_bind fun s hs _ => Safe.known_bind (fun _ hu => readSlot_some (hu ▸ hi)) ?_
    rw [hs]
    exact (SafeRead.devRead (selectRead_rx hc hlt (by omega))).bind fun w =>
      Safe.known_bind (fun _ hu => readBuf_some (hu ▸ hb)) <|
      (SafeRead.memWrite8 _ w).bind fun _ => ih (k + 1) (by omega)

theorem SafeBody.wkCopy (hc : ConfigFacts c) (h : RegistersAt c e .copy) : SafeBody c e wkCopy := by
  obtain ⟨hd, ha, b, hb⟩ := h
  obtain ⟨i, hi, hlt⟩ := hd.slot_lt hc
  obtain ⟨n, hl, hn⟩ := ha.len_le
  have hw : 8 * (0 + words8 n) ≤ c.slotStride := by
    have := hc.strideFits; unfold roundUp8 at this; unfold words8; omega
  exact Safe.known_bind (fun _ hu => readLenBytes_some (hu ▸ hl)) <|
    (SafeRead.rxCopy hc hi hlt hb _ 0 hw).bind fun _ => SafeBody.updEng rfl

theorem SafeBody.wkAdvance (hc : ConfigFacts c) (h : RegistersAt c e .advance) : SafeBody c e wkAdvance := by
  obtain ⟨i, hi, -⟩ := h.1.slot_lt hc
  refine Safe.get_bind fun s hs _ => Safe.known_bind (fun _ hu => readSlot_some (hu ▸ hi)) ?_
  rw [hs]
  exact (SafeRead.devWrite (selectWrite_rsr hc)).bind fun _ => SafeBody.updEng rfl

theorem SafeBody.wkDeliver (h : RegistersAt c e .deliver) : SafeBody c e wkDeliver := by
  obtain ⟨-, ha, b, hb⟩ := h
  obtain ⟨n, hl, -⟩ := ha.len_le
  refine Safe.get_bind fun s _ _ => Safe.known_bind (fun _ hu => readBuf_some (hu ▸ hb)) ?_
  split
  · exact Safe.known_bind (fun _ hu => readLenBytes_some (hu ▸ hl)) <| (SafeRead.emit _).bind fun _ =>
      Safe.updEng_bind rfl <| SafeBody.updEng rfl
  · exact (SafeRead.emit _).bind fun _ => Safe.updEng_bind rfl <| SafeBody.updEng rfl

theorem SafeBody.wkExit (hc : ConfigFacts c) : SafeBody c e wkExit := by
  refine Safe.updEng_bind rfl (Safe.get_bind fun s _ _ => ?_)
  split
  · exact (SafeRead.ctlRMW hc _ _).body
  · exact (SafeRead.pure ()).body

end

/-! ## Every operation -/

theorem SafeBody.gate {b : Bool} {x : Op Unit} {s t : State} (hf : s.eng.fault = none)
    (hx : b = true → SafeBody s.cfg s.eng x) (h : gate b x s = .next t) : OnlyAccessFault t := by
  cases hb : b
  · rw [gate_off hb] at h; cases h
    exact onlyAccessFault_of_alive hf
  · rw [gate_on hb] at h; cases h
    exact ((hx hb s rfl rfl hf).mono (fun _ _ ⟨_, htn, _⟩ => onlyAccessFault_of_alive htn) fun _ ht => ht).stateAfter

/-- A worker step is taken where the invariant fills the registers it reads. -/
theorem SafeBody.gateAt {w : Wpc} {x : Op Unit} {s t : State} (hs : Inv s) (hf : s.eng.fault = none)
    (hx : RegistersAt s.cfg s.eng w → SafeBody s.cfg s.eng x) (h : Machine.gate (s.atStep w) x s = .next t) :
    OnlyAccessFault t :=
  SafeBody.gate hf (fun hw => hx (by rw [← (atStep_iff.mp hw).2]; exact hs.registers)) h

/-- From a state of the invariant a well-formed operation of an engine agent records at most a failed access. -/
theorem exec_onlyAccessFault {i : Instr} {s t : State} (hs : Inv s) (hf : s.eng.fault = none) (hbus : isBus i = false)
    (hw : WellFormed s.cfg i = true) (h : exec i s = .next t) : OnlyAccessFault t := by
  have hc := hs.config.facts
  cases i with
  | txSend len w => exact SafeBody.gate hf (fun _ => SafeBody.txSend hc _ w) h
  | ifStart => exact SafeBody.gate hf (fun _ => SafeBody.ifStart hc) h
  | ifStop => exact SafeBody.gate hf (fun _ => SafeBody.ifStop) h
  | setPromisc on => exact SafeBody.gate hf (fun _ => SafeBody.setPromisc hc on) h
  | setCaps req => exact SafeBody.gate hf (fun _ => SafeBody.setCaps req) h
  | getPromisc | getCaps | getMaxlen =>
    exact SafeBody.gate hf (fun _ => Safe.get_bind fun _ _ _ => SafeBody.respond _ _) h
  | readMac => exact SafeBody.gate hf (fun _ => SafeBody.readMac hc) h
  | readCounter sel => exact SafeBody.gate hf (fun _ => SafeBody.readCounter (of_decide_eq_true hw)) h
  | evRxIrq => exact SafeBody.gate hf (fun _ => SafeBody.fastPath hc) h
  | evPollTick => exact SafeBody.gate hf (fun _ => SafeBody.pollTick hc) h
  | evWatchdogTick => exact SafeBody.gate hf (fun _ => SafeBody.checkAndSignal hc) h
  | evReset => cases h; exact onlyAccessFault_of_alive rfl
  | stInit => exact SafeBody.gate hf (fun _ => SafeBody.initStep hc) h
  | wkTest => exact SafeBody.gateAt hs hf (fun _ => SafeBody.wkTest hc) h
  | wkDecode => exact SafeBody.gateAt hs hf (SafeBody.wkDecode hc) h
  | wkValidate => exact SafeBody.gateAt hs hf SafeBody.wkValidate h
  | wkReject => exact SafeBody.gateAt hs hf (SafeBody.wkReject hc) h
  | wkAlloc => exact SafeBody.gateAt hs hf SafeBody.wkAlloc h
  | wkCopy => exact SafeBody.gateAt hs hf (SafeBody.wkCopy hc) h
  | wkAdvance => exact SafeBody.gateAt hs hf (SafeBody.wkAdvance hc) h
  | wkDeliver => exact SafeBody.gateAt hs hf SafeBody.wkDeliver h
  | wkExit => exact SafeBody.gateAt hs hf (fun _ => SafeBody.wkExit hc) h
  | wkAbort => exact SafeBody.gate hf (fun _ => SafeBody.updEng rfl) h
  | rdMaclo | rdMachi | rdRsr | rdRbad | rdRplr | rdRxbuf | wrMachi | wrTplr | wrRsr | wrTxbuf => cases hbus

/-- Settles O53: under the invariant every offset a step accesses selects a row, and every register it reads holds a
value, so that only a failed access ends it. -/
theorem engineStepsRaiseOnlyAccessFaults : Obligations.EngineStepsRaiseOnlyAccessFaults :=
  fun _ _ _ r hs ha hbus hw h => exec_onlyAccessFault hs (alive_iff.mp ha) hbus hw h r

end Sys2Proof.Machine
end

section
/-! PROOFS. The device side of memory: what a write request on the window does (spec/20_memory.md R80, R81, R90), what the
reference device answers to a read (R90), and what its capture step stores (R91). -/

namespace Sys2Proof.Machine

/-! ## Write requests -/

/-- A write request in range, where no access fails: the one write of its row. -/
theorem busWrite_leaves {s : State} {inRange : Bool} {r : WriteReg} (v : Word) (hc : ConfigOk s.cfg) (hq : s.quiet)
    (ha : s.alive = true) (hi : inRange = true) (hr : writeInRange s.cfg r) :
    ∃ t, gate s.alive (busWrite inRange r v) s = .next t ∧
      Leaves s t s.eng (applyWrite s.cfg s.dev v r) s.mem [.wr (writeOffset s.cfg r) v] := by
  refine ⟨s.afterWrite (writeOffset s.cfg r) v r, ?_, rfl, rfl, rfl, rfl, rfl, rfl⟩
  rw [gate_on ha, stateAfter_ok (a := ())]
  simp only [busWrite, run_bind, run_get, hi, if_true, devWrite_ok hq.1 (selectWrite_offset hc.facts hr)]

/-- TPLR lies outside the transmit window, so a write to it changes no byte of the frame it sends. -/
theorem sentFrame_store_tplr {c : Config} (hc : ConfigFacts c) (d : Device) (v : Word) (n : Nat) :
    sentFrame c (d.store c.offTplr v) n = sentFrame c d n := by
  refine List.map_congr_left fun j hj => ?_
  have hj : j < min n c.txWindowBytes := List.mem_range.mp hj
  have hne : txAddr c (j / 8) ≠ c.offTplr :=
    hc.regionsApart.tplr_tx.ne (Nat.le_add_right _ _) (Nat.add_lt_add_left (by omega) _)
  simp only [txWindowByte, word_store_ne d v hne]

/-- A write to TPLR stores the word; under `REF_DEVICE` it also sends a frame (R90). -/
theorem applyWrite_tplr (c : Config) (d : Device) (v : Word) :
    applyWrite c d v .tplr = { d.store c.offTplr v with
      wire := if c.refDevice then d.wire ++ [sentFrame c d v.toNat] else d.wire } := by
  simp only [applyWrite]; split <;> rfl

/-- Settles O44: each request is one write, and `applyWrite` says what that write does. -/
theorem busWritesHaveTheirDeviceEffect : Obligations.BusWritesHaveTheirDeviceEffect := by
  intro s v hc hq ha
  refine ⟨busWrite_leaves v hc hq ha rfl (r := .machi) trivial, ?_,
    busWrite_leaves v hc hq ha rfl (r := .rsr) trivial,
    fun k hk => busWrite_leaves v hc hq ha (decide_eq_true hk) (r := .txbuf k) hk⟩
  rw [sentFrame_store_tplr hc.facts, ← applyWrite_tplr]
  exact busWrite_leaves v hc hq ha rfl (r := .tplr) trivial

/-! ## What the reference device answers -/

/-- A bit of an OR over the listed slots that satisfy `p` is set exactly where one of their words has it. -/
theorem getLsbD_foldr_or (p : Nat → Bool) (w : Nat → Word) (j : Nat) (l : List Nat) :
    (l.foldr (fun i acc => if p i then w i ||| acc else acc) 0).getLsbD j = true ↔
      ∃ i ∈ l, p i = true ∧ (w i).getLsbD j = true := by
  induction l with
  | nil => simp
  | cons i l ih =>
    rw [List.foldr_cons, List.exists_mem_cons_iff, ← ih]
    cases p i <;> simp

/-- A bit of RBAD is set exactly where a full bad slot's shifted `BASE_ERR` has it (R90). -/
theorem getLsbD_refRbad (c : Config) (d : Device) (j : Nat) :
    (refRbad c d).getLsbD j = true ↔
      ∃ i, i < c.slotCount ∧ d.isFull i = true ∧ d.isBad i = true ∧ (c.baseErr <<< i).getLsbD j = true := by
  unfold refRbad
  rw [getLsbD_foldr_or]
  simp only [List.mem_range, Bool.and_eq_true, and_assoc]

/-- Settles O45: the reference device's answer to each read row. -/
theorem referenceDeviceAnswersReads : Obligations.ReferenceDeviceAnswersReads := by
  intro s hr
  simp only [answer_ref hr]
  exact ⟨rfl, getLsbD_refRbad s.cfg s.dev, fun _ => rfl, fun _ _ => rfl, rfl, rfl⟩

/-! ## The slot a capture fills -/

/-- The first slot in ring order that is not full, `m` places after the index (R91). -/
theorem firstFree_eq_some {c : Config} {d : Device} {m : Nat} (hm : m < c.slotCount)
    (hfree : d.isFull ((d.cons + m) % c.slotCount) = false)
    (hfull : ∀ m', m' < m → d.isFull ((d.cons + m') % c.slotCount) = true) :
    d.firstFree c = some ((d.cons + m) % c.slotCount) := by
  have hfind : (List.range c.slotCount).find? (fun i => !d.isFull ((d.cons + i) % c.slotCount)) = some m :=
    List.find?_range_eq_some.mpr ⟨by simp [hfree], List.mem_range.mpr hm, fun j hj => by simp [hfull j hj]⟩
  rw [Device.firstFree, List.find?_map]
  exact congrArg (Option.map fun i => (d.cons + i) % c.slotCount) hfind

theorem firstFree_eq_none {c : Config} {d : Device} (hfull : ∀ m, m < c.slotCount → d.isFull m = true) :
    d.firstFree c = none := by
  refine List.find?_eq_none.mpr fun q hq => ?_
  obtain ⟨i, hi, rfl⟩ := List.mem_map.mp hq
  have hpos : 0 < c.slotCount := Nat.zero_lt_of_lt (List.mem_range.mp hi)
  simp [hfull _ (Nat.mod_lt _ hpos)]

/-! ## What it stores there -/

theorem rxAddr_eq_add (c : Config) (p k : Nat) : rxAddr c p k = rxAddr c p 0 + 8 * k := rfl

/-- A mark of the ring after one of them is set (R90). -/
theorem getD_set {α : Type} {l : List α} {p : Nat} (hp : p < l.length) (v d : α) (q : Nat) :
    (l.set p v).getD q d = if q = p then v else l.getD q d := by
  by_cases h : q = p
  · subst h; simp [hp]
  · rw [if_neg h]; simp [Ne.symm h]

/-- The length registers and the receive window share no word. -/
theorem rxAddr_ne_rplr {c : Config} (hc : ConfigFacts c) {p q k : Nat} (hp : p < c.slotCount) (hq : q < c.slotCount)
    (hk : 8 * k < c.slotStride) : rxAddr c p k ≠ readOffset c (.rplr q) := by
  intro he
  have hrx := rxbuf_end (c := c) hp
  have hrp := rplr_end (c := c) hq
  have h8 := hc.rplr
  simp only [rxAddr, readOffset] at he
  exact hc.regionsApart.rplr_rx.outside (x := c.offRxbuf + p * c.slotStride + 8 * k) (by omega) (by omega) (by omega)

/-- The padded frame has as many window words as the frame. -/
theorem words8_padded {f pad : List Byte} (h : pad.length = roundUp8 f.length - f.length) :
    words8 (f ++ pad).length = words8 f.length := by
  rw [List.length_append, h]
  simp only [words8, roundUp8]; omega

/-- A word of the device after a capture: the length register holds the raw length, the other words are those of the
padded frame stored over the slot. -/
theorem word_fillSlot (c : Config) (d : Device) (p : Nat) (bs : List Byte) (r : Word) (e : Bool) (off : Nat) :
    (d.fillSlot c p bs r e).word off = if off = readOffset c (.rplr p) then r
      else (d.storeWords (rxAddr c p 0) (wordsOf bs (words8 bs.length))).word off :=
  word_store _ _ _ _

theorem isFull_fillSlot {c : Config} {d : Device} {p : Nat} (hp : p < d.full.length) (bs : List Byte) (r : Word) (e : Bool)
    (q : Nat) : (d.fillSlot c p bs r e).isFull q = if q = p then true else d.isFull q :=
  getD_set hp true false q

theorem isBad_fillSlot {c : Config} {d : Device} {p : Nat} (hp : p < d.bad.length) (bs : List Byte) (r : Word) (e : Bool)
    (q : Nat) : (d.fillSlot c p bs r e).isBad q = if q = p then e else d.isBad q :=
  getD_set hp e false q

theorem fillSlot_cons (c : Config) (d : Device) (p : Nat) (bs : List Byte) (r : Word) (e : Bool) :
    (d.fillSlot c p bs r e).cons = d.cons := by
  obtain ⟨hcons, -⟩ := storeWords_facts (wordsOf bs (words8 bs.length)) d (rxAddr c p 0)
  exact hcons

theorem fillSlot_wire (c : Config) (d : Device) (p : Nat) (bs : List Byte) (r : Word) (e : Bool) :
    (d.fillSlot c p bs r e).wire = d.wire := by
  obtain ⟨-, -, -, hwire, -⟩ := storeWords_facts (wordsOf bs (words8 bs.length)) d (rxAddr c p 0)
  exact hwire

/-- Byte `j` of the stored frame (R75), in a slot that the padded frame fits. -/
theorem byteOf_fillSlot {c : Config} (hc : ConfigFacts c) (d : Device) {p : Nat} (hp : p < c.slotCount) {f pad : List Byte}
    (hfit : roundUp8 f.length ≤ c.slotStride) (hpad : pad.length = roundUp8 f.length - f.length) (r : Word) (e : Bool)
    {j : Nat} (hj : j < f.length) :
    byteOf ((d.fillSlot c p (f ++ pad) r e).word (rxAddr c p (j / 8))) (j % 8) = f[j] := by
  have hk : j / 8 < words8 f.length := by simp only [words8]; omega
  have hin : 8 * (j / 8) < c.slotStride := by simp only [words8, roundUp8] at hk hfit; omega
  have hlen : j / 8 < (wordsOf (f ++ pad) (words8 (f ++ pad).length)).length := by
    rw [wordsOf_length, words8_padded hpad]; exact hk
  obtain ⟨-, -, -, -, -, hword⟩ := storeWords_facts (wordsOf (f ++ pad) (words8 (f ++ pad).length)) d (rxAddr c p 0)
  rw [word_fillSlot, if_neg (rxAddr_ne_rplr hc hp hp hin), rxAddr_eq_add c p (j / 8), hword _ hlen,
    wordsOf_byte _ _ _ hlen _ (Nat.mod_lt _ (by decide)), Nat.div_add_mod]
  simp [List.getElem?_append_left hj, hj]

/-- Outside the words the frame covers and the length register of its slot nothing is stored. -/
theorem word_fillSlot_outside {c : Config} (d : Device) {p off : Nat} {f pad : List Byte}
    (hpad : pad.length = roundUp8 f.length - f.length) (r : Word) (e : Bool)
    (hrx : ∀ k, k < words8 f.length → off ≠ rxAddr c p k) (hrplr : off ≠ readOffset c (.rplr p)) :
    (d.fillSlot c p (f ++ pad) r e).word off = d.word off := by
  obtain ⟨-, -, -, -, hothers, -⟩ := storeWords_facts (wordsOf (f ++ pad) (words8 (f ++ pad).length)) d (rxAddr c p 0)
  rw [word_fillSlot, if_neg hrplr]
  refine hothers off fun k hk => ?_
  rw [wordsOf_length, words8_padded hpad] at hk
  exact hrx k hk

/-! ## The capture step -/

/-- A captured frame goes, padded with drawn bytes, to the first empty slot; besides the device only draws are used up. -/
theorem capture_fills {s : State} {f : List Byte} {p : Nat} (hr : s.cfg.refDevice = true)
    (hfit : roundUp8 f.length ≤ s.cfg.slotStride) (hfree : s.dev.firstFree s.cfg = some p) (r : Word) (e : Bool) :
    ∃ (pad : List Byte) (t : State), pad.length = roundUp8 f.length - f.length ∧ OnlyDraws s t ∧
      s.capture f r e = t.updDev fun d => d.fillSlot s.cfg p (f ++ pad) r e := by
  obtain ⟨hlen, hdraws⟩ := drawBytes_facts (roundUp8 f.length - f.length) s
  exact ⟨_, _, hlen, hdraws, by simp [State.capture, State.captures, hr, hfit, hfree]⟩

/-- A full ring loses the frame. -/
theorem capture_lost {s : State} (f : List Byte) (r : Word) (e : Bool) (hfree : s.dev.firstFree s.cfg = none) :
    s.capture f r e = s := by
  simp [State.capture, hfree]

/-- Settles O46: the offered capture is taken, and `firstFree` finds the first empty slot in ring order. -/
theorem captureFillsTheFirstEmptySlot : Obligations.CaptureFillsTheFirstEmptySlot := by
  intro s f r e rest hinv hr hfit ha
  have hstep : step s = .next ((s.withAgenda rest).capture f r e) := step_offer hinv.config ha
  have hc := hinv.config.facts
  obtain ⟨-, hfullLen, hbadLen⟩ := hinv.ring
  refine ⟨fun m p hm hp hfree hfull => ?_, fun hfull => ?_⟩
  · have hpc : p < s.cfg.slotCount := hp ▸ Nat.mod_lt _ (Nat.zero_lt_of_lt hm)
    have hfirst : s.dev.firstFree s.cfg = some p := hp ▸ firstFree_eq_some hm (hp ▸ hfree) hfull
    obtain ⟨pad, t, hpad, ht, hcap⟩ := capture_fills (s := s.withAgenda rest) hr hfit hfirst r e
    have hdev : ((s.withAgenda rest).capture f r e).dev = s.dev.fillSlot s.cfg p (f ++ pad) r e := by
      rw [hcap, updDev_dev, ht.dev]; rfl
    refine ⟨_, hstep, ?_, ?_, ?_, ?_⟩
    · rw [hcap]; exact ht.eng
    · rw [hcap]; exact ht.mem
    · rw [hcap]; exact ht.trace
    rw [hdev]
    refine ⟨?_, ?_, ?_, fun j hj => byteOf_fillSlot hc _ hpc hfit hpad r e hj, fun q hq => ⟨?_, ?_⟩,
      fun off => word_fillSlot_outside _ hpad r e, fillSlot_cons .., fillSlot_wire ..⟩
    · rw [isFull_fillSlot (by omega), if_pos rfl]
    · rw [isBad_fillSlot (by omega), if_pos rfl]
    · exact (word_fillSlot ..).trans (if_pos rfl)
    · rw [isFull_fillSlot (by omega), if_neg hq]
    · rw [isBad_fillSlot (by omega), if_neg hq]
  · rw [hstep, capture_lost (s := s.withAgenda rest) f r e (firstFree_eq_none hfull)]; rfl

end Sys2Proof.Machine
end

section
/-! PROOFS. Who writes host memory (spec/20_memory.md R72; spec/42_receive.md R184): every operation but WK_COPY keeps it, and
WK_COPY writes into the buffer it holds from the pad on. -/

namespace Sys2Proof.Machine

/-! ## Any operation -/

section
variable {R : State → State → Prop}

/-- `CtlRMW` is one read and one write of the device (R132). -/
theorem At.ctlRMW (hR : Closed R) (hread : ∀ off s, At R (devRead off) s) (hwrite : ∀ off v s, At R (devWrite off v) s)
    (clear set : Word) (s : State) : At R (ctlRMW clear set) s :=
  At.get_bind <| At.bind hR (hread _ s) fun _ t _ _ => hwrite _ _ t

/-- `exec_kept` for a relation that also survives any engine update, any device write and the reset: every operation keeps
it, WK_COPY if its host writes do. -/
theorem exec_keeps (hR : Kept R) (heng : ∀ f s, At R (updEng f) s) (hwrite : ∀ off v s, At R (devWrite off v) s)
    (hreset : ∀ s : State, R s s.resetMachine) {i : Instr} {s t : State}
    (hcopy : i = .wkCopy → ∀ a w s, At R (memWrite8 a w) s) (h : exec i s = .next t) : R s t := by
  have rmw := At.ctlRMW hR.closed hR.read hwrite
  cases hb : isBus i with
  | true => exact exec_bus hR.closed hR.raise hR.read hwrite hb h
  | false =>
    by_cases hinit : i = .stInit
    · subst hinit
      exact At.gate hR.closed (fun _ => At.get_bind <| At.bind hR.closed (rmw _ _ s) fun _ t _ _ => heng _ t) h
    by_cases hpromisc : ∃ on, i = .setPromisc on
    · obtain ⟨on, rfl⟩ := hpromisc
      refine At.gate hR.closed (fun _ => At.bind hR.closed (heng _ s) fun _ t _ _ => At.get_bind ?_) h
      split <;> exact At.bind hR.closed (rmw _ _ t) fun _ u _ _ => heng _ u
    by_cases hres : i = .evReset
    · subst hres; cases h; exact hreset s
    · exact exec_kept hR hb hinit (fun on he => hpromisc ⟨on, he⟩) hres hcopy h

end

/-! ## Operations other than WK_COPY -/

/-- Configuration and host memory are those of the state before. -/
structure SameMem (s t : State) : Prop where
  cfg : t.cfg = s.cfg
  mem : t.mem = s.mem

theorem sameMem_closed : Closed SameMem :=
  ⟨fun _ => ⟨rfl, rfl⟩, fun h k => ⟨k.cfg.trans h.cfg, k.mem.trans h.mem⟩⟩

theorem devRead_keeps_mem (off : Nat) (s : State) : At SameMem (devRead off) s := by
  obtain ⟨hcfg, -, hmem, -⟩ := devRead_end off s
  exact ⟨hcfg, hmem⟩

theorem devWrite_keeps_mem (off : Nat) (v : Word) (s : State) : At SameMem (devWrite off v) s := by
  obtain ⟨hcfg, hmem, -⟩ := devWrite_end off v s
  exact ⟨hcfg, hmem⟩

theorem memRead_keeps_mem (a : Nat) (s : State) : At SameMem (memRead a) s := by
  obtain ⟨hcfg, -, hmem, -⟩ := memRead_end a s
  exact ⟨hcfg, hmem⟩

theorem ctlRMW_keeps_mem (clear set : Word) (s : State) : At SameMem (ctlRMW clear set) s :=
  At.ctlRMW sameMem_closed devRead_keeps_mem devWrite_keeps_mem clear set s

/-- Every primitive but the write to host memory keeps it. -/
theorem sameMem_kept : Kept SameMem where
  closed := sameMem_closed
  cfg h := h.cfg
  eng _ _ _ := ⟨rfl, rfl⟩
  emit _ _ := ⟨rfl, rfl⟩
  raise _ _ _ := ⟨rfl, rfl⟩
  draw _ := ⟨rfl, rfl⟩
  alloc _ := ⟨rfl, rfl⟩
  read := devRead_keeps_mem
  write off v s _ := devWrite_keeps_mem off v s
  mask _ := ctlRMW_keeps_mem _ _ _
  unmask _ := ctlRMW_keeps_mem _ _ _
  memRead := memRead_keeps_mem

theorem exec_keeps_mem {i : Instr} {s t : State} (hi : i ≠ .wkCopy) (h : exec i s = .next t) : t.mem = s.mem :=
  (exec_keeps sameMem_kept (fun _ _ => ⟨rfl, rfl⟩) devWrite_keeps_mem (fun _ => ⟨rfl, rfl⟩) (fun he => absurd he hi) h).mem

/-! ## WK_COPY -/

/-- Host memory changes only in the first `n` words, from the pad on, of the buffer that E.buf holds (R184). -/
structure WritesBuffer (n : Nat) (s t : State) : Prop where
  cfg : t.cfg = s.cfg
  buf : t.eng.buf = s.eng.buf
  mem : ∀ a, t.mem.read a ≠ s.mem.read a →
    ∃ b, s.eng.buf = some (some b) ∧ bufAddr s.cfg b 0 ≤ a ∧ a < bufAddr s.cfg b n

section
variable {n : Nat}

theorem WritesBuffer.of_mem_eq {s t : State} (hcfg : t.cfg = s.cfg) (hbuf : t.eng.buf = s.eng.buf) (hmem : t.mem = s.mem) :
    WritesBuffer n s t :=
  ⟨hcfg, hbuf, fun _ ha => absurd (by rw [hmem]) ha⟩

theorem writesBuffer_closed : Closed (WritesBuffer n) where
  refl _ := .of_mem_eq rfl rfl rfl
  trans {s t u} h k := by
    refine ⟨k.cfg.trans h.cfg, k.buf.trans h.buf, fun a ha => ?_⟩
    by_cases hst : t.mem.read a = s.mem.read a
    · obtain ⟨b, hb, hlo, hhi⟩ := k.mem a (by rwa [hst])
      exact ⟨b, h.buf ▸ hb, h.cfg ▸ hlo, h.cfg ▸ hhi⟩
    · exact h.mem a hst

theorem readReg_writesBuffer {α : Type} (idx : Nat) (reg : Option α) (s : State) :
    At (WritesBuffer n) (readReg idx reg) s :=
  At.readReg writesBuffer_closed (fun _ _ => .of_mem_eq rfl rfl rfl) idx reg s

theorem devRead_writesBuffer (off : Nat) (s : State) : At (WritesBuffer n) (devRead off) s := by
  obtain ⟨hcfg, -, hmem, heng⟩ := devRead_end off s
  exact .of_mem_eq hcfg (by rw [heng]) hmem

/-- The write of word `k` of the frame stays inside its own 8 bytes, whichever way it ends. -/
theorem memWrite8_writesBuffer {k : Nat} (hk : k < n) {b : Word} {s : State} (hb : s.eng.buf = some (some b)) (w : Word) :
    At (WritesBuffer n) (memWrite8 (bufAddr s.cfg b k) w) s := by
  obtain ⟨hcfg, -, heng, hmem⟩ := memWrite8_end (bufAddr s.cfg b k) w s
  refine ⟨hcfg, by rw [heng], fun a ha => ⟨b, hb, ?_⟩⟩
  obtain hmem | ⟨bs, hlen, hmem⟩ := hmem
  · exact absurd (by rw [hmem]) ha
  · rw [hmem] at ha
    have hin := mt Memory.read_writeBytes_outside ha
    simp only [hlen, bufAddr] at hin ⊢
    omega

theorem rxCopy_writesBuffer (m : Nat) : ∀ k s, k + m ≤ n → At (WritesBuffer n) (rxCopy m k) s := by
  induction m with
  | zero => exact fun _ s _ => writesBuffer_closed.refl s
  | succ m ih =>
    intro k s hk
    refine At.get_bind <| At.bind writesBuffer_closed (readReg_writesBuffer _ _ s) fun i t _ hst =>
      At.bind writesBuffer_closed (devRead_writesBuffer _ t) fun w u _ htu =>
      At.bind writesBuffer_closed (readReg_writesBuffer _ _ u) fun b v hread huv => ?_
    obtain ⟨hb, rfl⟩ := readReg_ok hread
    have hcfg : v.cfg = s.cfg := htu.cfg.trans hst.cfg
    rw [← hcfg]
    exact At.bind writesBuffer_closed (memWrite8_writesBuffer (by omega) (Option.join_eq_some_iff.mp hb) w)
      fun _ x _ _ => ih (k + 1) x (by omega)

end

/-- WK_COPY of a frame of `n` bytes writes its words only. -/
theorem wkCopy_writesBuffer {s : State} {n : Nat} (hl : s.eng.len = some (.bytes n)) :
    At (WritesBuffer (words8 n)) wkCopy s := by
  refine At.bind writesBuffer_closed ?_ fun n' t hread _ => ?_
  · rw [At, readLenBytes_some hl]; exact writesBuffer_closed.refl s
  rw [readLenBytes_some hl] at hread
  cases hread
  exact At.bind writesBuffer_closed (rxCopy_writesBuffer _ 0 s (by omega)) fun _ _ _ _ => .of_mem_eq rfl rfl rfl

/-- Without a length WK_COPY stops before its first access. -/
theorem wkCopy_keeps_mem {s : State} (hl : ∀ n, s.eng.len ≠ some (.bytes n)) : At SameMem wkCopy s := by
  refine At.bind sameMem_closed (sameMem_kept.readLenBytes s) fun n t hread _ => ?_
  match hs : s.eng.len with
  | some (.bytes n) => exact absurd hs (hl n)
  | some .badlen => simp [readLenBytes, readLen_some hs] at hread
  | none => rw [readLenBytes_none hs] at hread; cases hread

/-- Settles O58: every other operation keeps host memory, and WK_COPY writes the words of its frame only. -/
theorem onlyTheCopyStepWritesHostMemory : Obligations.OnlyTheCopyStepWritesHostMemory := by
  intro i s t a h ha
  by_cases hi : i = .wkCopy
  · subst hi
    by_cases hl : ∃ n, s.eng.len = some (.bytes n)
    · obtain ⟨n, hl⟩ := hl
      obtain ⟨b, hb, hlo, hhi⟩ := (At.gate writesBuffer_closed (fun _ => wkCopy_writesBuffer hl) h).mem a ha
      simp only [bufAddr, words8] at hlo hhi
      exact ⟨rfl, n, b, hl, hb, by omega, by simp only [roundUp8]; omega⟩
    · have hmem := (At.gate sameMem_closed (fun _ => wkCopy_keeps_mem fun n hn => hl ⟨n, hn⟩) h).mem
      exact absurd (by rw [hmem]) ha
  · exact absurd (by rw [exec_keeps_mem hi h]) ha

end Sys2Proof.Machine
end

section
/-! PROOFS. Encoding (spec/30_encoding.md R110 to R121): what a word of each format decodes to, what the encoder writes
for an operation, and what a step does with an offered word. -/

namespace Sys2Proof.Machine

section
variable {c : Config} {i : Instr}

/-! ## Command words (R111 to R114) -/

theorem toNat_opc (w : BitVec 32) : (w.extractLsb' 0 8).toNat = w.toNat % 256 := by
  simp

theorem toNat_arg (w : BitVec 32) : (w.extractLsb' 8 24).toNat = w.toNat / 256 := by
  have hw := w.isLt
  simp only [BitVec.extractLsb'_toNat, Nat.shiftRight_eq_div_pow]
  omega

/-- Bits `a` and up of `ARG` are bits `8 + a` and up of the word. -/
theorem extractLsb'_arg (w : BitVec 32) {a n : Nat} (h : a + n ≤ 24) :
    (w.extractLsb' 8 24).extractLsb' a n = w.extractLsb' (8 + a) n := by
  ext k hk
  simp only [BitVec.getElem_extractLsb', BitVec.getLsbD_extractLsb', Nat.add_assoc,
    decide_eq_true (show a + k < 24 by omega), Bool.true_and]

/-- The rows of R113: the operation that `OPC` and `ARG` name, `h` being the side operand. -/
inductive CommandRow (h : Word) : Nat → BitVec 24 → Instr → Prop
  | txSend (len : BitVec 24) : CommandRow h 0x01 len (.txSend len h)
  | ifStart : CommandRow h 0x02 0 .ifStart
  | ifStop : CommandRow h 0x03 0 .ifStop
  | setPromisc (on : Bool) : CommandRow h 0x04 ((0 : BitVec 23) ++ BitVec.ofBool on) (.setPromisc on)
  | setCaps (req : BitVec 24) : CommandRow h 0x05 req (.setCaps req)
  | getPromisc : CommandRow h 0x06 0 .getPromisc
  | getCaps : CommandRow h 0x07 0 .getCaps
  | getMaxlen : CommandRow h 0x08 0 .getMaxlen
  | readMac : CommandRow h 0x09 0 .readMac
  | readCounter (sel : BitVec 3) (hs : sel.toNat ≤ 4) : CommandRow h 0x0A ((0 : BitVec 21) ++ sel) (.readCounter sel)

theorem noArg_ok {arg : BitVec 24} {j : Instr} (h : noArg arg j = .ok i) : arg = 0 ∧ i = j := by
  unfold noArg at h
  split at h
  · next h0 => cases h; exact ⟨h0, rfl⟩
  · cases h

/-- Bit 0 as a word of one bit. -/
theorem extractLsb'_bit0 (arg : BitVec 24) : arg.extractLsb' 0 1 = BitVec.ofBool (arg.getLsbD 0) := by
  ext k hk
  obtain rfl : k = 0 := by omega
  simp

theorem decodePromisc_ok {arg : BitVec 24} (h : decodePromisc arg = .ok i) :
    ∃ on, arg = (0 : BitVec 23) ++ BitVec.ofBool on ∧ i = .setPromisc on := by
  unfold decodePromisc at h
  split at h
  · next h0 =>
    cases h
    refine ⟨_, ?_, rfl⟩
    rw [← h0, ← extractLsb'_bit0]
    exact (BitVec.extractLsb'_append_extractLsb' (w := 23) (len := 1)).symm
  · cases h

theorem decodeCounter_ok {arg : BitVec 24} (h : decodeCounter arg = .ok i) :
    ∃ sel : BitVec 3, sel.toNat ≤ 4 ∧ arg = (0 : BitVec 21) ++ sel ∧ i = .readCounter sel := by
  unfold decodeCounter at h
  split at h
  · next h0 =>
    split at h
    · next hs =>
      cases h
      refine ⟨_, hs, ?_, rfl⟩
      rw [← h0]
      exact (BitVec.extractLsb'_append_extractLsb' (w := 21) (len := 3)).symm
    · cases h
  · cases h

section
variable {opc : Nat} {arg : BitVec 24} {h : Word}

/-- What the decoder takes is a row of R113. -/
theorem commandRow_of_decodeOpc (hd : decodeOpc opc arg h = .ok i) : CommandRow h opc arg i := by
  unfold decodeOpc at hd
  split at hd
  · cases hd; exact .txSend arg
  · obtain ⟨rfl, rfl⟩ := noArg_ok hd; exact .ifStart
  · obtain ⟨rfl, rfl⟩ := noArg_ok hd; exact .ifStop
  · obtain ⟨on, rfl, rfl⟩ := decodePromisc_ok hd; exact .setPromisc on
  · cases hd; exact .setCaps arg
  · obtain ⟨rfl, rfl⟩ := noArg_ok hd; exact .getPromisc
  · obtain ⟨rfl, rfl⟩ := noArg_ok hd; exact .getCaps
  · obtain ⟨rfl, rfl⟩ := noArg_ok hd; exact .getMaxlen
  · obtain ⟨rfl, rfl⟩ := noArg_ok hd; exact .readMac
  · obtain ⟨sel, hs, rfl, rfl⟩ := decodeCounter_ok hd; exact .readCounter sel hs
  · cases hd

/-- A row's operation is well-formed, and the encoder writes the row's `ARG` and `OPC`. -/
theorem CommandRow.encodes (hr : CommandRow h opc arg i) :
    WellFormed c i = true ∧ headBits (encode c i) = arg.toNat * 256 + opc := by
  cases hr with
  | txSend | ifStart | ifStop | setPromisc | setCaps | getPromisc | getCaps | getMaxlen | readMac =>
    exact ⟨rfl, toNat_cmdWord _ _⟩
  | readCounter sel hs => exact ⟨decide_eq_true hs, toNat_cmdWord _ _⟩

/-- The `OPC` and `ARG` of a row, as numbers. -/
theorem CommandRow.bounds (hr : CommandRow h opc arg i) :
    opc = 1 ∨ opc = 5 ∨ (opc ∈ [2, 3, 6, 7, 8, 9] ∧ arg.toNat = 0) ∨ (opc = 4 ∧ arg.toNat < 2) ∨
      (opc = 10 ∧ arg.toNat ≤ 4) := by
  cases hr with
  | txSend | ifStart | ifStop | setCaps | getPromisc | getCaps | getMaxlen | readMac => simp
  | setPromisc on => cases on <;> decide
  | readCounter sel hs =>
    have harg : ((0 : BitVec 21) ++ sel).toNat = sel.toNat := (BitVec.toNat_append 0 sel).trans (by simp)
    exact .inr (.inr (.inr (.inr ⟨rfl, harg.trans_le hs⟩)))

end

theorem decodeCmd_ok {w : BitVec 32} {h : Word} (hd : decodeCmd w h = .ok i) :
    WellFormed c i = true ∧ headBits (encode c i) = w.toNat := by
  obtain ⟨hwf, hbits⟩ := (commandRow_of_decodeOpc hd).encodes (c := c)
  rw [← toNat_cmdWord, cmdWord_fields] at hbits
  exact ⟨hwf, hbits⟩

/-! ## Event and step codes (R117, R118) -/

theorem decodeEvt_ok {code : BitVec 8} (h : decodeEvt code = .ok i) :
    WellFormed c i = true ∧ headBits (encode c i) = code.toNat := by
  unfold decodeEvt at h
  split at h <;> cases h
  all_goals next hcode => exact ⟨rfl, hcode.symm⟩

theorem decodeStep_ok {code : BitVec 8} (h : decodeStep code = .ok i) :
    WellFormed c i = true ∧ headBits (encode c i) = code.toNat := by
  unfold decodeStep at h
  split at h <;> cases h
  all_goals next hcode => exact ⟨rfl, hcode.symm⟩

theorem decodeEvt_unknown {code : BitVec 8} (h : code.toNat ≤ 0x3F ∨ 0x44 ≤ code.toNat) :
    decodeEvt code = .error .notAnEvent := by
  unfold decodeEvt
  split
  case h_5 => rfl
  all_goals omega

/-! ## Bus requests (R119, R120) -/

theorem wellFormed_readInstr (r : ReadReg) : WellFormed c (readInstr r) = true ↔ readInRange c r := by
  cases r <;> simp [readInstr, WellFormed, readInRange]

theorem wellFormed_writeInstr (v : Word) (r : WriteReg) :
    WellFormed c (writeInstr v r) = true ↔ writeInRange c r := by
  cases r <;> simp [writeInstr, WellFormed, writeInRange]

theorem encode_readInstr (r : ReadReg) : encode c (readInstr r) = .bus (busHeader c false (readOffset c r)) 0 := by
  cases r <;> rfl

theorem encode_writeInstr (v : Word) (r : WriteReg) :
    encode c (writeInstr v r) = .bus (busHeader c true (writeOffset c r)) v := by
  cases r <;> rfl

theorem decode_encode_readInstr (hc : ConfigFacts c) (r : ReadReg) (hw : WellFormed c (readInstr r) = true) :
    decode c (encode c (readInstr r)) = .ok (readInstr r) := by
  have hr := (wellFormed_readInstr r).mp hw
  rw [encode_readInstr, decode_busRead (readOffset_lt hc hr), selectRead_offset hc hr]
  rfl

theorem decode_encode_writeInstr (hc : ConfigFacts c) (v : Word) (r : WriteReg)
    (hw : WellFormed c (writeInstr v r) = true) :
    decode c (encode c (writeInstr v r)) = .ok (writeInstr v r) := by
  have hr := (wellFormed_writeInstr v r).mp hw
  rw [encode_writeInstr, decode_busWrite (writeOffset_lt hc hr), selectWrite_offset hc hr]
  rfl

/-- A request that decodes has selected a row. -/
theorem row_of_decoded {α : Type} {row : Option α} {f : α → Instr} {e : Reject}
    (h : (row.map f).elim (.error e) .ok = (.ok i : Except Reject Instr)) : ∃ r, row = some r ∧ f r = i := by
  cases row with
  | none => cases h
  | some r => cases h; exact ⟨r, rfl, rfl⟩

theorem decodeBus_ok {hdr : Nat} {v : Word} (hc : ConfigFacts c) (h : decodeBus c hdr v = .ok i) :
    WellFormed c i = true ∧ headBits (encode c i) = hdr := by
  obtain ⟨-, -, -, -, -, -, htx, hrx, -⟩ := hc.offs8
  unfold decodeBus at h
  split at h
  · next hwe =>
    obtain ⟨r, hsel, rfl⟩ := row_of_decoded h
    obtain ⟨hoff, hr⟩ := selectRead_some hc.stride8 hrx hsel
    rw [encode_readInstr, hoff]
    exact ⟨(wellFormed_readInstr r).mpr hr, header_fields c hdr false hwe⟩
  · next hwe =>
    obtain ⟨r, hsel, rfl⟩ := row_of_decoded h
    obtain ⟨hoff, hr⟩ := selectWrite_some htx hsel
    rw [encode_writeInstr, hoff]
    exact ⟨(wellFormed_writeInstr v r).mpr hr, header_fields c hdr true hwe⟩
  · cases h

/-! ## Offsets that select no row (R121) -/

theorem Apart.symm {a m b n : Nat} (h : Apart a m b n) : Apart b n a m := by
  unfold Apart at h ⊢; omega

/-- The register, register file or window of a read row. -/
def readRegion (c : Config) : ReadReg → Region
  | .maclo => (c.offMaclo, 8)
  | .machi => (c.offMachi, 8)
  | .rsr => (c.offRsr, 8)
  | .rbad => (c.offRbad, 8)
  | .rplr _ => (c.offRplr, c.slotCount * c.rplrStride)
  | .rxbuf _ _ => (c.offRxbuf, c.slotCount * c.slotStride)

/-- The register or window of a write row. -/
def writeRegion (c : Config) : WriteReg → Region
  | .machi => (c.offMachi, 8)
  | .tplr => (c.offTplr, 8)
  | .rsr => (c.offRsr, 8)
  | .txbuf _ => (c.offTxbuf, c.txWindowBytes)

theorem readOffset_mem (hc : ConfigFacts c) {r : ReadReg} (hr : readInRange c r) :
    (readRegion c r).1 ≤ readOffset c r ∧ readOffset c r < (readRegion c r).1 + (readRegion c r).2 := by
  cases r with
  | maclo | machi | rsr | rbad => simp [readRegion, readOffset]
  | rplr s =>
    have hend := rplr_end (c := c) hr
    have hstride := hc.rplr
    simp only [readRegion, readOffset]
    omega
  | rxbuf s k =>
    obtain ⟨hs, hk⟩ := hr
    have hend := rxbuf_end (c := c) hs
    simp only [readRegion, readOffset]
    omega

theorem writeOffset_mem {r : WriteReg} (hr : writeInRange c r) :
    (writeRegion c r).1 ≤ writeOffset c r ∧ writeOffset c r < (writeRegion c r).1 + (writeRegion c r).2 := by
  cases r with
  | machi | tplr | rsr => simp [writeRegion, writeOffset]
  | txbuf k => simpa [writeRegion, writeOffset, writeInRange] using hr

/-- No read row is selected inside a region that lies apart from those of all read rows. -/
theorem selectRead_none (hc : ConfigFacts c) {a n off : Nat} (hlo : a ≤ off) (hhi : off < a + n)
    (hap : ∀ r, Apart (readRegion c r).1 (readRegion c r).2 a n) : selectRead c off = none := by
  obtain ⟨-, -, -, -, -, -, -, hrx, -⟩ := hc.offs8
  refine Option.eq_none_iff_forall_not_mem.mpr fun r hsel => ?_
  obtain ⟨rfl, hr⟩ := selectRead_some hc.stride8 hrx hsel
  exact (hap r).outside hlo hhi (readOffset_mem hc hr)

/-- No write row is selected inside a region that lies apart from those of all write rows. -/
theorem selectWrite_none (hc : ConfigFacts c) {a n off : Nat} (hlo : a ≤ off) (hhi : off < a + n)
    (hap : ∀ r, Apart (writeRegion c r).1 (writeRegion c r).2 a n) : selectWrite c off = none := by
  obtain ⟨-, -, -, -, -, -, htx, -, -⟩ := hc.offs8
  refine Option.eq_none_iff_forall_not_mem.mpr fun r hsel => ?_
  obtain ⟨rfl, hr⟩ := selectWrite_some htx hsel
  exact (hap r).outside hlo hhi (writeOffset_mem hr)

theorem RegionsApart.reads_tplr (p : RegionsApart c) (r : ReadReg) :
    Apart (readRegion c r).1 (readRegion c r).2 c.offTplr 8 := by
  cases r with
  | maclo => exact p.lo_tplr
  | machi => exact p.hi_tplr
  | rsr => exact p.tplr_rsr.symm
  | rbad => exact p.tplr_rbad.symm
  | rplr => exact p.tplr_rplr.symm
  | rxbuf => exact p.tplr_rx.symm

theorem RegionsApart.reads_txbuf (p : RegionsApart c) (r : ReadReg) :
    Apart (readRegion c r).1 (readRegion c r).2 c.offTxbuf c.txWindowBytes := by
  cases r with
  | maclo => exact p.lo_tx
  | machi => exact p.hi_tx
  | rsr => exact p.rsr_tx
  | rbad => exact p.rbad_tx
  | rplr => exact p.rplr_tx
  | rxbuf => exact p.tx_rx.symm

theorem RegionsApart.writes_maclo (p : RegionsApart c) (r : WriteReg) :
    Apart (writeRegion c r).1 (writeRegion c r).2 c.offMaclo 8 := by
  cases r with
  | machi => exact p.lo_hi.symm
  | tplr => exact p.lo_tplr.symm
  | rsr => exact p.lo_rsr.symm
  | txbuf => exact p.lo_tx.symm

theorem RegionsApart.writes_rbad (p : RegionsApart c) (r : WriteReg) :
    Apart (writeRegion c r).1 (writeRegion c r).2 c.offRbad 8 := by
  cases r with
  | machi => exact p.hi_rbad
  | tplr => exact p.tplr_rbad
  | rsr => exact p.rsr_rbad
  | txbuf => exact p.rbad_tx.symm

theorem RegionsApart.writes_rplr (p : RegionsApart c) (r : WriteReg) :
    Apart (writeRegion c r).1 (writeRegion c r).2 c.offRplr (c.slotCount * c.rplrStride) := by
  cases r with
  | machi => exact p.hi_rplr
  | tplr => exact p.tplr_rplr
  | rsr => exact p.rsr_rplr
  | txbuf => exact p.rplr_tx.symm

theorem RegionsApart.writes_rxbuf (p : RegionsApart c) (r : WriteReg) :
    Apart (writeRegion c r).1 (writeRegion c r).2 c.offRxbuf (c.slotCount * c.slotStride) := by
  cases r with
  | machi => exact p.hi_rx
  | tplr => exact p.tplr_rx
  | rsr => exact p.rsr_rx
  | txbuf => exact p.tx_rx

theorem decode_bus_unmatched {we : Bool} {off : Nat} (v : Word) (ho : off < 2 ^ c.offBits)
    (hr : we = false → selectRead c off = none) (hw : we = true → selectWrite c off = none) :
    decode c (.bus (busHeader c we off) v) = .error .noBusRow := by
  cases we with
  | false => rw [decode_busRead ho, hr rfl]; rfl
  | true => rw [decode_busWrite ho, hw rfl]; rfl

/-! ## A step that is offered a word (R110, R261) -/

section
variable {s : State} {w : PortWord} {rest : List Item}

theorem step_decoded (hc : ConfigOk s.cfg) (ha : s.env.agenda = .port w :: rest) (hd : decode s.cfg w = .ok i) :
    step s = exec i (s.withAgenda rest) := by
  rw [step_offer hc ha]
  simp only [takeItem, withAgenda_cfg, hd, outcome_run]

theorem step_rejected {e : Reject} (hc : ConfigOk s.cfg) (ha : s.env.agenda = .port w :: rest)
    (hd : decode s.cfg w = .error e) : step s = .next ((s.withAgenda rest).rejectWord w) := by
  rw [step_offer hc ha]
  simp only [takeItem, withAgenda_cfg, hd, outcome_next]

theorem rejectWord_cmd (hup : s.up = true) (w : BitVec 32) (h : Word) :
    s.rejectWord (.cmd w h) = { s with eng := { s.eng with fault := some ⟨.badCmd, w.setWidth 64⟩ } } := by
  rw [State.rejectWord, if_pos hup, recordFault_of_alive (up_iff.mp hup).2]

theorem rejectWord_bus (ha : s.alive = true) (hdr : Nat) (v : Word) :
    s.rejectWord (.bus hdr v) =
      { s with eng := { s.eng with fault := some ⟨.addr, BitVec.ofNat 64 (hdr % 2 ^ s.cfg.offBits)⟩ } } := by
  rw [State.rejectWord, if_pos ha, recordFault_of_alive (alive_iff.mp ha)]

end

end

/-! ## The obligations -/

/-- Settles O1: by format; a bus row is selected at its own offset. -/
theorem decodeOfEncodeIsTheInstruction : Obligations.DecodeOfEncodeIsTheInstruction := by
  intro c i hok hw
  have hc := hok.facts
  cases i with
  | txSend | ifStart | ifStop | setCaps | getPromisc | getCaps | getMaxlen | readMac => exact decodeCmd_cmdWord _ _ _
  | setPromisc on => exact (decodeCmd_cmdWord _ _ _).trans (decodePromisc_encoded on)
  | readCounter sel => exact (decodeCmd_cmdWord _ _ _).trans (decodeCounter_encoded sel (of_decide_eq_true hw))
  | evRxIrq | evPollTick | evWatchdogTick | evReset => rfl
  | stInit | wkTest | wkDecode | wkValidate | wkReject | wkAlloc | wkCopy | wkAdvance | wkDeliver | wkExit | wkAbort =>
    rfl
  | rdMaclo => exact decode_encode_readInstr hc .maclo hw
  | rdMachi => exact decode_encode_readInstr hc .machi hw
  | rdRsr => exact decode_encode_readInstr hc .rsr hw
  | rdRbad => exact decode_encode_readInstr hc .rbad hw
  | rdRplr s => exact decode_encode_readInstr hc (.rplr s) hw
  | rdRxbuf s k => exact decode_encode_readInstr hc (.rxbuf s k) hw
  | wrMachi v => exact decode_encode_writeInstr hc v .machi hw
  | wrTplr v => exact decode_encode_writeInstr hc v .tplr hw
  | wrRsr v => exact decode_encode_writeInstr hc v .rsr hw
  | wrTxbuf k v => exact decode_encode_writeInstr hc v (.txbuf k) hw

/-- Settles O2: each port's decoder takes only the rows of its table. -/
theorem decodedWordEncodesBackToItsBits : Obligations.DecodedWordEncodesBackToItsBits := by
  intro c w i hc hd
  cases w with
  | cmd w h => exact decodeCmd_ok hd
  | evt code => exact decodeEvt_ok hd
  | step code => exact decodeStep_ok hd
  | bus hdr v => exact decodeBus_ok hc.facts hd

/-- Settles O3. -/
theorem specWordsDecodeToTheirRows : Obligations.SpecWordsDecodeToTheirRows := by
  unfold Obligations.SpecWordsDecodeToTheirRows
  decide

/-- Settles O4: the fields of `ARG` are fields of the word. -/
theorem commandOperandsAreTheirBits : Obligations.CommandOperandsAreTheirBits := by
  intro w h
  refine ⟨fun ho => ?_, fun ho h0 => ?_, fun ho => ?_, fun ho h0 hs => ?_⟩ <;> rw [decodeCmd, ho]
  · rfl
  · show decodePromisc _ = _
    rw [decodePromisc, extractLsb'_arg w (by decide), if_pos h0, BitVec.getLsbD_extractLsb']
    rfl
  · rfl
  · show decodeCounter _ = _
    rw [decodeCounter, extractLsb'_arg w (by decide), extractLsb'_arg w (by decide), if_pos h0, if_pos hs]

/-- Settles O5: a word that decoded would be a row of R113. -/
theorem illegalCommandWordRaisesBadCmd : Obligations.IllegalCommandWordRaisesBadCmd := by
  intro s w h rest hc hup ha hill
  cases hd : decodeCmd w h with
  | ok i =>
    have hb := (commandRow_of_decodeOpc hd).bounds
    rw [toNat_opc, toNat_arg] at hb
    exact absurd hb hill
  | error e =>
    rw [step_rejected hc ha hd, rejectWord_cmd (s := s.withAgenda rest) hup]
    rfl

/-- Settles O6. -/
theorem unknownEventCodeIsIgnored : Obligations.UnknownEventCodeIsIgnored :=
  fun _ _ _ hc ha hcode => step_rejected hc ha (decodeEvt_unknown hcode)

/-- Settles O7: the header holds the offset, and the regions that one direction never names lie apart from those it
does. -/
theorem unmatchedBusRequestRaisesAddr : Obligations.UnmatchedBusRequestRaisesAddr := by
  refine ⟨fun s we off v rest hc hal ho hr hw ha => ?_, fun c off hok => ?_⟩
  · rw [step_rejected hc ha (decode_bus_unmatched v ho hr hw), rejectWord_bus (s := s.withAgenda rest) hal,
      withAgenda_cfg, header_off we ho]
    rfl
  · have hc := hok.facts
    have p := hc.regionsApart
    refine ⟨fun h8 => ⟨if_pos h8, if_pos h8⟩, ?_, fun hlo hhi => selectRead_none hc hlo hhi p.reads_txbuf, ?_,
      fun hlo hhi => selectWrite_none hc hlo hhi p.writes_rplr,
      fun hlo hhi => selectWrite_none hc hlo hhi p.writes_rxbuf⟩
    · rintro rfl
      exact selectRead_none hc le_rfl (Nat.lt_add_of_pos_right (by decide)) p.reads_tplr
    · rintro (rfl | rfl)
      · exact selectWrite_none hc le_rfl (Nat.lt_add_of_pos_right (by decide)) p.writes_maclo
      · exact selectWrite_none hc le_rfl (Nat.lt_add_of_pos_right (by decide)) p.writes_rbad

/-- Settles O8. -/
theorem stepRunsTheOfferedOperation : Obligations.StepRunsTheOfferedOperation :=
  fun _ _ _ _ hc ha hd => step_decoded hc ha hd

end Sys2Proof.Machine
end

section
/-! PROOFS. The station address (spec/40_register_interface.md R137) and a read request on the device window (R130;
spec/20_memory.md R79). -/

namespace Sys2Proof.Machine

/-! ## The station address -/

/-- The bits of the address: `lo` below bit 32, the low half-word of `hi` on top (R137). -/
theorem getLsbD_macValue (hi lo : Word) (n : Nat) :
    (macValue hi lo).getLsbD n = if n < 32 then lo.getLsbD n else decide (n < 48) && hi.getLsbD (n - 32) := by
  have happend := BitVec.getLsbD_append (x := hi.extractLsb' 0 16) (y := lo.extractLsb' 0 32) (i := n)
  rw [macValue, BitVec.getLsbD_setWidth]
  refine (congrArg (decide (n < 64) && ·) happend).trans ?_
  split
  · next h => simp [h, show n < 64 by omega]
  · simp only [BitVec.getLsbD_extractLsb', Nat.zero_add, ← Bool.and_assoc, ← Bool.decide_and]
    congr 2
    exact propext ⟨fun _ => by omega, fun _ => by omega⟩

/-- The low four bytes of the address are those of `lo`. -/
theorem byteOf_macValue_lo (hi lo : Word) {i : Nat} (h : i < 4) : byteOf (macValue hi lo) i = byteOf lo i := by
  apply BitVec.eq_of_getLsbD_eq
  intro j hj
  rw [byteOf, byteOf, BitVec.getLsbD_extractLsb', BitVec.getLsbD_extractLsb', getLsbD_macValue, if_pos (by omega)]

/-- Its top two bytes are the low two of `hi`. -/
theorem byteOf_macValue_hi (hi lo : Word) {i : Nat} (h : i < 2) : byteOf (macValue hi lo) (4 + i) = byteOf hi i := by
  apply BitVec.eq_of_getLsbD_eq
  intro j hj
  rw [byteOf, byteOf, BitVec.getLsbD_extractLsb', BitVec.getLsbD_extractLsb', getLsbD_macValue, if_neg (by omega),
    decide_eq_true (show 8 * (4 + i) + j < 48 by omega), Bool.true_and, show 8 * (4 + i) + j - 32 = 8 * i + j by omega]

/-- Settles O24: the address is `{hi[15:0], lo[31:0]}`, and `mac_bytes` lists its bytes from the top. -/
theorem macBytesAreTheSpecBytes : Obligations.MacBytesAreTheSpecBytes := by
  intro hi lo
  refine ⟨rfl, fun i h => ?_⟩
  match i, h with
  | 0, _ => exact congrArg some (byteOf_macValue_hi hi lo (i := 1) (by decide)).symm
  | 1, _ => exact congrArg some (byteOf_macValue_hi hi lo (i := 0) (by decide)).symm
  | 2, _ => exact congrArg some (byteOf_macValue_lo hi lo (i := 3) (by decide)).symm
  | 3, _ => exact congrArg some (byteOf_macValue_lo hi lo (i := 2) (by decide)).symm
  | 4, _ => exact congrArg some (byteOf_macValue_lo hi lo (i := 1) (by decide)).symm
  | 5, _ => exact congrArg some (byteOf_macValue_lo hi lo (i := 0) (by decide)).symm

/-! ## Read requests -/

/-- A read request in range, where no access fails: the one read of its row. -/
theorem busRead_leaves {s : State} {inRange : Bool} {r : ReadReg} (hc : ConfigOk s.cfg) (hq : s.quiet)
    (ha : s.alive = true) (hi : inRange = true) (hr : readInRange s.cfg r) :
    ∃ t, gate s.alive (busRead inRange r) s = .next t ∧
      Leaves s t s.eng s.dev s.mem [.rd (readOffset s.cfg r) (s.answer r)] := by
  refine ⟨s.afterRead (readOffset s.cfg r) r, ?_, afterRead_cfg .., afterRead_eng .., afterRead_dev .., afterRead_mem ..,
    afterRead_trace .., afterRead_agenda ..⟩
  rw [gate_on ha, stateAfter_ok (a := ())]
  simp only [busRead, run_bind, run_get, hi, if_true, devRead_ok hq.1 (selectRead_offset hc.facts hr), run_pure]

/-- Settles O43: each request is one read at its row's offset. -/
theorem busReadsAnswerAWordAndChangeNothing : Obligations.BusReadsAnswerAWordAndChangeNothing := by
  intro s hc hq ha
  refine ⟨busRead_leaves hc hq ha rfl (r := .maclo) trivial, busRead_leaves hc hq ha rfl (r := .machi) trivial,
    busRead_leaves hc hq ha rfl (r := .rsr) trivial, busRead_leaves hc hq ha rfl (r := .rbad) trivial,
    fun i hi => busRead_leaves hc hq ha (decide_eq_true hi) (r := .rplr i) hi,
    fun i k hi hk => busRead_leaves hc hq ha ?_ (r := .rxbuf i k) ⟨hi, hk⟩⟩
  simp [hi, hk]

end Sys2Proof.Machine
end

section
/-! PROOFS. What an engine step can do to MACHI (spec/40_register_interface.md R132, R133; spec/70_reset_and_hazards.md
R290): under `REF_DEVICE` a `CtlRMW` writes back every bit outside its two words, and no other access stores there. -/

namespace Sys2Proof.Machine

/-! ## The primitives -/

/-- A completed read selected a row, answered its word and left the state of a completed access. -/
theorem devRead_eq_ok {off : Nat} {s t : State} {v : Word} (h : devRead off s = .ok v t) :
    ∃ r, selectRead s.cfg off = some r ∧ v = s.answer r ∧ t = s.afterRead off r := by
  unfold devRead at h
  split at h
  · cases h
  · next r hr =>
    split at h <;> cases h
    exact ⟨r, hr, rfl, rfl⟩

/-- The configuration stays, and under `REF_DEVICE` the bits of MACHI in the mask that `m` gives for it do. -/
structure KeepsMachi (m : Config → Word) (s t : State) : Prop where
  cfg : t.cfg = s.cfg
  bits : ConfigOk s.cfg → s.cfg.refDevice = true →
    t.dev.word s.cfg.offMachi &&& m s.cfg = s.dev.word s.cfg.offMachi &&& m s.cfg

section
variable {m : Config → Word}

theorem KeepsMachi.of_dev_eq {s t : State} (hcfg : t.cfg = s.cfg) (hdev : t.dev = s.dev) : KeepsMachi m s t :=
  ⟨hcfg, fun _ _ => by rw [hdev]⟩

theorem keepsMachi_closed : Closed (KeepsMachi m) where
  refl _ := .of_dev_eq rfl rfl
  trans h k := ⟨k.cfg.trans h.cfg, fun hc hr => by
    have hk := k.bits (h.cfg ▸ hc) (h.cfg ▸ hr)
    rw [h.cfg] at hk
    exact hk.trans (h.bits hc hr)⟩

theorem updEng_keepsMachi (f : Engine → Engine) (s : State) : At (KeepsMachi m) (updEng f) s := .of_dev_eq rfl rfl

theorem devRead_keepsMachi (off : Nat) (s : State) : At (KeepsMachi m) (devRead off) s := by
  obtain ⟨hcfg, hdev, -⟩ := devRead_end off s
  exact .of_dev_eq hcfg hdev

theorem memRead_keepsMachi (a : Nat) (s : State) : At (KeepsMachi m) (memRead a) s := by
  obtain ⟨hcfg, hdev, -⟩ := memRead_end a s
  exact .of_dev_eq hcfg hdev

theorem memWrite8_keepsMachi (a : Nat) (w : Word) (s : State) : At (KeepsMachi m) (memWrite8 a w) s := by
  obtain ⟨hcfg, hdev, -⟩ := memWrite8_end a w s
  exact .of_dev_eq hcfg hdev

/-- A write keeps the bits if the word it stores in MACHI, where it selects MACHI, has them as they are. -/
theorem devWrite_keepsMachi {off : Nat} {v : Word} {s : State}
    (hv : ConfigOk s.cfg → s.cfg.refDevice = true → selectWrite s.cfg off = some .machi →
      v &&& m s.cfg = s.dev.word s.cfg.offMachi &&& m s.cfg) : At (KeepsMachi m) (devWrite off v) s := by
  obtain ⟨hcfg, -, -, hdev⟩ := devWrite_end off v s
  refine ⟨hcfg, fun hc hr => ?_⟩
  obtain hdev | ⟨r, hsel, hdev⟩ := hdev
  · rw [hdev]
  rw [hdev]
  by_cases hmachi : r = .machi
  · subst hmachi
    rw [applyWrite, word_store_same]
    exact hv hc hr hsel
  · rw [applyWrite_machi hc.facts s.dev hsel hmachi]

/-- Under `REF_DEVICE` a `CtlRMW` reads the word MACHI holds, and so writes back the bits outside its two words (R132). -/
theorem ctlRMW_keepsMachi {clear set : Word} {s : State} (hclear : ConfigOk s.cfg → clear &&& m s.cfg = 0)
    (hset : ConfigOk s.cfg → set &&& m s.cfg = 0) : At (KeepsMachi m) (ctlRMW clear set) s := by
  refine At.get_bind <| At.bind keepsMachi_closed (devRead_keepsMachi _ s) fun v t hread _ => ?_
  obtain ⟨r, hsel, rfl, rfl⟩ := devRead_eq_ok hread
  refine devWrite_keepsMachi fun hc hr _ => ?_
  rw [afterRead_cfg] at hc hr ⊢
  obtain rfl : r = .machi := by rw [selectRead_machi hc.facts] at hsel; cases hsel; rfl
  rw [afterRead_dev, answer_ref hr]
  exact rmwWord_and (hclear hc) (hset hc)

/-- Every primitive keeps the bits that IRQ_EN is none of. -/
theorem keepsMachi_kept (hirq : ∀ c, ConfigOk c → c.machiIrqEn &&& m c = 0) : Kept (KeepsMachi m) where
  closed := keepsMachi_closed
  cfg h := h.cfg
  eng f s _ := updEng_keepsMachi f s
  emit _ _ := .of_dev_eq rfl rfl
  raise _ _ _ := .of_dev_eq rfl rfl
  draw _ := .of_dev_eq rfl rfl
  alloc _ := .of_dev_eq rfl rfl
  read := devRead_keepsMachi
  write _ _ _ hne := devWrite_keepsMachi fun hc _ hsel => absurd hsel (hne hc)
  mask _ := ctlRMW_keepsMachi (hirq _) fun _ => BitVec.zero_and
  unmask _ := ctlRMW_keepsMachi (fun _ => BitVec.zero_and) (hirq _)
  memRead := memRead_keepsMachi

end

/-! ## Every step of an engine agent -/

/-- Every bit of MACHI but the two control bits (R133). -/
def outsideControl (c : Config) : Word := ~~~(c.machiIrqEn ||| c.machiAllpkts)

/-- A word of control bits has none outside them. -/
theorem and_outsideControl {c : Config} {w : Word} (h : w &&& (c.machiIrqEn ||| c.machiAllpkts) = w) :
    w &&& outsideControl c = 0 := by
  rw [← h, outsideControl, BitVec.and_assoc, BitVec.and_not_self]
  exact BitVec.and_zero

theorem irqEn_outsideControl (c : Config) : c.machiIrqEn &&& outsideControl c = 0 :=
  and_outsideControl (by ext i; simp +contextual)

theorem allpkts_outsideControl (c : Config) : c.machiAllpkts &&& outsideControl c = 0 :=
  and_outsideControl (by ext i; simp +contextual)

theorem initStep_keepsMachi (s : State) : At (KeepsMachi outsideControl) initStep s :=
  At.get_bind <| At.bind keepsMachi_closed
    (ctlRMW_keepsMachi (fun _ => and_outsideControl BitVec.and_self) fun _ => BitVec.zero_and)
    fun _ t _ _ => updEng_keepsMachi _ t

theorem setPromisc_keepsMachi (on : Bool) (s : State) : At (KeepsMachi outsideControl) (setPromisc on) s := by
  refine At.bind keepsMachi_closed (updEng_keepsMachi _ s) fun _ t _ _ => At.get_bind ?_
  split
  · exact At.bind keepsMachi_closed (ctlRMW_keepsMachi (fun _ => BitVec.zero_and) fun _ => allpkts_outsideControl _)
      fun _ u _ _ => updEng_keepsMachi _ u
  · exact At.bind keepsMachi_closed (ctlRMW_keepsMachi (fun _ => allpkts_outsideControl _) fun _ => BitVec.zero_and)
      fun _ u _ _ => updEng_keepsMachi _ u

/-- INIT and SET_PROMISC write control bits only; every other step, IRQ_EN at most. -/
theorem exec_keepsMachi {i : Instr} {s t : State} (hbus : isBus i = false) (hreset : i ≠ .evReset)
    (h : exec i s = .next t) : KeepsMachi outsideControl s t := by
  by_cases hinit : i = .stInit
  · subst hinit
    exact At.gate keepsMachi_closed (fun _ => initStep_keepsMachi s) h
  by_cases hpromisc : ∃ on, i = .setPromisc on
  · obtain ⟨on, rfl⟩ := hpromisc
    exact At.gate keepsMachi_closed (fun _ => setPromisc_keepsMachi on s) h
  exact exec_kept (keepsMachi_kept fun c _ => irqEn_outsideControl c) hbus hinit (fun on he => hpromisc ⟨on, he⟩) hreset
    (fun _ => memWrite8_keepsMachi) h

/-- Settles O55: every engine step keeps the bits of MACHI outside the control bits, whichever way it ends. -/
theorem engineChangesOnlyTheControlBits : Obligations.EngineChangesOnlyTheControlBits :=
  fun _ _ _ hc hr hbus hreset h => (exec_keepsMachi hbus hreset h).bits hc hr

end Sys2Proof.Machine
end

section
/-! PROOFS. What each step puts out on the ports (spec/40_register_interface.md R135; spec/42_receive.md R170, R190;
spec/60_exceptions.md R266): a step body is followed access by access, and every register that names an offset or an
argument holds what it held at the step's start. -/

namespace Sys2Proof.Machine

/-! ## Operations that put out only events satisfying `P` -/

/-- The configuration stays, and the trace grows by events that satisfy `P` only. -/
structure Issues (P : PortEvent → Prop) (s t : State) : Prop where
  cfg : t.cfg = s.cfg
  trace : ∃ events, t.trace = events ++ s.trace ∧ ∀ e ∈ events, P e

section
variable {P : PortEvent → Prop}

theorem Issues.silent {s t : State} (hcfg : t.cfg = s.cfg) (htrace : t.trace = s.trace) : Issues P s t :=
  ⟨hcfg, [], htrace, fun _ he => absurd he List.not_mem_nil⟩

theorem Issues.one {s t : State} {e : PortEvent} (hcfg : t.cfg = s.cfg) (htrace : t.trace = e :: s.trace) (he : P e) :
    Issues P s t :=
  ⟨hcfg, [e], htrace, fun _ h => List.mem_singleton.mp h ▸ he⟩

theorem issues_closed : Closed (Issues P) where
  refl _ := .silent rfl rfl
  trans h k := by
    obtain ⟨before, hbefore, hp⟩ := h.trace
    obtain ⟨later, hlater, hq⟩ := k.trace
    exact ⟨k.cfg.trans h.cfg, later ++ before, by rw [hlater, hbefore, List.append_assoc],
      fun e he => (List.mem_append.mp he).elim (hq e) (hp e)⟩

/-- An assignment to the engine puts out nothing. -/
theorem Issues.updEng_bind {α : Type} {f : Engine → Engine} {g : Unit → Op α} {s : State}
    (h : At (Issues P) (g ()) (s.updEng f)) : At (Issues P) (updEng f >>= g) s :=
  ⟨h.cfg, h.trace⟩

/-- A read of a working register that does not raise F_UNWRITTEN answers what the register holds (R32). -/
theorem Issues.read_bind {α β : Type} {x : Op α} {idx : Nat} {reg : Option α} {f : α → Op β} {s : State}
    (hx : x s = readReg idx reg s) (hf : ∀ a, reg = some a → At (Issues P) (f a) s) : At (Issues P) (x >>= f) s := by
  rw [At, run_bind, hx, run_readReg]
  cases hreg : reg with
  | some a => exact hf a hreg
  | none => exact .silent rfl rfl

theorem Issues.readLenBytes_bind {β : Type} {f : Nat → Op β} {s : State}
    (hf : ∀ n, s.eng.len = some (.bytes n) → At (Issues P) (f n) s) : At (Issues P) (readLenBytes >>= f) s := by
  match hl : s.eng.len with
  | some (.bytes n) => rw [At, run_bind, readLenBytes_some hl]; exact hf n hl
  | some .badlen =>
    have hrun : readLenBytes s = .error () (s.recordFault .unwritten 4) := by simp [readLenBytes, readLen_some hl]
    rw [At, run_bind, hrun]; exact .silent rfl rfl
  | none => rw [At, run_bind, readLenBytes_none hl]; exact .silent rfl rfl

theorem devRead_issues {off : Nat} (h : ∀ e, readsAt off e → P e) (s : State) : At (Issues P) (devRead off) s :=
  devRead_within off
    (fun s r _ => .one (afterRead_cfg s off r) (afterRead_trace s off r) (h _ (.inl ⟨_, rfl⟩)))
    (fun _ _ _ => .one rfl rfl (h _ (.inr rfl)))
    (fun _ _ => .silent rfl rfl) s

theorem devWrite_issues {off : Nat} {v : Word} (hwr : P (.wr off v)) (hfailed : P (.failed off)) (s : State) :
    At (Issues P) (devWrite off v) s :=
  devWrite_within off v
    (fun _ _ _ => .one rfl rfl hwr)
    (fun _ _ _ _ _ => .one rfl rfl hfailed)
    (fun _ _ => .silent rfl rfl) s

theorem ctlRMW_issues (clear set : Word) {s : State} (h : ∀ e, touchesMachi s.cfg e → P e) :
    At (Issues P) (ctlRMW clear set) s :=
  At.get_bind <| At.bind issues_closed (devRead_issues (fun e he => h e (.inl he)) s) fun _ t _ _ =>
    devWrite_issues (h _ (.inr (.inl ⟨_, rfl⟩))) (h _ (.inr (.inr rfl))) t

theorem memRead_issues (a : Nat) (s : State) : At (Issues P) (memRead a) s :=
  memRead_within a (fun _ => .silent rfl rfl) (fun _ => .silent rfl rfl) (fun _ => .silent rfl rfl) s

theorem memWrite8_issues (a : Nat) (w : Word) (s : State) : At (Issues P) (memWrite8 a w) s :=
  memWrite8_within a w (fun _ _ _ => .silent rfl rfl) (fun _ => .silent rfl rfl) (fun _ _ _ => .silent rfl rfl) s

/-! ## The two copy loops -/

/-- A completed host write leaves the engine alone. -/
theorem memWrite8_eng {a : Nat} {w : Word} {s t : State} {u : Unit} (h : memWrite8 a w s = .ok u t) : t.eng = s.eng := by
  unfold memWrite8 at h
  split at h
  · cases h
  · split at h <;> cases h
    rfl

theorem txByte_issues (h : Word) (len j : Nat) (s : State) : At (Issues P) (txByte h len j) s := by
  unfold txByte
  split
  · exact memRead_issues _ s
  · exact .silent rfl rfl

theorem txBytes_issues (h : Word) (len n : Nat) : ∀ j s, At (Issues P) (txBytes h len n j) s := by
  induction n with
  | zero => exact fun _ s => issues_closed.refl s
  | succ n ih =>
    exact fun j s => At.bind issues_closed (txByte_issues h len j s) fun _ t _ _ =>
      At.bind issues_closed (ih (j + 1) t) fun _ u _ _ => issues_closed.refl u

theorem txWord_issues (h : Word) (len k : Nat) (s : State) : At (Issues P) (txWord h len k) s :=
  At.bind issues_closed (txBytes_issues h len 8 (8 * k) s) fun _ t _ _ => issues_closed.refl t

/-- The transmit copy writes the window words `k` to `k + n - 1` (R150). -/
theorem txCopy_issues {c : Config} (h : Word) (len n : Nat) : ∀ k s, s.cfg = c →
    (∀ j e, j < k + n → writesAt (txAddr c j) e → P e) → At (Issues P) (txCopy h len n k) s := by
  induction n with
  | zero => exact fun _ s _ _ => issues_closed.refl s
  | succ n ih =>
    intro k s hc hp
    refine At.bind issues_closed (txWord_issues h len k s) fun w t _ ht => At.get_bind ?_
    rw [ht.cfg, hc]
    refine At.bind issues_closed (devWrite_issues ?_ ?_ t) fun _ u _ hu =>
      ih (k + 1) u (hu.cfg.trans (ht.cfg.trans hc)) fun j e hj => hp j e (by omega)
    · exact hp k _ (by omega) (.inl ⟨w, rfl⟩)
    · exact hp k _ (by omega) (.inr rfl)

/-- The receive copy reads the words `k` to `k + n - 1` of the decoded slot, whose number the loop leaves as it is (R185). -/
theorem rxCopy_issues {c : Config} {slot : Option Nat} (n : Nat) : ∀ k s, s.cfg = c → s.eng.slot = slot →
    (∀ i j e, slot = some i → j < k + n → readsAt (rxAddr c i j) e → P e) → At (Issues P) (rxCopy n k) s := by
  induction n with
  | zero => exact fun _ s _ _ _ => issues_closed.refl s
  | succ n ih =>
    intro k s hc hslot hp
    refine At.get_bind <| Issues.read_bind rfl fun i hi => ?_
    rw [hc]
    refine At.bind issues_closed
      (devRead_issues (fun e => hp i k e (hslot.symm.trans hi) (by omega)) s) fun w t hread ht =>
      Issues.read_bind rfl fun b _ =>
      At.bind issues_closed (memWrite8_issues _ w t) fun _ u hwrite hu =>
      ih (k + 1) u (hu.cfg.trans (ht.cfg.trans hc)) ?_ fun i j e hi hj => hp i j e hi (by omega)
    rw [memWrite8_eng hwrite, devRead_eng hread, hslot]

end

/-! ## Commands and events -/

theorem txSend_issues (len : BitVec 24) (h : Word) (s : State) :
    At (Issues (mayIssue s (.txSend len h))) (txSend len.toNat h) s := by
  have drop : At (Issues (mayIssue s (.txSend len h))) (txDrop h len.toNat) s := .one rfl rfl (.inl rfl)
  refine At.get_bind ?_
  split
  · exact drop
  split
  · exact drop
  · next hrun hlen =>
    have hsend : s.eng.running = true ∧ len.toNat ≤ s.cfg.txWindowBytes := ⟨by simpa using hrun, by omega⟩
    refine At.get_bind <| At.bind issues_closed (txCopy_issues h _ _ 0 s rfl fun j e hj he => ?_) fun _ t _ _ =>
      At.bind issues_closed (devWrite_issues ?_ ?_ t) fun _ u _ _ => .one rfl rfl (.inl rfl)
    · exact .inr ⟨hsend.1, hsend.2, .inl ⟨j, by omega, he⟩⟩
    · exact .inr ⟨hsend.1, hsend.2, .inr (.inl rfl)⟩
    · exact .inr ⟨hsend.1, hsend.2, .inr (.inr rfl)⟩

theorem ifStart_issues (s : State) : At (Issues (mayIssue s .ifStart)) ifStart s := by
  refine Issues.updEng_bind <| At.get_bind ?_
  split
  · next hmode =>
    exact At.bind issues_closed (ctlRMW_issues _ _ fun _ he => ⟨hmode, he⟩) fun _ _ _ _ => .silent rfl rfl
  · exact .silent rfl rfl

theorem setPromisc_issues (on : Bool) (s : State) : At (Issues (mayIssue s (.setPromisc on))) (setPromisc on) s := by
  refine Issues.updEng_bind <| At.get_bind ?_
  split <;> exact At.bind issues_closed (ctlRMW_issues _ _ fun _ he => he) fun _ _ _ _ => .silent rfl rfl

theorem setCaps_issues (req : BitVec 24) (s : State) : At (Issues (mayIssue s (.setCaps req))) (setCaps req) s := by
  unfold setCaps
  split <;> exact .silent rfl rfl

theorem readMac_issues (s : State) : At (Issues (mayIssue s .readMac)) readMac s :=
  At.get_bind <| At.bind issues_closed (devRead_issues (fun _ => .inl) s) fun _ t _ _ =>
    At.bind issues_closed (devRead_issues (fun _ => .inr) t) fun _ _ _ _ => .silent rfl rfl

theorem readCounter_issues (sel : BitVec 3) (s : State) :
    At (Issues (mayIssue s (.readCounter sel))) (readCounter sel) s := by
  refine At.get_bind ?_
  split <;> exact .silent rfl rfl

theorem fastPath_issues (s : State) : At (Issues (mayIssue s .evRxIrq)) fastPath s := by
  refine At.get_bind ?_
  split
  · next hmode =>
    refine At.bind issues_closed (devRead_issues (fun _ he => ⟨hmode, .inl he⟩) s) fun _ t _ ht => ?_
    split
    · refine At.bind issues_closed (ctlRMW_issues _ _ fun _ he => ⟨hmode, .inr ?_⟩) fun _ _ _ _ => .silent rfl rfl
      rwa [ht.cfg] at he
    · exact issues_closed.refl t
  · exact issues_closed.refl s

/-- The status check both ticks share reads RSR, and only while no activation runs (R229, R230). -/
theorem checkAndSignal_issues {P : PortEvent → Prop} {s : State}
    (h : ∀ e, s.eng.busy = false → readsAt s.cfg.offRsr e → P e) : At (Issues P) checkAndSignal s := by
  refine At.get_bind ?_
  split
  · next hbusy =>
    refine At.bind issues_closed (devRead_issues (fun e => h e hbusy) s) fun _ t _ _ => ?_
    split <;> exact .silent rfl rfl
  · exact issues_closed.refl s

theorem pollTick_issues (s : State) : At (Issues (mayIssue s .evPollTick)) pollTick s := by
  refine At.get_bind ?_
  split
  · next hmode => exact checkAndSignal_issues fun _ hbusy he => ⟨hmode, hbusy, he⟩
  · exact issues_closed.refl s

/-! ## INIT and the worker steps -/

theorem initStep_issues (s : State) : At (Issues (mayIssue s .stInit)) initStep s :=
  At.get_bind <| At.bind issues_closed (ctlRMW_issues _ _ fun _ he => he) fun _ _ _ _ => .silent rfl rfl

theorem wkTest_issues (s : State) : At (Issues (mayIssue s .wkTest)) wkTest s :=
  At.get_bind <| At.bind issues_closed (devRead_issues (fun _ he => he) s) fun _ _ _ _ => .silent rfl rfl

theorem wkDecode_issues (s : State) : At (Issues (mayIssue s .wkDecode)) wkDecode s :=
  At.get_bind <| Issues.read_bind rfl fun st hst => Issues.updEng_bind <|
    At.bind issues_closed (devRead_issues (fun _ => .inl) _) fun _ _ _ _ => Issues.updEng_bind <|
    At.bind issues_closed (devRead_issues (fun _ he => .inr ⟨st, hst, he⟩) _) fun _ _ _ _ => .silent rfl rfl

theorem wkValidate_issues (s : State) : At (Issues (mayIssue s .wkValidate)) wkValidate s :=
  At.get_bind <| Issues.read_bind rfl fun _ _ => Issues.read_bind rfl fun _ _ => Issues.read_bind rfl fun _ _ =>
    .silent rfl rfl

theorem wkReject_issues (s : State) : At (Issues (mayIssue s .wkReject)) wkReject s :=
  At.get_bind <| Issues.updEng_bind <| Issues.read_bind rfl fun i hi =>
    At.bind issues_closed (devWrite_issues (.inl ⟨i, hi, rfl⟩) (.inr rfl) _) fun _ _ _ _ => .silent rfl rfl

theorem wkAlloc_issues (s : State) : At (Issues (mayIssue s .wkAlloc)) wkAlloc s :=
  At.get_bind <| Issues.read_bind rfl fun _ _ => .one rfl rfl ⟨_, rfl⟩

theorem wkCopy_issues (s : State) : At (Issues (mayIssue s .wkCopy)) wkCopy s :=
  Issues.readLenBytes_bind fun n hn => At.bind issues_closed
    (rxCopy_issues _ 0 s rfl rfl fun i k _ hi hk he => ⟨i, n, k, hi, hn, by omega, he⟩) fun _ _ _ _ => .silent rfl rfl

theorem wkAdvance_issues (s : State) : At (Issues (mayIssue s .wkAdvance)) wkAdvance s :=
  At.get_bind <| Issues.read_bind rfl fun i hi =>
    At.bind issues_closed (devWrite_issues (.inl ⟨i, hi, rfl⟩) (.inr rfl) s) fun _ _ _ _ => .silent rfl rfl

theorem wkDeliver_issues (s : State) : At (Issues (mayIssue s .wkDeliver)) wkDeliver s := by
  refine At.get_bind <| Issues.read_bind rfl fun b hb => ?_
  have hbuf := Option.join_eq_some_iff.mp hb
  split
  · next hrun => exact Issues.readLenBytes_bind fun n hn => .one rfl rfl ⟨b, hbuf, .inr ⟨hrun, n, hn, rfl⟩⟩
  · next hrun => exact .one rfl rfl ⟨b, hbuf, .inl ⟨by simpa using hrun, rfl⟩⟩

theorem wkExit_issues (s : State) : At (Issues (mayIssue s .wkExit)) wkExit s := by
  refine Issues.updEng_bind <| At.get_bind ?_
  split
  · next hmode => exact ctlRMW_issues _ _ fun _ he => ⟨hmode, he⟩
  · exact .silent rfl rfl

/-! ## Bus requests -/

section
variable {P : PortEvent → Prop} {s : State}

theorem busRead_issues (inRange : Bool) {r : ReadReg} (h : ∀ e, readsAt (readOffset s.cfg r) e → P e) :
    At (Issues P) (busRead inRange r) s := by
  refine At.get_bind ?_
  split
  · exact At.bind issues_closed (devRead_issues h s) fun _ t _ _ => issues_closed.refl t
  · exact .silent rfl rfl

theorem busWrite_issues (inRange : Bool) {r : WriteReg} (v : Word) (h : ∀ e, writesAt (writeOffset s.cfg r) e → P e) :
    At (Issues P) (busWrite inRange r v) s := by
  refine At.get_bind ?_
  split
  · exact devWrite_issues (h _ (.inl ⟨v, rfl⟩)) (h _ (.inr rfl)) s
  · exact .silent rfl rfl

end

/-! ## Every operation -/

/-- Every operation puts out only what `mayIssue` lists for it, in any state. -/
theorem exec_issues {i : Instr} {s t : State} (h : exec i s = .next t) : Issues (mayIssue s i) s t := by
  cases i with
  | txSend len w => exact At.gate issues_closed (fun _ => txSend_issues len w s) h
  | ifStart => exact At.gate issues_closed (fun _ => ifStart_issues s) h
  | setPromisc on => exact At.gate issues_closed (fun _ => setPromisc_issues on s) h
  | setCaps req => exact At.gate issues_closed (fun _ => setCaps_issues req s) h
  | readMac => exact At.gate issues_closed (fun _ => readMac_issues s) h
  | readCounter sel => exact At.gate issues_closed (fun _ => readCounter_issues sel s) h
  | ifStop | getPromisc | getCaps | getMaxlen | wkAbort => exact At.gate issues_closed (fun _ => .silent rfl rfl) h
  | evRxIrq => exact At.gate issues_closed (fun _ => fastPath_issues s) h
  | evPollTick => exact At.gate issues_closed (fun _ => pollTick_issues s) h
  | evWatchdogTick => exact At.gate issues_closed (fun _ => checkAndSignal_issues fun _ hbusy he => ⟨hbusy, he⟩) h
  | evReset => cases h; exact .silent rfl rfl
  | stInit => exact At.gate issues_closed (fun _ => initStep_issues s) h
  | wkTest => exact At.gate issues_closed (fun _ => wkTest_issues s) h
  | wkDecode => exact At.gate issues_closed (fun _ => wkDecode_issues s) h
  | wkValidate => exact At.gate issues_closed (fun _ => wkValidate_issues s) h
  | wkReject => exact At.gate issues_closed (fun _ => wkReject_issues s) h
  | wkAlloc => exact At.gate issues_closed (fun _ => wkAlloc_issues s) h
  | wkCopy => exact At.gate issues_closed (fun _ => wkCopy_issues s) h
  | wkAdvance => exact At.gate issues_closed (fun _ => wkAdvance_issues s) h
  | wkDeliver => exact At.gate issues_closed (fun _ => wkDeliver_issues s) h
  | wkExit => exact At.gate issues_closed (fun _ => wkExit_issues s) h
  | rdMaclo => exact At.gate issues_closed (fun _ => busRead_issues _ (r := .maclo) fun _ he => he) h
  | rdMachi => exact At.gate issues_closed (fun _ => busRead_issues _ (r := .machi) fun _ he => he) h
  | rdRsr => exact At.gate issues_closed (fun _ => busRead_issues _ (r := .rsr) fun _ he => he) h
  | rdRbad => exact At.gate issues_closed (fun _ => busRead_issues _ (r := .rbad) fun _ he => he) h
  | rdRplr i => exact At.gate issues_closed (fun _ => busRead_issues _ (r := .rplr i) fun _ he => he) h
  | rdRxbuf i k => exact At.gate issues_closed (fun _ => busRead_issues _ (r := .rxbuf i k) fun _ he => he) h
  | wrMachi v => exact At.gate issues_closed (fun _ => busWrite_issues _ (r := .machi) v fun _ he => he) h
  | wrTplr v => exact At.gate issues_closed (fun _ => busWrite_issues _ (r := .tplr) v fun _ he => he) h
  | wrRsr v => exact At.gate issues_closed (fun _ => busWrite_issues _ (r := .rsr) v fun _ he => he) h
  | wrTxbuf k v => exact At.gate issues_closed (fun _ => busWrite_issues _ (r := .txbuf k) v fun _ he => he) h

/-- Settles O54: what a step puts out rests on its start state alone; the invariant is not needed for it. -/
theorem stepsIssueOnlyTheirAccesses : Obligations.StepsIssueOnlyTheirAccesses :=
  fun _ _ _ _ h => (exec_issues h).trace

end Sys2Proof.Machine
end

section
/-! PROOFS. TX_SEND (spec/41_transmit.md R150 to R155): the drop, the completed send, and what the reference device puts on
the wire for it. -/

namespace Sys2Proof.Machine

/-! ## The two branches of R150 -/

theorem txSend_eq_txDrop {s : State} {len : Nat} (h : Word) (hd : s.eng.running = false ∨ s.cfg.txWindowBytes < len) :
    txSend len h s = txDrop h len s := by
  simp only [txSend, run_bind, run_get, run_ite]
  rcases hd with hrun | hlong
  · rw [if_pos hrun]
  · rw [if_pos hlong, ite_self]

theorem txSend_eq_txSendFrame {s : State} {len : Nat} (h : Word) (hrun : s.eng.running = true) (hfit : len ≤ s.cfg.txWindowBytes) :
    txSend len h s = txSendFrame h len s := by
  simp only [txSend, run_bind, run_get, run_ite, hrun, Bool.true_eq_false, if_false, Nat.not_lt.mpr hfit]

/-! ## The drop -/

/-- Settles O26: either condition leads to the drop, which makes no access. -/
theorem txSendDropsWithoutTouchingTheDevice : Obligations.TxSendDropsWithoutTouchingTheDevice := by
  intro s len h hup hd
  refine (gate_on hup _ s).trans (congrArg _ (stateAfter_ok (a := ()) ?_))
  rw [txSend_eq_txDrop h hd]
  rfl

/-! ## The send -/

/-- A window word of a frame that fits lies apart from TPLR. -/
theorem txAddr_ne_tplr {c : Config} (hc : ConfigFacts c) {k : Nat} (hk : 8 * k < c.txWindowBytes) :
    txAddr c k ≠ c.offTplr :=
  hc.regionsApart.tplr_tx.ne (Nat.le_add_right _ _) (Nat.add_lt_add_left hk _)

/-- The words of a frame that fits the window fit it too. -/
theorem words8_fit {c : Config} (hc : ConfigFacts c) {len : Nat} (hfit : len ≤ c.txWindowBytes) :
    8 * words8 len ≤ c.txWindowBytes := by
  have := hc.tx8
  unfold words8; omega

theorem div8_lt_words8 {j len : Nat} (hj : j < len) : j / 8 < words8 len := by
  unfold words8; omega

/-- What R150 does after the copy loop: the trigger, the counters, the release and the response. -/
def State.trigger (u : State) (h : Word) (len : Nat) : State :=
  (((u.afterWrite u.cfg.offTplr (BitVec.ofNat 64 len) .tplr).updEng fun e =>
    { e with opackets := e.opackets + 1, obytes := e.obytes + BitVec.ofNat 64 len }).emit (.releaseFrame h len)).updEng
    fun e => { e with resp := ⟨.ok, 0⟩ }

theorem trigger_dev (u : State) (h : Word) (len : Nat) :
    (u.trigger h len).dev = applyWrite u.cfg u.dev (BitVec.ofNat 64 len) .tplr := rfl

/-- TPLR holds the length, and every other word stays. -/
theorem trigger_word (u : State) (h : Word) (len off : Nat) :
    (u.trigger h len).dev.word off = if off = u.cfg.offTplr then BitVec.ofNat 64 len else u.dev.word off := by
  rw [trigger_dev, applyWrite_tplr]
  exact word_store u.dev _ off _

theorem trigger_ring (u : State) (h : Word) (len : Nat) : (u.trigger h len).dev.cons = u.dev.cons ∧
    (u.trigger h len).dev.full = u.dev.full ∧ (u.trigger h len).dev.bad = u.dev.bad := by
  rw [trigger_dev, applyWrite_tplr]
  exact ⟨rfl, rfl, rfl⟩

section
variable {s : State} {len : BitVec 24} {h : Word} (hc : ConfigOk s.cfg) (hq : s.quiet) (hup : s.up = true)
  (hrun : s.eng.running = true) (hfit : len.toNat ≤ s.cfg.txWindowBytes)
  (hhost : h.toNat + len.toNat ≤ 2 ^ s.cfg.hostAddrBits)
include hc hq hup hrun hfit hhost

/-- A frame that fits, no access failing: the copy loop fills the window with the frame's bytes, and the trigger follows. -/
theorem exec_txSend_of_fits :
    ∃ ws u, exec (.txSend len h) s = .next (u.trigger h len.toNat) ∧ Copied s u ws 0 (words8 len.toNat) ∧
      ∀ j, j < len.toNat → byteOf (ws (j / 8)) (j % 8) = s.mem.read (h.toNat + j) := by
  obtain ⟨ws, u, hcopy, hu, hbytes⟩ := txCopy_ok (words8 len.toNat) 0 hc.facts hq hhost
    (by rw [Nat.zero_add]; exact words8_fit hc.facts hfit)
  refine ⟨ws, u, ?_, hu, fun j hj => ?_⟩
  · have hsel : selectWrite u.cfg u.cfg.offTplr = some .tplr := by rw [hu.cfg]; exact selectWrite_tplr hc.facts
    refine (gate_on hup _ s).trans (congrArg _ (stateAfter_ok (a := ()) ?_))
    rw [txSend_eq_txSendFrame h hrun hfit]
    simp only [txSendFrame, run_bind, run_get, hcopy, ← hu.cfg, devWrite_ok hu.busFail hsel, run_updEng,
      run_releaseFrame, run_respond, State.trigger]
  · have hword := div8_lt_words8 hj
    rw [hbytes (j / 8) (j % 8) (Nat.zero_le _) (by omega) (by omega) (by omega), Nat.div_add_mod]

end

/-- Settles O27: the device words after the trigger are those of the copy, but for TPLR, which lies apart from the window. -/
theorem txSendCopiesCountsAndTriggers : Obligations.TxSendCopiesCountsAndTriggers := by
  intro s len h hc hq hup hrun hfit hhost
  obtain ⟨ws, u, hexec, hu, hbytes⟩ := exec_txSend_of_fits hc hq hup hrun hfit hhost
  have hword := trigger_word u h len.toNat
  obtain ⟨hcons, hfull, hbad⟩ := trigger_ring u h len.toNat
  rw [hu.cfg] at hword
  refine ⟨_, hexec, ⟨ws, ⟨hu.cfg, ?_, rfl, hu.mem, ?_, hu.agenda⟩, fun k hk => ?_, hbytes⟩, ?_, fun off htplr htx => ?_,
    hcons.trans hu.cons, hfull.trans hu.full, hbad.trans hu.bad⟩
  · rw [← hu.eng]; rfl
  · rw [List.range_eq_range', List.cons_append, List.cons_append, ← hu.trace, ← hu.cfg]; rfl
  · have := words8_fit hc.facts hfit
    rw [hword, if_neg (txAddr_ne_tplr hc.facts (by omega)), hu.words k (Nat.zero_le _) (by omega)]
  · rw [hword, if_pos rfl]
  · rw [hword, if_neg htplr, hu.others off fun j _ hj => htx j (by omega)]

/-! ## The wire -/

/-- A window that holds the frame's bytes sends the frame. -/
theorem sentFrame_eq_bytes {c : Config} {d : Device} {m : Memory} {a len : Nat} (hfit : len ≤ c.txWindowBytes)
    (hbytes : ∀ j, j < len → txWindowByte c d j = m.read (a + j)) : sentFrame c d len = m.bytes a len := by
  rw [sentFrame, Nat.min_eq_left hfit]
  exact List.map_congr_left fun j hj => hbytes j (List.mem_range.mp hj)

/-- Settles O28: the trigger sends the first `L` bytes of the window, which are the frame's. -/
theorem transmittedFrameIsTheHostFrame : Obligations.TransmittedFrameIsTheHostFrame := by
  intro s len h hc href hq hup hrun hfit hhost
  obtain ⟨ws, u, hexec, hu, hbytes⟩ := exec_txSend_of_fits hc hq hup hrun hfit hhost
  have hlen : (BitVec.ofNat 64 len.toNat).toNat = len.toNat := by
    rw [BitVec.toNat_ofNat]; exact Nat.mod_eq_of_lt (by omega)
  have hsent : sentFrame s.cfg u.dev len.toNat = s.mem.bytes h.toNat len.toNat :=
    sentFrame_eq_bytes hfit fun j hj => by
      have hword := div8_lt_words8 hj
      rw [txWindowByte, hu.words _ (Nat.zero_le _) (by omega), hbytes j hj]
  refine ⟨_, hexec, ?_⟩
  simp only [trigger_dev, applyWrite_tplr, hu.cfg, href, if_true, hlen, hsent, hu.wire]

end Sys2Proof.Machine
end

section
/-! PROOFS. What an operation can do to the engine, said once: a chain of assignments, each taken at its own step pointer
(spec/42_receive.md R173 to R189; spec/10_state.md R33). An invariant of the engine needs only be kept by each of them. -/

namespace Sys2Proof.Machine

/-! ## Operations that assign no engine field -/

/-- Configuration and engine stay, but for a recorded fault. -/
structure SameEngine (s t : State) : Prop where
  cfg : t.cfg = s.cfg
  eng : t.eng = { s.eng with fault := t.eng.fault }

theorem sameEngine_closed : Closed SameEngine where
  refl _ := ⟨rfl, rfl⟩
  trans h k := ⟨k.cfg.trans h.cfg, by rw [k.eng, h.eng]⟩

theorem devRead_sameEngine (off : Nat) (s : State) : At SameEngine (devRead off) s := by
  obtain ⟨hcfg, -, -, heng⟩ := devRead_end off s
  exact ⟨hcfg, heng⟩

theorem devWrite_sameEngine (off : Nat) (v : Word) (s : State) : At SameEngine (devWrite off v) s := by
  obtain ⟨hcfg, -, heng, -⟩ := devWrite_end off v s
  exact ⟨hcfg, heng⟩

theorem memRead_sameEngine (a : Nat) (s : State) : At SameEngine (memRead a) s := by
  obtain ⟨hcfg, -, -, heng⟩ := memRead_end a s
  exact ⟨hcfg, heng⟩

theorem memWrite8_sameEngine (a : Nat) (w : Word) (s : State) : At SameEngine (memWrite8 a w) s := by
  obtain ⟨hcfg, -, heng, -⟩ := memWrite8_end a w s
  exact ⟨hcfg, heng⟩

theorem readReg_sameEngine {α : Type} (idx : Nat) (reg : Option α) (s : State) : At SameEngine (readReg idx reg) s :=
  At.readReg sameEngine_closed (fun _ _ => ⟨rfl, rfl⟩) idx reg s

theorem readLenBytes_sameEngine (s : State) : At SameEngine readLenBytes s := by
  refine At.bind sameEngine_closed (readReg_sameEngine _ _ s) fun len t _ _ => ?_
  cases len with
  | bytes n => exact sameEngine_closed.refl t
  | badlen => exact ⟨rfl, rfl⟩

theorem ctlRMW_sameEngine (clear set : Word) (s : State) : At SameEngine (ctlRMW clear set) s :=
  At.ctlRMW sameEngine_closed devRead_sameEngine devWrite_sameEngine clear set s

theorem txByte_sameEngine (h : Word) (len j : Nat) (s : State) : At SameEngine (txByte h len j) s := by
  unfold txByte
  split
  · exact memRead_sameEngine _ s
  · exact ⟨rfl, rfl⟩

theorem txBytes_sameEngine (h : Word) (len n : Nat) : ∀ j s, At SameEngine (txBytes h len n j) s := by
  induction n with
  | zero => exact fun _ s => sameEngine_closed.refl s
  | succ n ih =>
    exact fun j s => At.bind sameEngine_closed (txByte_sameEngine h len j s) fun _ t _ _ =>
      At.bind sameEngine_closed (ih (j + 1) t) fun _ u _ _ => sameEngine_closed.refl u

theorem txCopy_sameEngine (h : Word) (len n : Nat) : ∀ k s, At SameEngine (txCopy h len n k) s := by
  induction n with
  | zero => exact fun _ s => sameEngine_closed.refl s
  | succ n ih =>
    exact fun k s => At.bind sameEngine_closed
      (At.bind sameEngine_closed (txBytes_sameEngine h len 8 (8 * k) s) fun _ u _ _ => sameEngine_closed.refl u)
      fun w t _ _ => At.get_bind <| At.bind sameEngine_closed (devWrite_sameEngine _ w t) fun _ u _ _ => ih (k + 1) u

theorem rxCopy_sameEngine (n : Nat) : ∀ k s, At SameEngine (rxCopy n k) s := by
  induction n with
  | zero => exact fun _ s => sameEngine_closed.refl s
  | succ n ih =>
    exact fun k s => At.get_bind <| At.bind sameEngine_closed (readReg_sameEngine _ _ s) fun _ t _ _ =>
      At.bind sameEngine_closed (devRead_sameEngine _ t) fun w u _ _ =>
      At.bind sameEngine_closed (readReg_sameEngine _ _ u) fun _ v _ _ =>
      At.bind sameEngine_closed (memWrite8_sameEngine _ w v) fun _ x _ _ => ih (k + 1) x

/-! ## The assignments -/

/-- The working registers are the same. -/
structure SameRegisters (e e' : Engine) : Prop where
  st : e'.st = e.st := by rfl
  slot : e'.slot = e.slot := by rfl
  errs : e'.errs = e.errs := by rfl
  raw : e'.raw = e.raw := by rfl
  len : e'.len = e.len := by rfl
  buf : e'.buf = e.buf := by rfl

/-- The working registers, the step pointer and the busy flag are the same. -/
structure SameWork (e e' : Engine) : Prop extends SameRegisters e e' where
  wpc : e'.wpc = e.wpc := by rfl
  busy : e'.busy = e.busy := by rfl

/-- One assignment to the engine `e`, with what holds where it is made. -/
inductive EngineMove (c : Config) (e : Engine) : Engine → Prop
  | unrelated {e' : Engine} (h : SameWork e e') : EngineMove c e e'
  | signal : EngineMove c e e.signal
  | test (w : Word) (hw : e.wpc = .test) :
    EngineMove c e { e with st := some w, wpc := if isDone c w then .decode else .exit }
  | slot {st : Word} (hw : e.wpc = .decode) (hst : e.st = some st) : EngineMove c e { e with slot := some (slotOf c st) }
  | errs (w : Word) (hw : e.wpc = .decode) : EngineMove c e { e with errs := some w }
  | length {st errs : Word} (raw : Word) (hw : e.wpc = .decode) (hst : e.st = some st)
    (hslot : e.slot = some (slotOf c st)) (herrs : e.errs = some errs) :
    EngineMove c e { e with raw := some raw, len := some (decodeLen c raw e.rxcsum), wpc := .validate }
  | validate {len : FrameLen} {errs : Word} {i : Nat} (hw : e.wpc = .validate) (hlen : e.len = some len)
    (herrs : e.errs = some errs) (hslot : e.slot = some i) :
    EngineMove c e { e with wpc := if accept c len errs i then .alloc else .reject }
  | reject (hw : e.wpc = .reject) : EngineMove c e { e with wpc := .test }
  | alloc (b : Option Word) (hw : e.wpc = .alloc) (hroom : ∀ a, b = some a → a.toNat + c.rxBufMin ≤ 2 ^ c.hostAddrBits) :
    EngineMove c e (e.allocated b)
  | copy (hw : e.wpc = .copy) : EngineMove c e { e with wpc := .advance }
  | advance (hw : e.wpc = .advance) : EngineMove c e { e with wpc := .deliver }
  | deliver (hw : e.wpc = .deliver) : EngineMove c e { e with buf := some none, wpc := .test }
  | finish (hw : e.wpc = .exit ∨ e.wpc = .abort) : EngineMove c e e.endActivation
  | reset : EngineMove c e (Engine.reset c)

/-- The configuration stays, and the engine changes by assignments of `EngineMove` only. -/
structure Moves (s t : State) : Prop where
  cfg : t.cfg = s.cfg
  eng : Relation.ReflTransGen (EngineMove s.cfg) s.eng t.eng

theorem moves_closed : Closed Moves where
  refl _ := ⟨rfl, .refl⟩
  trans h k := ⟨k.cfg.trans h.cfg, h.eng.trans (h.cfg ▸ k.eng)⟩

/-- What every assignment keeps, every operation made of them keeps. -/
theorem Moves.keeps {P : Config → Engine → Prop} {s t : State} (h : Moves s t)
    (hP : ∀ e e', EngineMove s.cfg e e' → P s.cfg e → P s.cfg e') (hs : P s.cfg s.eng) : P t.cfg t.eng := by
  rw [h.cfg]
  exact Relation.ReflTransGen.head_induction_on (motive := fun e _ => P s.cfg e → P s.cfg t.eng) h.eng id
    (fun hm _ ih he => ih (hP _ _ hm he)) hs

theorem SameEngine.moves {s t : State} (h : SameEngine s t) : Moves s t :=
  ⟨h.cfg, .single (.unrelated (by rw [h.eng]; exact {}))⟩

section
variable {s : State}

theorem updEng_moves {f : Engine → Engine} (h : EngineMove s.cfg s.eng (f s.eng)) : At Moves (updEng f) s :=
  ⟨rfl, .single h⟩

/-- An assignment outside the worker's fields. -/
theorem updEng_moves_unrelated {f : Engine → Engine} (h : SameWork s.eng (f s.eng)) : At Moves (updEng f) s :=
  updEng_moves (.unrelated h)

theorem respond_moves (st : Status) (v : Word) (s : State) : At Moves (respond st v) s :=
  updEng_moves_unrelated {}

theorem emit_moves (e : PortEvent) (s : State) : At Moves (emit e) s := SameEngine.moves ⟨rfl, rfl⟩

theorem raise_moves {α : Type} (c : FaultCode) (i : Word) (s : State) : At Moves (raise c i : Op α) s :=
  SameEngine.moves ⟨rfl, rfl⟩

theorem devRead_moves (off : Nat) (s : State) : At Moves (devRead off) s := (devRead_sameEngine off s).moves

theorem devWrite_moves (off : Nat) (v : Word) (s : State) : At Moves (devWrite off v) s :=
  (devWrite_sameEngine off v s).moves

theorem ctlRMW_moves (clear set : Word) (s : State) : At Moves (ctlRMW clear set) s :=
  (ctlRMW_sameEngine clear set s).moves

/-- A read of a working register that does not raise F_UNWRITTEN answers what the register holds (R32). -/
theorem Moves.read_bind {α β : Type} {x : Op α} {idx : Nat} {reg : Option α} {f : α → Op β}
    (hx : x s = readReg idx reg s) (hf : ∀ a, reg = some a → At Moves (f a) s) : At Moves (x >>= f) s := by
  rw [At, run_bind, hx, run_readReg]
  cases hreg : reg with
  | some a => exact hf a hreg
  | none => exact raise_moves (α := α) _ _ s

/-- A device read that completes leaves the engine as it was. -/
theorem Moves.devRead_bind {β : Type} {off : Nat} {f : Word → Op β}
    (hf : ∀ w t, t.cfg = s.cfg → t.eng = s.eng → At Moves (f w) t) : At Moves (devRead off >>= f) s :=
  At.bind moves_closed (devRead_moves off s) fun w t h ht => hf w t ht.cfg (devRead_eng h)

/-- An operation that assigns no engine field leaves the step pointer where it was. -/
theorem Moves.same_bind {α β : Type} {x : Op α} {f : α → Op β} (hx : At SameEngine x s)
    (hf : ∀ a t, t.eng.wpc = s.eng.wpc → At Moves (f a) t) : At Moves (x >>= f) s :=
  At.bind moves_closed hx.moves fun a t h _ => hf a t (by
    have hst : SameEngine s t := by rw [At, h] at hx; exact hx
    rw [hst.eng])

/-- An assignment followed by the rest of the step. -/
theorem Moves.updEng_bind {β : Type} {f : Engine → Engine} {g : Unit → Op β} (h : EngineMove s.cfg s.eng (f s.eng))
    (hg : At Moves (g ()) (s.updEng f)) : At Moves (updEng f >>= g) s :=
  moves_closed.trans (updEng_moves h) hg

/-! ## Commands, events and INIT -/

theorem Moves.unrelated_bind {β : Type} {f : Engine → Engine} {g : Unit → Op β} (h : SameWork s.eng (f s.eng))
    (hg : At Moves (g ()) (s.updEng f)) : At Moves (updEng f >>= g) s :=
  Moves.updEng_bind (.unrelated h) hg

theorem txDrop_moves (h : Word) (len : Nat) (s : State) : At Moves (txDrop h len) s :=
  At.bind moves_closed (emit_moves _ s) fun _ t _ _ => respond_moves _ _ t

theorem txSend_moves (len : Nat) (h : Word) (s : State) : At Moves (txSend len h) s := by
  refine At.get_bind ?_
  split
  · exact txDrop_moves h len s
  split
  · exact txDrop_moves h len s
  · exact At.get_bind <| At.bind moves_closed (txCopy_sameEngine h len _ 0 s).moves fun _ t _ _ =>
      At.bind moves_closed (devWrite_moves _ _ t) fun _ u _ _ =>
      Moves.unrelated_bind {} <|
      At.bind moves_closed (emit_moves _ _) fun _ v _ _ => respond_moves _ _ v

theorem ifStart_moves (s : State) : At Moves ifStart s := by
  refine Moves.unrelated_bind {} <| At.get_bind ?_
  split
  · exact At.bind moves_closed (ctlRMW_moves _ _ _) fun _ t _ _ => respond_moves _ _ t
  · exact respond_moves _ _ _

theorem ifStop_moves (s : State) : At Moves ifStop s :=
  Moves.unrelated_bind {} <| respond_moves _ _ _

theorem setPromisc_moves (on : Bool) (s : State) : At Moves (setPromisc on) s := by
  refine Moves.unrelated_bind {} <| At.get_bind ?_
  split <;> exact At.bind moves_closed (ctlRMW_moves _ _ _) fun _ t _ _ => respond_moves _ _ t

theorem setCaps_moves (req : BitVec 24) (s : State) : At Moves (setCaps req) s := by
  unfold setCaps
  split
  · exact Moves.unrelated_bind {} <| respond_moves _ _ _
  · exact respond_moves _ _ s

theorem readMac_moves (s : State) : At Moves readMac s :=
  At.get_bind <| At.bind moves_closed (devRead_moves _ s) fun _ t _ _ =>
    At.bind moves_closed (devRead_moves _ t) fun _ u _ _ => respond_moves _ _ u

theorem readCounter_moves (sel : BitVec 3) (s : State) : At Moves (readCounter sel) s := by
  refine At.get_bind ?_
  split
  · exact respond_moves _ _ s
  · exact raise_moves _ _ s

theorem fastPath_moves (s : State) : At Moves fastPath s := by
  refine At.get_bind ?_
  split
  · refine At.bind moves_closed (devRead_moves _ s) fun _ t _ _ => ?_
    split
    · exact At.bind moves_closed (ctlRMW_moves _ _ t) fun _ u _ _ => updEng_moves .signal
    · exact moves_closed.refl t
  · exact moves_closed.refl s

theorem checkAndSignal_moves (s : State) : At Moves checkAndSignal s := by
  refine At.get_bind ?_
  split
  · refine At.bind moves_closed (devRead_moves _ s) fun _ t _ _ => ?_
    split
    · exact updEng_moves .signal
    · exact moves_closed.refl t
  · exact moves_closed.refl s

theorem pollTick_moves (s : State) : At Moves pollTick s := by
  refine At.get_bind ?_
  split
  · exact checkAndSignal_moves s
  · exact moves_closed.refl s

theorem initStep_moves (s : State) : At Moves initStep s :=
  At.get_bind <| At.bind moves_closed (ctlRMW_moves _ _ s) fun _ _ _ _ =>
    updEng_moves_unrelated {}

/-! ## Worker steps, each at its own step pointer -/

theorem wkTest_moves (hw : s.eng.wpc = .test) : At Moves wkTest s :=
  At.get_bind <| Moves.devRead_bind fun w t hc he => updEng_moves (by rw [hc, he]; exact .test w hw)

theorem wkDecode_moves (hw : s.eng.wpc = .decode) : At Moves wkDecode s := by
  refine At.get_bind <| Moves.read_bind rfl fun st hst => Moves.updEng_bind (.slot hw hst) <|
    Moves.devRead_bind fun errs t htc hte => Moves.updEng_bind ?_ <|
    Moves.devRead_bind fun raw u huc hue => updEng_moves ?_
  · rw [hte]; exact .errs errs hw
  · rw [hue, huc, updEng_cfg, htc, updEng_cfg, updEng_eng, hte]
    exact .length raw hw hst rfl rfl

theorem wkValidate_moves (hw : s.eng.wpc = .validate) : At Moves wkValidate s :=
  At.get_bind <| Moves.read_bind rfl fun _ hlen => Moves.read_bind rfl fun _ herrs => Moves.read_bind rfl fun _ hslot =>
    updEng_moves (.validate hw hlen herrs hslot)

theorem wkReject_moves (hw : s.eng.wpc = .reject) : At Moves wkReject s :=
  At.get_bind <| Moves.unrelated_bind {} <| Moves.read_bind rfl fun _ _ =>
    Moves.same_bind (devWrite_sameEngine _ _ _) fun _ _ ht => updEng_moves (.reject (ht.trans hw))

theorem wkAlloc_moves (hw : s.eng.wpc = .alloc) : At Moves wkAlloc s :=
  At.get_bind <| Moves.read_bind rfl fun _ _ =>
    ⟨rfl, .single (.alloc (s.nextAlloc s.cfg.rxBufMin) hw fun _ ha => (nextAlloc_lawful ha).1)⟩

theorem wkCopy_moves (hw : s.eng.wpc = .copy) : At Moves wkCopy s :=
  Moves.same_bind (readLenBytes_sameEngine s) fun n t ht =>
    Moves.same_bind (rxCopy_sameEngine (words8 n) 0 t) fun _ _ hu => updEng_moves (.copy (hu.trans (ht.trans hw)))

theorem wkAdvance_moves (hw : s.eng.wpc = .advance) : At Moves wkAdvance s :=
  At.get_bind <| Moves.read_bind rfl fun _ _ =>
    Moves.same_bind (devWrite_sameEngine _ _ s) fun _ _ ht => updEng_moves (.advance (ht.trans hw))

theorem wkDeliver_moves (hw : s.eng.wpc = .deliver) : At Moves wkDeliver s := by
  refine At.get_bind <| Moves.read_bind rfl fun b _ => ?_
  split
  · exact Moves.same_bind (readLenBytes_sameEngine s) fun n t ht => Moves.same_bind (s := t) ⟨rfl, rfl⟩ fun _ u hu =>
      Moves.unrelated_bind {} <| updEng_moves (.deliver (hu.trans (ht.trans hw)))
  · exact Moves.same_bind (s := s) ⟨rfl, rfl⟩ fun _ u hu =>
      Moves.unrelated_bind {} <| updEng_moves (.deliver (hu.trans hw))

theorem wkExit_moves (hw : s.eng.wpc = .exit) : At Moves wkExit s := by
  refine Moves.updEng_bind (.finish (.inl hw)) <| At.get_bind ?_
  split
  · exact ctlRMW_moves _ _ _
  · exact moves_closed.refl _

end

/-! ## Every operation -/

/-- Every operation changes the engine by these assignments only, whichever way it ends. -/
theorem exec_moves {i : Instr} {s t : State} (h : exec i s = .next t) : Moves s t := by
  cases i with
  | txSend len w => exact At.gate moves_closed (fun _ => txSend_moves _ w s) h
  | ifStart => exact At.gate moves_closed (fun _ => ifStart_moves s) h
  | ifStop => exact At.gate moves_closed (fun _ => ifStop_moves s) h
  | setPromisc on => exact At.gate moves_closed (fun _ => setPromisc_moves on s) h
  | setCaps req => exact At.gate moves_closed (fun _ => setCaps_moves req s) h
  | getPromisc | getCaps | getMaxlen => exact At.gate moves_closed (fun _ => At.get_bind <| respond_moves _ _ s) h
  | readMac => exact At.gate moves_closed (fun _ => readMac_moves s) h
  | readCounter sel => exact At.gate moves_closed (fun _ => readCounter_moves sel s) h
  | evRxIrq => exact At.gate moves_closed (fun _ => fastPath_moves s) h
  | evPollTick => exact At.gate moves_closed (fun _ => pollTick_moves s) h
  | evWatchdogTick => exact At.gate moves_closed (fun _ => checkAndSignal_moves s) h
  | evReset => cases h; exact ⟨rfl, .single .reset⟩
  | stInit => exact At.gate moves_closed (fun _ => initStep_moves s) h
  | wkTest => exact At.gate moves_closed (fun hw => wkTest_moves (atStep_iff.mp hw).2) h
  | wkDecode => exact At.gate moves_closed (fun hw => wkDecode_moves (atStep_iff.mp hw).2) h
  | wkValidate => exact At.gate moves_closed (fun hw => wkValidate_moves (atStep_iff.mp hw).2) h
  | wkReject => exact At.gate moves_closed (fun hw => wkReject_moves (atStep_iff.mp hw).2) h
  | wkAlloc => exact At.gate moves_closed (fun hw => wkAlloc_moves (atStep_iff.mp hw).2) h
  | wkCopy => exact At.gate moves_closed (fun hw => wkCopy_moves (atStep_iff.mp hw).2) h
  | wkAdvance => exact At.gate moves_closed (fun hw => wkAdvance_moves (atStep_iff.mp hw).2) h
  | wkDeliver => exact At.gate moves_closed (fun hw => wkDeliver_moves (atStep_iff.mp hw).2) h
  | wkExit => exact At.gate moves_closed (fun hw => wkExit_moves (atStep_iff.mp hw).2) h
  | wkAbort => exact At.gate moves_closed (fun hw => updEng_moves (.finish (.inr (atStep_iff.mp hw).2))) h
  | rdMaclo | rdMachi | rdRsr | rdRbad | rdRplr | rdRxbuf | wrMachi | wrTplr | wrRsr | wrTxbuf =>
    exact exec_bus moves_closed (fun _ _ _ => SameEngine.moves ⟨rfl, rfl⟩) devRead_moves devWrite_moves rfl h

/-! ## Busy exactly while not idle (R173) -/

/-- `E.busy` is 1 exactly where the step pointer is not idle. -/
def BusyInv (e : Engine) : Prop := e.busy = true ↔ e.wpc ≠ .idle

/-- An activation stays outstanding as its step pointer moves on. -/
theorem BusyInv.busy_at {e : Engine} (h : BusyInv e) {w : Wpc} (hw : e.wpc = w) (hi : w ≠ .idle) : e.busy = true :=
  h.mpr (by rwa [hw])

theorem BusyInv.move {c : Config} {e e' : Engine} (hm : EngineMove c e e') (h : BusyInv e) : BusyInv e' := by
  have on {e₁ : Engine} (hb : e₁.busy = true) (hi : e₁.wpc ≠ .idle) : BusyInv e₁ := ⟨fun _ => hi, fun _ => hb⟩
  cases hm with
  | unrelated hs => rw [BusyInv, hs.busy, hs.wpc]; exact h
  | signal =>
    unfold Engine.signal
    split
    · exact h
    · exact on rfl nofun
  | test w hw => exact on (h.busy_at hw nofun) (by dsimp only; split <;> nofun)
  | slot | errs => exact h
  | length raw hw => exact on (h.busy_at hw nofun) nofun
  | validate hw => exact on (h.busy_at hw nofun) (by dsimp only; split <;> nofun)
  | reject hw | copy hw | advance hw | deliver hw => exact on (h.busy_at hw nofun) nofun
  | alloc b hw => cases b <;> exact on (h.busy_at hw nofun) nofun
  | finish | reset => exact ⟨nofun, fun hi => absurd rfl hi⟩

/-- Settles O52: every assignment keeps it. -/
theorem busyExactlyWhileNotIdle : Obligations.BusyExactlyWhileNotIdle :=
  fun _ _ _ hs h => (exec_moves h).keeps (P := fun _ => BusyInv) (fun _ _ hm => BusyInv.move hm) hs

end Sys2Proof.Machine
end

section
/-! PROOFS. The invariant (spec/42_receive.md R173, R191, R192; spec/20_memory.md R70): every assignment keeps its clauses
about the engine, every primitive keeps the form of host memory and of the device's ring, and so does everything else a
step boundary can bring. -/

namespace Sys2Proof.Machine

/-! ## The clauses about the engine -/

/-- The clauses of `Inv` that speak of the engine. -/
structure EngineInv (c : Config) (e : Engine) : Prop where
  busy : BusyInv e
  slot : ∀ i, e.slot = some i → i < c.slotCount
  len : ∀ n, e.len = some (.bytes n) → n ≤ c.lenMask.toNat
  registers : RegistersAt c e e.wpc
  buf : ∀ b, e.buf = some (some b) →
    (e.wpc = .copy ∨ e.wpc = .advance ∨ e.wpc = .deliver) ∧ b.toNat + c.rxBufMin ≤ 2 ^ c.hostAddrBits

section
variable {c : Config} {e e' : Engine}

theorem Decoded.congr (h : SameRegisters e e') (hd : Decoded c e) : Decoded c e' := by
  obtain ⟨hslot, herrs, hlen⟩ := hd
  exact ⟨by rw [h.st, h.slot]; exact hslot, by rw [h.errs]; exact herrs, by rw [h.raw, h.len]; exact hlen⟩

theorem Accepted.congr (h : SameRegisters e e') (ha : Accepted c e) : Accepted c e' := by
  rw [Accepted, h.len, h.errs, h.slot]; exact ha

theorem RegistersAt.congr (h : SameRegisters e e') {w : Wpc} (hr : RegistersAt c e w) : RegistersAt c e' w := by
  cases w with
  | idle | test | exit | abort => trivial
  | decode => rw [RegistersAt, h.st]; exact hr
  | validate | reject => exact Decoded.congr h hr
  | alloc =>
    obtain ⟨hd, ha⟩ := hr
    exact ⟨hd.congr h, ha.congr h⟩
  | copy | advance | deliver =>
    obtain ⟨hd, ha, hb⟩ := hr
    exact ⟨hd.congr h, ha.congr h, by rw [h.buf]; exact hb⟩

/-- A decoded length, trimmed or not, is at most the length mask (R178). -/
theorem decodeLen_le {raw : Word} {trim : Bool} {n : Nat} (h : decodeLen c raw trim = .bytes n) :
    n ≤ c.lenMask.toNat := by
  have hmask : (raw &&& c.lenMask).toNat ≤ c.lenMask.toNat := by rw [BitVec.toNat_and]; exact Nat.and_le_right
  simp only [decodeLen] at h
  split at h
  · split at h <;> cases h
    omega
  · cases h
    exact hmask

/-- No accepted length is `BADLEN` (R180). -/
theorem accept_bytes {len : FrameLen} {errs : Word} {i : Nat} (h : accept c len errs i = true) : ∃ n, len = .bytes n := by
  cases len with
  | bytes n => exact ⟨n, rfl⟩
  | badlen => cases h

theorem EngineInv.registersAt (h : EngineInv c e) {w : Wpc} (hw : e.wpc = w) : RegistersAt c e w := hw ▸ h.registers

/-- Where the step pointer is none of the three, no buffer is held. -/
theorem EngineInv.no_buf (h : EngineInv c e) {w : Wpc} (hw : e.wpc = w) (hne : w ≠ .copy ∧ w ≠ .advance ∧ w ≠ .deliver)
    (b : Word) : e.buf ≠ some (some b) := by
  intro hb
  obtain ⟨hat, -⟩ := h.buf b hb
  rw [hw] at hat
  tauto

theorem engineInv_reset (c : Config) : EngineInv c (Engine.reset c) :=
  ⟨⟨nofun, fun hw => absurd rfl hw⟩, nofun, nofun, trivial, nofun⟩

/-- Every assignment keeps the clauses. -/
theorem EngineInv.move (hc : ConfigFacts c) (hm : EngineMove c e e') (h : EngineInv c e) : EngineInv c e' := by
  have hbusy : BusyInv e' := BusyInv.move hm h.busy
  cases hm with
  | unrelated hs =>
    refine ⟨hbusy, ?_, ?_, ?_, ?_⟩
    · rw [hs.slot]; exact h.slot
    · rw [hs.len]; exact h.len
    · rw [hs.wpc]; exact h.registers.congr hs.toSameRegisters
    · rw [hs.buf, hs.wpc]; exact h.buf
  | signal =>
    by_cases hon : e.busy = true
    · rw [Engine.signal, if_pos hon]; exact h
    · have hidle : e.wpc = .idle := by_contra fun hw => hon (h.busy.mpr hw)
      rw [Engine.signal, if_neg hon] at hbusy ⊢
      exact ⟨hbusy, h.slot, h.len, trivial, fun b hb => absurd hb (h.no_buf hidle (by decide) b)⟩
  | test w hw =>
    refine ⟨hbusy, h.slot, h.len, ?_, fun b hb => absurd hb (h.no_buf hw (by decide) b)⟩
    dsimp only
    split
    · next hdone => exact ⟨w, rfl, hdone⟩
    · trivial
  | slot hw hst =>
    refine ⟨hbusy, ?_, h.len, ?_, h.buf⟩
    · rintro i ⟨⟩
      exact slotOf_lt hc _
    · have hr := h.registersAt hw
      rwa [hw]
  | errs w hw =>
    refine ⟨hbusy, h.slot, h.len, ?_, h.buf⟩
    have hr := h.registersAt hw
    rwa [hw]
  | length raw hw hst hslot herrs =>
    obtain ⟨st, hst', hdone⟩ := h.registersAt hw
    obtain rfl : st = _ := Option.some.inj (hst'.symm.trans hst)
    exact ⟨hbusy, h.slot, fun n hn => decodeLen_le (Option.some.inj hn),
      ⟨⟨st, hst, hdone, hslot⟩, ⟨_, herrs⟩, ⟨raw, _, rfl, rfl⟩⟩, fun b hb => absurd hb (h.no_buf hw (by decide) b)⟩
  | validate hw hlen herrs hslot =>
    have hd : Decoded c e := h.registersAt hw
    refine ⟨hbusy, h.slot, h.len, ?_, fun b hb => absurd hb (h.no_buf hw (by decide) b)⟩
    dsimp only
    split
    · next hacc =>
      obtain ⟨n, rfl⟩ := accept_bytes hacc
      exact ⟨hd.congr {}, n, _, _, hlen, herrs, hslot, hacc⟩
    · exact hd.congr {}
  | reject hw => exact ⟨hbusy, h.slot, h.len, trivial, fun b hb => absurd hb (h.no_buf hw (by decide) b)⟩
  | alloc b hw hroom =>
    obtain ⟨hd, ha⟩ := h.registersAt hw
    cases b with
    | none => exact ⟨hbusy, h.slot, h.len, trivial, fun b hb => absurd hb (h.no_buf hw (by decide) b)⟩
    | some a =>
      refine ⟨hbusy, h.slot, h.len, ⟨⟨hd.slot, hd.errs, hd.len⟩, ha, a, rfl⟩, ?_⟩
      rintro b ⟨⟩
      exact ⟨.inl rfl, hroom a rfl⟩
  | copy hw =>
    have hr : RegistersAt c e .copy := h.registersAt hw
    exact ⟨hbusy, h.slot, h.len, RegistersAt.congr (w := .advance) {} hr, fun b hb => ⟨.inr (.inl rfl), (h.buf b hb).2⟩⟩
  | advance hw =>
    have hr : RegistersAt c e .advance := h.registersAt hw
    exact ⟨hbusy, h.slot, h.len, RegistersAt.congr (w := .deliver) {} hr, fun b hb => ⟨.inr (.inr rfl), (h.buf b hb).2⟩⟩
  | deliver hw => exact ⟨hbusy, h.slot, h.len, trivial, nofun⟩
  | finish hw =>
    have hfree := hw.elim (fun hw => h.no_buf hw (by decide)) fun hw => h.no_buf hw (by decide)
    exact ⟨hbusy, h.slot, h.len, trivial, fun b hb => absurd hb (hfree b)⟩
  | reset => exact engineInv_reset c

end

/-! ## The clauses about host memory and the device's ring -/

/-- The index lies in the ring, and both lists of marks have its length (R90). -/
def RingShape (c : Config) (d : Device) : Prop :=
  d.cons < c.slotCount ∧ d.full.length = c.slotCount ∧ d.bad.length = c.slotCount

theorem ringShape_reset {c : Config} (hc : ConfigFacts c) (seed : Nat) : RingShape c (Device.reset c seed) :=
  ⟨Nat.lt_of_lt_of_le Nat.two_pos hc.ring, List.length_replicate, List.length_replicate⟩

theorem RingShape.applyWrite {c : Config} {d : Device} (hc : ConfigFacts c) (h : RingShape c d) (v : Word) (r : WriteReg) :
    RingShape c (applyWrite c d v r) := by
  obtain ⟨hcons, hfull, hbad⟩ := h
  cases r with
  | machi | txbuf => exact ⟨hcons, hfull, hbad⟩
  | tplr => rw [applyWrite_tplr]; exact ⟨hcons, hfull, hbad⟩
  | rsr => exact ⟨slotOf_lt hc v, List.length_set.trans hfull, hbad⟩

theorem RingShape.fillSlot {c : Config} {d : Device} (h : RingShape c d) (p : Nat) (bs : List Byte) (r : Word) (e : Bool) :
    RingShape c (d.fillSlot c p bs r e) := by
  obtain ⟨hcons, hfull, hbad⟩ := h
  exact ⟨(fillSlot_cons c d p bs r e).trans_lt hcons, List.length_set.trans hfull, List.length_set.trans hbad⟩

/-- The clauses of `Inv` that do not speak of the engine. -/
structure StoreInv (s : State) : Prop where
  config : ConfigOk s.cfg
  memory : Memory.wf s.mem = true
  ring : RingShape s.cfg s.dev

theorem inv_iff {s : State} : Inv s ↔ StoreInv s ∧ EngineInv s.cfg s.eng :=
  ⟨fun h => ⟨⟨h.config, h.memory, h.ring⟩, ⟨h.busy, h.slot, h.len, h.registers, h.buf⟩⟩,
    fun ⟨h, k⟩ => ⟨h.config, h.memory, k.busy, k.slot, k.len, k.registers, k.buf, h.ring⟩⟩

/-- The configuration stays, and the clauses stay true. -/
structure KeepsStore (s t : State) : Prop where
  cfg : t.cfg = s.cfg
  store : StoreInv s → StoreInv t

theorem keepsStore_closed : Closed KeepsStore :=
  ⟨fun _ => ⟨rfl, id⟩, fun h k => ⟨k.cfg.trans h.cfg, k.store ∘ h.store⟩⟩

theorem KeepsStore.of_eq {s t : State} (hcfg : t.cfg = s.cfg) (hmem : t.mem = s.mem) (hdev : t.dev = s.dev) :
    KeepsStore s t :=
  ⟨hcfg, fun h => ⟨by rw [hcfg]; exact h.config, by rw [hmem]; exact h.memory, by rw [hcfg, hdev]; exact h.ring⟩⟩

theorem devRead_keepsStore (off : Nat) (s : State) : At KeepsStore (devRead off) s := by
  obtain ⟨hcfg, hdev, hmem, -⟩ := devRead_end off s
  exact .of_eq hcfg hmem hdev

theorem memRead_keepsStore (a : Nat) (s : State) : At KeepsStore (memRead a) s := by
  obtain ⟨hcfg, hdev, hmem, -⟩ := memRead_end a s
  exact .of_eq hcfg hmem hdev

theorem devWrite_keepsStore (off : Nat) (v : Word) (s : State) : At KeepsStore (devWrite off v) s := by
  obtain ⟨hcfg, hmem, -, hdev⟩ := devWrite_end off v s
  refine ⟨hcfg, fun h => ⟨by rw [hcfg]; exact h.config, by rw [hmem]; exact h.memory, ?_⟩⟩
  obtain hdev | ⟨r, -, hdev⟩ := hdev
  · rw [hcfg, hdev]; exact h.ring
  · rw [hcfg, hdev]; exact h.ring.applyWrite h.config.facts v r

theorem memWrite8_keepsStore (a : Nat) (w : Word) (s : State) : At KeepsStore (memWrite8 a w) s := by
  obtain ⟨hcfg, hdev, -, hmem⟩ := memWrite8_end a w s
  refine ⟨hcfg, fun h => ⟨by rw [hcfg]; exact h.config, ?_, by rw [hcfg, hdev]; exact h.ring⟩⟩
  obtain hmem | ⟨bs, -, hmem⟩ := hmem
  · rw [hmem]; exact h.memory
  · rw [hmem]; exact Memory.writeBytes_wf bs a h.memory

theorem keepsStore_kept : Kept KeepsStore where
  closed := keepsStore_closed
  cfg h := h.cfg
  eng _ _ _ := .of_eq rfl rfl rfl
  emit _ _ := .of_eq rfl rfl rfl
  raise _ _ _ := .of_eq rfl rfl rfl
  draw _ := .of_eq rfl rfl rfl
  alloc _ := .of_eq rfl rfl rfl
  read := devRead_keepsStore
  write off v s _ := devWrite_keepsStore off v s
  mask s := At.ctlRMW keepsStore_closed devRead_keepsStore devWrite_keepsStore _ _ s
  unmask s := At.ctlRMW keepsStore_closed devRead_keepsStore devWrite_keepsStore _ _ s
  memRead := memRead_keepsStore

theorem exec_keepsStore {i : Instr} {s t : State} (h : exec i s = .next t) : KeepsStore s t :=
  exec_keeps keepsStore_kept (fun _ _ => .of_eq rfl rfl rfl) devWrite_keepsStore
    (fun s => ⟨rfl, fun h => ⟨h.config, h.memory, ringShape_reset h.config.facts s.env.drawn⟩⟩)
    (fun _ => memWrite8_keepsStore) h

/-! ## Every step -/

/-- Every operation keeps the invariant, completed, failed or not enabled. -/
theorem exec_inv {i : Instr} {s t : State} (hs : Inv s) (h : exec i s = .next t) : Inv t := by
  obtain ⟨hstore, heng⟩ := inv_iff.mp hs
  have hmoves := exec_moves h
  exact inv_iff.mpr ⟨(exec_keepsStore h).store hstore,
    hmoves.keeps (P := EngineInv) (fun _ _ => EngineInv.move hs.config.facts) heng⟩

/-- A state with the configuration, host memory and ring of `s` whose engine differs outside the worker's fields only. -/
theorem Inv.of_same {s t : State} (hs : Inv s) (hcfg : t.cfg = s.cfg) (hmem : t.mem = s.mem) (hdev : t.dev = s.dev)
    (heng : SameWork s.eng t.eng) : Inv t := by
  obtain ⟨hstore, he⟩ := inv_iff.mp hs
  exact inv_iff.mpr ⟨(KeepsStore.of_eq hcfg hmem hdev).store hstore, by
    rw [hcfg]; exact EngineInv.move hs.config.facts (.unrelated heng) he⟩

theorem rejectWord_inv {s : State} (hs : Inv s) (w : PortWord) : Inv (s.rejectWord w) := by
  cases w with
  | cmd | bus =>
    simp only [State.rejectWord]
    split
    · exact hs.of_same rfl rfl rfl {}
    · exact hs
  | evt | step => exact hs

theorem capture_inv {s : State} (hs : Inv s) (f : List Byte) (r : Word) (e : Bool) : Inv (s.capture f r e) := by
  unfold State.capture
  split
  · split
    · exact hs
    · next p _ =>
      obtain ⟨-, hdraws⟩ := drawBytes_facts (roundUp8 f.length - f.length) s
      have hpad : Inv (drawBytes (roundUp8 f.length - f.length) s).2 :=
        hs.of_same hdraws.cfg hdraws.mem hdraws.dev (by rw [hdraws.eng]; exact {})
      obtain ⟨hstore, heng⟩ := inv_iff.mp hpad
      refine inv_iff.mpr ⟨⟨hstore.config, hstore.memory, ?_⟩, heng⟩
      rw [← hdraws.cfg]
      exact hstore.ring.fillSlot p _ r e
  · exact hs

theorem hostWrite_inv {s : State} (hs : Inv s) (a : Nat) (bs : List Byte) : Inv (s.hostWrite a bs) := by
  unfold State.hostWrite
  split
  · obtain ⟨hstore, heng⟩ := inv_iff.mp hs
    exact inv_iff.mpr ⟨⟨hstore.config, Memory.writeBytes_wf bs a hstore.memory, hstore.ring⟩, heng⟩
  · exact hs

theorem deviceChange_inv {s : State} (hs : Inv s) (off : Nat) (v : Word) : Inv (s.updDev fun d => d.store off v) := by
  obtain ⟨hstore, heng⟩ := inv_iff.mp hs
  exact inv_iff.mpr ⟨⟨hstore.config, hstore.memory, hstore.ring⟩, heng⟩

/-- A step boundary brings an operation in, or as, a state of the invariant. -/
def Fetched.HasInv : Fetched → Prop
  | .run _ t => Inv t
  | .next t => Inv t
  | .stop _ => True

theorem takeItem_hasInv {s : State} (hs : Inv s) (item : Item) : (takeItem s item).HasInv := by
  cases item with
  | port w =>
    simp only [takeItem]
    split
    · exact hs
    · exact rejectWord_inv hs w
  | capture f r e => exact capture_inv hs f r e
  | hostWrite a bs => exact hostWrite_inv hs a bs
  | allocFail => exact hs.of_same rfl rfl rfl {}
  | deviceChange off v =>
    simp only [takeItem]
    split
    · exact hs
    · exact deviceChange_inv hs off v

theorem fetchInternal_hasInv {s : State} (hs : Inv s) : (fetchInternal s).HasInv := by
  unfold fetchInternal
  split
  · exact hs
  · split
    · trivial
    · exact hs

theorem fetch_hasInv {s : State} (hs : Inv s) : (fetch s).HasInv := by
  unfold fetch
  split
  · trivial
  · split
    · exact fetchInternal_hasInv hs
    · next item rest _ => exact takeItem_hasInv (s := s.withAgenda rest) (hs.of_same rfl rfl rfl {}) item

theorem Fetched.HasInv.outcome {f : Fetched} {t : State} (hf : f.HasInv) (h : f.outcome = .next t) : Inv t := by
  cases f with
  | run i u => exact exec_inv hf h
  | next u => cases h; exact hf
  | stop r => cases h

/-- Settles O51: what the step boundary brings satisfies the invariant, and running it keeps the invariant. -/
theorem everyStepKeepsTheInvariant : Obligations.EveryStepKeepsTheInvariant := by
  intro s t hs h
  rw [step_eq] at h
  exact (fetch_hasInv hs).outcome h

/-- Settles O59: by induction on the run; the invariant does not speak of the environment. -/
theorem reachableStatesSatisfyTheInvariant : Obligations.ReachableStatesSatisfyTheInvariant := by
  intro c s hc hr
  induction hr with
  | reset => exact inv_resetWith hc
  | @step s t _ htrans hs =>
    obtain ⟨env, h⟩ := htrans
    exact everyStepKeepsTheInvariant { s with env := env } t (hs.of_same rfl rfl rfl {}) h

end Sys2Proof.Machine
end

section
/-! PROOFS. The worker steps (spec/42_receive.md R175 to R190), each said once: the state it ends in, unless an access fails;
and the fast path (R171). -/

namespace Sys2Proof.Machine

/-! ## Where an operation ends, unless an access fails -/

/-- From `s` the operation answers `a` and leaves `t`. Only a failed access, which a quiet platform does not report, ends it
otherwise; it then records a fault. -/
def EndsIn {α : Type} (x : Op α) (s : State) (a : α) (t : State) : Prop :=
  x s = .ok a t ∨ ¬ s.quiet ∧ ∃ u, x s = .error () u ∧ u.eng.fault ≠ none

theorem recordFault_faulted (s : State) (code : FaultCode) (info : Word) : (s.recordFault code info).eng.fault ≠ none := by
  simp

section
variable {α β : Type} {s t u : State} {b : β}

theorem quiet_afterRead (h : s.quiet) (off : Nat) (r : ReadReg) : (s.afterRead off r).quiet :=
  ⟨afterRead_busFail h.1 off r, (afterRead_memFail s off r).trans h.2⟩

theorem quiet_afterWrite (h : s.quiet) (off : Nat) (v : Word) (r : WriteReg) : (s.afterWrite off v r).quiet :=
  ⟨afterWrite_busFail h.1 off v r, h.2⟩

theorem not_quiet_of_busDue (h : s.busDue = true) : ¬ s.quiet := fun hq => by simp [busDue_of_none hq.1] at h

theorem EndsIn.bind {x : Op α} {f : α → Op β} {a : α} (hx : EndsIn x s a t) (hq : s.quiet → t.quiet)
    (hf : EndsIn (f a) t b u) : EndsIn (x >>= f) s b u := by
  obtain hx | ⟨hs, v, hx, hv⟩ := hx
  · have hrun : (x >>= f) s = f a t := by rw [run_bind, hx]
    rw [EndsIn, hrun]
    exact hf.imp id fun ⟨ht, h⟩ => ⟨mt hq ht, h⟩
  · exact .inr ⟨hs, v, by rw [run_bind, hx], hv⟩

theorem EndsIn.known_bind {x : Op α} {f : α → Op β} {a : α} (hx : x s = .ok a s) (hf : EndsIn (f a) s b u) :
    EndsIn (x >>= f) s b u := EndsIn.bind (.inl hx) id hf

theorem EndsIn.get_bind {f : State → Op β} (hf : EndsIn (f s) s b u) : EndsIn (get >>= f) s b u :=
  EndsIn.known_bind rfl hf

theorem EndsIn.updEng_bind {f : Engine → Engine} {g : Unit → Op β} (hg : EndsIn (g ()) (s.updEng f) b u) :
    EndsIn (updEng f >>= g) s b u := EndsIn.bind (.inl rfl) id hg

theorem EndsIn.updEng (f : Engine → Engine) : EndsIn (updEng f) s () (s.updEng f) := .inl rfl

theorem EndsIn.devRead {off : Nat} {r : ReadReg} (h : selectRead s.cfg off = some r) :
    EndsIn (devRead off) s (s.answer r) (s.afterRead off r) := by
  cases hd : s.busDue
  · exact .inl (by simp [Machine.devRead, h, hd])
  · exact .inr ⟨not_quiet_of_busDue hd, _, devRead_fails h hd, recordFault_faulted _ _ _⟩

theorem EndsIn.devWrite {off : Nat} {r : WriteReg} (h : selectWrite s.cfg off = some r) (v : Word) :
    EndsIn (devWrite off v) s () (s.afterWrite off v r) := by
  cases hd : s.busDue
  · exact .inl (by simp [Machine.devWrite, h, hd])
  · exact .inr ⟨not_quiet_of_busDue hd, _, devWrite_fails h hd, recordFault_faulted _ _ _⟩

theorem EndsIn.devRead_bind {off : Nat} {r : ReadReg} {f : Word → Op β} (h : selectRead s.cfg off = some r)
    (hf : EndsIn (f (s.answer r)) (s.afterRead off r) b u) : EndsIn (Machine.devRead off >>= f) s b u :=
  (EndsIn.devRead h).bind (fun hq => quiet_afterRead hq _ _) hf

theorem EndsIn.devWrite_bind {off : Nat} {r : WriteReg} {v : Word} {f : Unit → Op β} (h : selectWrite s.cfg off = some r)
    (hf : EndsIn (f ()) (s.afterWrite off v r) b u) : EndsIn (Machine.devWrite off v >>= f) s b u :=
  (EndsIn.devWrite h v).bind (fun hq => quiet_afterWrite hq _ _ _) hf

theorem gate_ok {x : Op Unit} {on : Bool} (hon : on = true) (hx : x s = .ok () t) : gate on x s = .next t := by
  rw [gate_on hon, stateAfter_ok hx]

/-- An enabled step on a quiet platform. -/
theorem EndsIn.next_of_quiet {x : Op Unit} {on : Bool} (h : EndsIn x s () t) (hon : on = true) (hq : s.quiet) :
    gate on x s = .next t := by
  obtain hx | ⟨hs, -⟩ := h
  · exact gate_ok hon hx
  · exact absurd hq hs

/-- An enabled step on any platform. -/
theorem EndsIn.next {x : Op Unit} {on : Bool} (h : EndsIn x s () t) (hon : on = true) :
    ∃ u, gate on x s = .next u ∧ (u = t ∨ u.eng.fault ≠ none) := by
  obtain hx | ⟨-, u, hx, hu⟩ := h
  · exact ⟨t, gate_ok hon hx, .inl rfl⟩
  · exact ⟨u, by rw [gate_on hon, stateAfter_error hx], .inr hu⟩

end

/-! ## Reads, and `CtlRMW` (R130, R132) -/

/-- What the device answers does not rest on the engine. -/
@[simp] theorem answer_updEng (s : State) (f : Engine → Engine) (r : ReadReg) : (s.updEng f).answer r = s.answer r := rfl

/-- The state after `CtlRMW(clear, set)`. -/
def State.afterRMW (s : State) (clear set : Word) : State :=
  (s.afterRead s.cfg.offMachi .machi).afterWrite s.cfg.offMachi (rmwWord (s.answer .machi) clear set) .machi

section
variable (s : State) (clear set : Word)

@[simp] theorem afterRMW_cfg : (s.afterRMW clear set).cfg = s.cfg := by simp [State.afterRMW]
@[simp] theorem afterRMW_eng : (s.afterRMW clear set).eng = s.eng := by simp [State.afterRMW]
@[simp] theorem afterRMW_dev :
    (s.afterRMW clear set).dev = s.dev.store s.cfg.offMachi (rmwWord (s.answer .machi) clear set) := by
  simp [State.afterRMW, applyWrite]
@[simp] theorem afterRMW_mem : (s.afterRMW clear set).mem = s.mem := by simp [State.afterRMW]
@[simp] theorem afterRMW_trace :
    (s.afterRMW clear set).trace = rmwEvents s.cfg (s.answer .machi) clear set ++ s.trace := by
  simp [State.afterRMW, rmwEvents]
@[simp] theorem afterRMW_agenda : (s.afterRMW clear set).env.agenda = s.env.agenda := by simp [State.afterRMW]

variable {s}

theorem quiet_afterRMW (h : s.quiet) : (s.afterRMW clear set).quiet := quiet_afterWrite (quiet_afterRead h _ _) _ _ _

theorem ctlRMW_ends (hc : ConfigFacts s.cfg) : EndsIn (ctlRMW clear set) s () (s.afterRMW clear set) :=
  .get_bind <| .devRead_bind (selectRead_machi hc) <| .devWrite (by rw [afterRead_cfg]; exact selectWrite_machi hc) _

end

/-! ## The receive descriptor (R174, R178, R180) -/

theorem isDone_iff {c : Config} {w : Word} : isDone c w = true ↔ w &&& c.doneMask ≠ 0 := bne_iff_ne

theorem accept_iff {c : Config} {len : FrameLen} {errs : Word} {i : Nat} : accept c len errs i = true ↔
    (∃ n, len = .bytes n ∧ n ≤ c.maxFrameBytes) ∧ (c.baseErr ||| (c.baseErr <<< i)) &&& errs = 0 := by
  cases len with
  | bytes n => simp [accept, lenOk, errmask]
  | badlen => simp [accept, lenOk]

/-- Settles O34: by the branches of `decodeLen`. -/
theorem decodedLengthTrimsTheTrailer : Obligations.DecodedLengthTrimsTheTrailer := by
  rintro c raw n rfl
  exact ⟨rfl, fun h => if_pos h, fun h => if_neg (Nat.not_lt.mpr h)⟩

/-! ## WK_TEST (R175) -/

section
variable {s : State}

theorem wkTest_ends (hc : ConfigFacts s.cfg) : EndsIn wkTest s ()
    ((s.afterRead s.cfg.offRsr .rsr).updEng fun e =>
      { e with st := some (s.answer .rsr), wpc := if isDone s.cfg (s.answer .rsr) then .decode else .exit }) :=
  .get_bind <| .devRead_bind (selectRead_rsr hc) <| .updEng _

/-! ## WK_DECODE (R177) -/

/-- WK_DECODE of slot `i` up to its second access. -/
def State.withErrs (s : State) (i : Nat) : State :=
  ((s.updEng fun e => { e with slot := some i }).afterRead s.cfg.offRbad .rbad).updEng fun e =>
    { e with errs := some (s.answer .rbad) }

@[simp] theorem withErrs_cfg (s : State) (i : Nat) : (s.withErrs i).cfg = s.cfg := by simp [State.withErrs]
@[simp] theorem withErrs_eng (s : State) (i : Nat) :
    (s.withErrs i).eng = { s.eng with slot := some i, errs := some (s.answer .rbad) } := by simp [State.withErrs]
@[simp] theorem withErrs_dev (s : State) (i : Nat) : (s.withErrs i).dev = s.dev := by simp [State.withErrs]
@[simp] theorem withErrs_mem (s : State) (i : Nat) : (s.withErrs i).mem = s.mem := by simp [State.withErrs]
@[simp] theorem withErrs_trace (s : State) (i : Nat) :
    (s.withErrs i).trace = .rd s.cfg.offRbad (s.answer .rbad) :: s.trace := by
  simp [State.withErrs]
@[simp] theorem withErrs_agenda (s : State) (i : Nat) : (s.withErrs i).env.agenda = s.env.agenda := by
  simp [State.withErrs]

/-- The word that WK_DECODE of slot `i` reads from the length register. -/
def State.rawLength (s : State) (i : Nat) : Word := (s.withErrs i).answer (.rplr i)

theorem wkDecode_ends (hc : ConfigFacts s.cfg) {st : Word} {i : Nat} (hst : s.eng.st = some st) (hi : slotOf s.cfg st = i) :
    EndsIn wkDecode s () (((s.withErrs i).afterRead (readOffset s.cfg (.rplr i)) (.rplr i)).updEng fun e =>
      { e with raw := some (s.rawLength i), len := some (decodeLen s.cfg (s.rawLength i) e.rxcsum), wpc := .validate }) := by
  subst hi
  exact .get_bind <| .known_bind (readSt_some hst) <| .updEng_bind <| .devRead_bind (selectRead_rbad hc) <| .updEng_bind <|
    .devRead_bind (by rw [updEng_cfg, afterRead_cfg]; exact selectRead_rplr hc (slotOf_lt hc st)) <| .updEng _

/-! ## WK_VALIDATE (R181) -/

theorem wkValidate_ok {len : FrameLen} {errs : Word} {i : Nat} (hlen : s.eng.len = some len) (herrs : s.eng.errs = some errs)
    (hslot : s.eng.slot = some i) :
    wkValidate s = .ok () (s.updEng fun e => { e with wpc := if accept s.cfg len errs i then .alloc else .reject }) := by
  simp only [wkValidate, run_bind, run_get, readLen_some hlen, readErrs_some herrs, readSlot_some hslot, run_goto]

/-! ## WK_REJECT and WK_ADVANCE (R182, R186, R190) -/

theorem wkReject_ends (hc : ConfigFacts s.cfg) {i : Nat} (hslot : s.eng.slot = some i) : EndsIn wkReject s ()
    (((s.updEng fun e => { e with ierrors := e.ierrors + 1 }).afterWrite s.cfg.offRsr (nextId i) .rsr).updEng fun e =>
      { e with wpc := .test }) :=
  .get_bind <| .updEng_bind <| .known_bind (readSlot_some hslot) <| .devWrite_bind (selectWrite_rsr hc) <| .updEng _

theorem wkAdvance_ends (hc : ConfigFacts s.cfg) {i : Nat} (hslot : s.eng.slot = some i) : EndsIn wkAdvance s ()
    ((s.afterWrite s.cfg.offRsr (nextId i) .rsr).updEng fun e => { e with wpc := .deliver }) :=
  .get_bind <| .known_bind (readSlot_some hslot) <| .devWrite_bind (selectWrite_rsr hc) <| .updEng _

/-! ## WK_ALLOC (R183) -/

theorem wkAlloc_ok {len : FrameLen} (hlen : s.eng.len = some len) :
    wkAlloc s = .ok () ((s.popAlloc.emit (.alloc s.cfg.rxBufMin (s.nextAlloc s.cfg.rxBufMin))).updEng fun e =>
      e.allocated (s.nextAlloc s.cfg.rxBufMin)) := by
  simp only [wkAlloc, run_bind, run_get, readLen_some hlen, run_alloc, run_updEng]

/-! ## WK_DELIVER (R187) -/

/-- What WK_DELIVER leaves: the handle goes to a port, as `ev` says, and one counter moves, as `count` says. -/
def State.delivered (s : State) (ev : PortEvent) (count : Engine → Engine) : State :=
  ((s.emit ev).updEng count).updEng fun e => { e with buf := some none, wpc := .test }

theorem wkDeliver_ok_running {n : Nat} {b : Word} (hlen : s.eng.len = some (.bytes n)) (hbuf : s.eng.buf = some (some b))
    (hrun : s.eng.running = true) : wkDeliver s = .ok ()
      (s.delivered (.deliver b s.cfg.alignPad n s.cfg.ifId) fun e => { e with ipackets := e.ipackets + 1 }) := by
  simp only [wkDeliver, run_bind, run_get, readBuf_some hbuf, if_pos hrun, readLenBytes_some hlen, run_deliver, run_updEng,
    State.delivered]

theorem wkDeliver_ok_stopped {b : Word} (hbuf : s.eng.buf = some (some b)) (hrun : s.eng.running = false) :
    wkDeliver s = .ok () (s.delivered (.releaseBuf b) fun e => { e with iqdrops := e.iqdrops + 1 }) := by
  simp only [wkDeliver, run_bind, run_get, readBuf_some hbuf, hrun, Bool.false_eq_true, if_false, run_releaseBuf, run_updEng,
    State.delivered]

/-! ## WK_EXIT and WK_ABORT (R188, R189) -/

theorem wkExit_ends_polling (hmode : s.cfg.mode = .polling) : EndsIn wkExit s () (s.updEng Engine.endActivation) := by
  refine .updEng_bind <| .get_bind ?_
  rw [if_neg (by rw [updEng_cfg, hmode]; nofun)]
  exact .inl rfl

theorem wkExit_ends_interrupt (hc : ConfigFacts s.cfg) (hmode : s.cfg.mode = .interrupt) : EndsIn wkExit s ()
    ((s.updEng Engine.endActivation).afterRMW 0 s.cfg.machiIrqEn) := by
  refine .updEng_bind <| .get_bind ?_
  rw [updEng_cfg, if_pos hmode]
  exact ctlRMW_ends 0 s.cfg.machiIrqEn (s := s.updEng Engine.endActivation) hc

theorem wkAbort_ok : wkAbort s = .ok () (s.updEng Engine.endActivation) := rfl

end

/-! ## The obligations of the worker steps -/

/-- Settles O32: one read of RSR, and its done field names the next step. -/
theorem testStepReadsStatus : Obligations.TestStepReadsStatus := by
  intro s hc hq hs
  refine ⟨_, (wkTest_ends hc.facts).next_of_quiet hs hq, ?_⟩
  constructor <;> simp [isDone_iff]

/-- Settles O33: a read of RBAD, then one of the slot's length register. -/
theorem decodeStepFillsTheDescriptor : Obligations.DecodeStepFillsTheDescriptor := by
  intro s st hc hq hs hst
  refine ⟨_, s.rawLength (slotOf s.cfg st), (wkDecode_ends hc.facts hst rfl).next_of_quiet hs hq, ?_, fun href => ?_⟩
  · constructor <;> simp [State.rawLength, slotOf, readOffset]
  · rw [State.rawLength, answer_ref (by rwa [withErrs_cfg]), withErrs_cfg, withErrs_dev]
    rfl

/-- Settles O35: `accept` is the stated condition. -/
theorem validateStepAcceptsExactlyGoodFrames : Obligations.ValidateStepAcceptsExactlyGoodFrames := by
  intro s len errs i hs hlen herrs hslot
  have hexec : exec .wkValidate s = _ := gate_ok hs (wkValidate_ok hlen herrs hslot)
  rw [← accept_iff, hexec]
  refine ⟨fun hacc => ?_, fun hrej => ?_⟩
  · rw [if_pos hacc]; rfl
  · rw [if_neg hrej]; rfl

/-- Settles O36: one write of `next_id(slot)` to RSR, which `applyWrite` gives its effect. -/
theorem rejectStepCountsAndAdvances : Obligations.RejectStepCountsAndAdvances := by
  intro s i hc hq hs hslot
  exact ⟨_, (wkReject_ends hc.facts hslot).next_of_quiet hs hq, rfl, rfl, rfl, rfl, rfl, rfl⟩

/-- Settles O39: as for O36. -/
theorem advanceStepAdvancesTheRing : Obligations.AdvanceStepAdvancesTheRing := by
  intro s i hc hq hs hslot
  exact ⟨_, (wkAdvance_ends hc.facts hslot).next_of_quiet hs hq, rfl, rfl, rfl, rfl, rfl, rfl⟩

/-- Settles O37: by the allocator's answer. -/
theorem allocStepTakesABufferOrAborts : Obligations.AllocStepTakesABufferOrAborts := by
  intro s len hs hlen
  refine ⟨⟨_, gate_ok hs (wkAlloc_ok hlen), rfl, ?_, rfl, rfl, rfl, rfl⟩, fun b hb => (nextAlloc_lawful hb).1⟩
  rw [updEng_eng]
  cases s.nextAlloc s.cfg.rxBufMin <;> rfl

/-- Settles O38: the copy loop says what the words and the bytes are. -/
theorem copyStepMovesTheSlotIntoTheBuffer : Obligations.CopyStepMovesTheSlotIntoTheBuffer := by
  intro s n i b hc hq hs hlen hfit hslot hi hbuf hroom
  have hround : roundUp8 n = 8 * words8 n := Nat.mul_comm _ _
  have hend : bufAddr s.cfg b (0 + words8 n) = bufAddr s.cfg b 0 + roundUp8 n := by simp only [bufAddr]; omega
  have hstride : 8 * (0 + words8 n) ≤ s.cfg.slotStride := by
    have := hc.facts.strideFits
    simp only [roundUp8, words8] at *
    omega
  obtain ⟨ws, t, hcopy, ht⟩ := rxCopy_ok (words8 n) 0 hc.facts hq hslot hi hbuf hstride (hend ▸ hroom)
  have hrun : wkCopy s = .ok () (t.updEng fun e => { e with wpc := .advance }) := by
    simp only [wkCopy, run_bind, readLenBytes_some hlen, hcopy, run_goto]
  refine ⟨_, ws, gate_ok hs hrun, ⟨ht.cfg, ?_, ht.dev, rfl, ?_, ht.agenda⟩, fun j hj => ?_, fun a ha => ?_,
    fun href k hk => ?_⟩
  · rw [updEng_eng, ht.eng]
  · rw [updEng_trace, ht.trace, List.range_eq_range']
  · have hword := ht.inside (j / 8) (Nat.zero_le _) (by omega) (j % 8) (Nat.mod_lt _ (by decide))
    rw [← hword, updEng_mem]
    congr 1
    simp only [bufAddr]
    omega
  · exact ht.outside a (by rw [hend]; exact ha)
  · exact ht.ref href k (Nat.zero_le _) (by omega)

/-- Settles O40: by E.running. -/
theorem deliverStepDeliversOrReleases : Obligations.DeliverStepDeliversOrReleases := by
  intro s n b hs hlen hbuf
  exact ⟨fun hrun => gate_ok hs (wkDeliver_ok_running hlen hbuf hrun),
    fun hrun => gate_ok hs (wkDeliver_ok_stopped hbuf hrun)⟩

/-- Settles O41: by the mode. -/
theorem exitStepEndsTheActivationAndUnmasks : Obligations.ExitStepEndsTheActivationAndUnmasks := by
  intro s hc hq hs
  cases hmode : s.cfg.mode with
  | polling =>
    exact ⟨_, (wkExit_ends_polling hmode).next_of_quiet hs hq, fun _ => ⟨rfl, rfl, rfl, rfl, rfl, rfl⟩, nofun⟩
  | interrupt =>
    refine ⟨_, (wkExit_ends_interrupt hc.facts hmode).next_of_quiet hs hq, nofun, fun _ => ?_⟩
    constructor <;> simp [Engine.endActivation]

/-- Settles O42: the engine after the step is idle, so that `stalled` is its three other conditions. -/
theorem abortStepLeavesTheInterruptMasked : Obligations.AbortStepLeavesTheInterruptMasked := by
  intro s hs
  have hexec : exec .wkAbort s = _ := gate_ok hs wkAbort_ok
  refine ⟨hexec, fun t ht => ?_⟩
  rw [hexec] at ht
  cases ht
  have hdone : (s.updEng Engine.endActivation).slotDone = isDone s.cfg (s.answer .rsr) := rfl
  have hirq : (s.updEng Engine.endActivation).irqEnabled = s.irqEnabled := rfl
  simp only [State.stalled, hdone, hirq]
  simp [Engine.endActivation, isDone_iff, State.irqEnabled, and_assoc]

/-! ## The fast path (R171, R259) -/

section
variable {s : State}

theorem fastPath_ok_polling (hmode : s.cfg.mode = .polling) : fastPath s = .ok () s := by
  simp only [fastPath, run_bind, run_get, hmode, reduceCtorEq, if_false, run_pure]

theorem fastPath_ends_notDone (hc : ConfigFacts s.cfg) (hmode : s.cfg.mode = .interrupt)
    (hdone : ¬ isDone s.cfg (s.answer .rsr) = true) : EndsIn fastPath s () (s.afterRead s.cfg.offRsr .rsr) := by
  refine .get_bind ?_
  rw [if_pos hmode]
  refine .devRead_bind (selectRead_rsr hc) ?_
  rw [if_neg hdone]
  exact .inl rfl

theorem fastPath_ends_done (hc : ConfigFacts s.cfg) (hmode : s.cfg.mode = .interrupt)
    (hdone : isDone s.cfg (s.answer .rsr) = true) : EndsIn fastPath s ()
      (((s.afterRead s.cfg.offRsr .rsr).afterRMW s.cfg.machiIrqEn 0).updEng Engine.signal) := by
  refine .get_bind ?_
  rw [if_pos hmode]
  refine .devRead_bind (selectRead_rsr hc) ?_
  rw [if_pos hdone]
  exact .bind (ctlRMW_ends _ _ (by rw [afterRead_cfg]; exact hc)) (quiet_afterRMW _ _) <| .updEng _

end

/-- Settles O29: by the mode and the status read. -/
theorem fastPathMasksThenSignals : Obligations.FastPathMasksThenSignals := by
  intro s hc
  refine ⟨fun href => ?_, fun href => ?_, fun hoff => gate_off hoff _ _,
    fun hq hon => ⟨fun hmode => ?_, fun hmode hdone => ?_, fun hmode hdone => ?_⟩⟩
  · simp [State.irqReady, State.irqLine, State.irqEnabled, Device.isFull, href]
  · simp [State.irqReady, href]
  · exact gate_ok hon (fastPath_ok_polling hmode)
  · refine ⟨_, (fastPath_ends_notDone hc.facts hmode (mt isDone_iff.mp (not_not_intro hdone))).next_of_quiet hon hq, ?_⟩
    constructor <;> simp
  · refine ⟨_, (s.afterRead s.cfg.offRsr .rsr).answer .machi,
      (fastPath_ends_done hc.facts hmode (isDone_iff.mpr hdone)).next_of_quiet hon hq, ?_, fun href => ?_⟩
    · constructor <;> simp [Engine.signal]
    · rw [answer_ref (by rwa [afterRead_cfg]), afterRead_cfg, afterRead_dev]
      rfl

end Sys2Proof.Machine
end

section
/-! PROOFS. An activation ends under the reference device (spec/42_receive.md R194; spec/20_memory.md R90): the worker alone
empties one slot for each frame it takes, so a count of full slots and steps to go falls at every step. -/

namespace Sys2Proof.Machine

/-! ## WK_COPY on any platform -/

section
variable {s : State}

theorem EndsIn.memWrite8 {a : Nat} (w : Word) (ha : a + 8 ≤ 2 ^ s.cfg.hostAddrBits) :
    EndsIn (memWrite8 a w) s () { s.tickMem with mem := s.mem.writeBytes a (bytesOf w 8) } := by
  have hin : s.inHost a 8 = true := decide_eq_true ha
  cases hd : s.memDue
  · exact .inl (by simp [Machine.memWrite8, hin, hd])
  · have hquiet : ¬ s.quiet := fun hq => by simp [State.memDue, hq.2] at hd
    exact .inr ⟨hquiet, _, by simp only [Machine.memWrite8, hin, hd]; rfl, recordFault_faulted _ _ _⟩

/-- What the copy loop leaves alone: everything but host memory, the ports and the platform's bookkeeping. -/
structure OnlyCopies (s t : State) : Prop where
  cfg : t.cfg = s.cfg
  eng : t.eng = s.eng
  dev : t.dev = s.dev
  agenda : t.env.agenda = s.env.agenda
  quiet : s.quiet → t.quiet

theorem quiet_tickMem (h : s.quiet) : s.tickMem.quiet := ⟨h.1, by simp [State.tickMem, h.2]⟩

/-- The state after word `k` of slot `i` has gone to the buffer `b` (R185). -/
def State.afterWord (s : State) (i k : Nat) (b : Word) : State :=
  { (s.afterRead (rxAddr s.cfg i k) (.rxbuf i k)).tickMem with
    mem := s.mem.writeBytes (bufAddr s.cfg b k) (bytesOf (s.answer (.rxbuf i k)) 8) }

theorem afterWord_onlyCopies (s : State) (i k : Nat) (b : Word) : OnlyCopies s (s.afterWord i k b) :=
  ⟨by simp [State.afterWord], by simp [State.afterWord], by simp [State.afterWord], by simp [State.afterWord],
    fun hq => quiet_tickMem (quiet_afterRead hq _ _)⟩

/-- The copy loop at one word: its read, its write, then the rest. -/
theorem rxCopy_succ_ends {i k n : Nat} {b : Word} {t : State}
    (hsel : selectRead s.cfg (rxAddr s.cfg i k) = some (.rxbuf i k))
    (hslot : s.eng.slot = some i) (hbuf : s.eng.buf = some (some b)) (hroom : bufAddr s.cfg b k + 8 ≤ 2 ^ s.cfg.hostAddrBits)
    (hrest : EndsIn (rxCopy n (k + 1)) (s.afterWord i k b) () t) : EndsIn (rxCopy (n + 1) k) s () t := by
  refine .get_bind <| .known_bind (readSlot_some hslot) <| .devRead_bind hsel <|
    .known_bind (a := b) (readBuf_some (by rw [afterRead_eng, hbuf])) <|
    .bind (EndsIn.memWrite8 _ (by rw [afterRead_cfg]; exact hroom)) quiet_tickMem ?_
  rw [afterRead_mem]
  exact hrest

theorem rxCopy_ends {c : Config} {i : Nat} {b : Word} (hc : ConfigFacts c) (hi : i < c.slotCount) (n : Nat) :
    ∀ (k : Nat) (s : State), s.cfg = c → s.eng.slot = some i → s.eng.buf = some (some b) → 8 * (k + n) ≤ c.slotStride →
    bufAddr c b (k + n) ≤ 2 ^ c.hostAddrBits → ∃ t, EndsIn (rxCopy n k) s () t ∧ OnlyCopies s t := by
  induction n with
  | zero => exact fun k s _ _ _ _ _ => ⟨s, .inl rfl, rfl, rfl, rfl, rfl, id⟩
  | succ n ih =>
    intro k s hs hslot hbuf hstride hroom
    subst hs
    have hword := afterWord_onlyCopies s i k b
    have hend : bufAddr s.cfg b (k + 1 + n) = bufAddr s.cfg b (k + (n + 1)) := by rw [Nat.add_right_comm, Nat.add_assoc]
    obtain ⟨t, ht, hrest⟩ := ih (k + 1) (s.afterWord i k b) hword.cfg (by rw [hword.eng, hslot]) (by rw [hword.eng, hbuf])
      (by omega) (by rw [hend]; exact hroom)
    have hroom8 : bufAddr s.cfg b k + 8 ≤ 2 ^ s.cfg.hostAddrBits := by simp only [bufAddr] at hroom ⊢; omega
    exact ⟨t, rxCopy_succ_ends (selectRead_rx hc hi (by omega)) hslot hbuf hroom8 ht, hrest.cfg.trans hword.cfg,
      hrest.eng.trans hword.eng, hrest.dev.trans hword.dev, hrest.agenda.trans hword.agenda, hrest.quiet ∘ hword.quiet⟩

theorem Inv.registersAt (hs : Inv s) {w : Wpc} (hw : s.eng.wpc = w) : RegistersAt s.cfg s.eng w := hw ▸ hs.registers

/-- Where the invariant lets WK_COPY be, it copies and goes on, unless an access fails. -/
theorem wkCopy_ends (hs : Inv s) (hw : s.eng.wpc = .copy) :
    ∃ t, EndsIn wkCopy s () (t.updEng fun e => { e with wpc := .advance }) ∧ OnlyCopies s t := by
  have hc := hs.config.facts
  obtain ⟨hd, ha, b, hbuf⟩ := hs.registersAt hw
  obtain ⟨i, hslot, hi⟩ := hd.slot_lt hc
  obtain ⟨n, hlen, hn⟩ := ha.len_le
  have hroom := (hs.buf b hbuf).2
  have hfits := hc.rxBuf
  have hstride := hc.strideFits
  obtain ⟨t, ht, hst⟩ := rxCopy_ends hc hi (words8 n) 0 s rfl hslot hbuf (by simp only [roundUp8, words8] at *; omega)
    (by simp only [bufAddr, roundUp8, words8] at *; omega)
  exact ⟨t, .known_bind (readLenBytes_some hlen) <| .bind ht hst.quiet <| .updEng _, hst⟩

end

/-! ## The status word under the reference device (R90) -/

/-- The ring has a power of two of slots (R255), so that the index mask takes no bit of an index. -/
theorem ofNat_and_slotIndexMask {c : Config} (h : ConfigOk c) {i : Nat} (hi : i < c.slotCount) :
    BitVec.ofNat 64 i &&& c.slotIndexMask = BitVec.ofNat 64 i := by
  have hsize : isRingSize c.slotCount = true := by
    have hall := List.findIdx?_eq_none_iff.mp h (isRingSize c.slotCount) List.mem_cons_self
    simpa using hall
  simp only [isRingSize, Bool.and_eq_true, decide_eq_true_eq, beq_iff_eq] at hsize
  obtain ⟨htwo, hpow⟩ := hsize
  obtain ⟨e, he⟩ := (Nat.and_sub_one_eq_zero_iff_isPowerOfTwo (by omega)).mp hpow
  have hmask := h.facts.mask
  have hlt := c.slotIndexMask.isLt
  apply BitVec.eq_of_toNat_eq
  rw [BitVec.toNat_and, BitVec.toNat_ofNat, Nat.mod_eq_of_lt (by omega), hmask, he, Nat.and_two_pow_sub_one_eq_mod,
    Nat.mod_eq_of_lt (by omega)]

/-- A status read reports a done slot only where the slot at the index is full. -/
theorem isFull_of_isDone {c : Config} {d : Device} (hc : ConfigOk c) (hd : d.cons < c.slotCount)
    (h : isDone c (refRsr c d) = true) : d.isFull d.cons = true := by
  by_contra hempty
  have hoff : BitVec.ofNat 64 d.cons &&& c.doneMask = 0 := by
    rw [← ofNat_and_slotIndexMask hc hd, BitVec.and_assoc, BitVec.and_comm c.slotIndexMask, hc.facts.doneOff]
    exact BitVec.and_zero
  rw [isDone_iff, refRsr, if_neg hempty] at h
  exact h ((congrArg (· &&& c.doneMask) BitVec.zero_or).trans hoff)

/-! ## Steps to go -/

/-- How many slots are full. -/
def Device.fullSlots (d : Device) : Nat := d.full.count true

/-- How many will be once the ring has advanced (R81). -/
def Device.fullSlotsAhead (d : Device) : Nat := (d.full.set d.cons false).count true

theorem fullSlots_advance (c : Config) (d : Device) (v : Word) : (applyWrite c d v .rsr).fullSlots = d.fullSlotsAhead := rfl

theorem fullSlots_of_isFull {d : Device} (h : d.isFull d.cons = true) : d.fullSlots = d.fullSlotsAhead + 1 := by
  have hlt : d.cons < d.full.length := by
    by_contra hge
    rw [Device.isFull, List.getD_eq_default _ _ (Nat.not_lt.mp hge)] at h
    cases h
  have hmark : d.full[d.cons] = true := by rw [← h, Device.isFull, List.getD_eq_getElem _ _ hlt]
  have hpos : 0 < d.full.count true := List.count_pos_iff.mpr (hmark ▸ List.getElem_mem hlt)
  rw [Device.fullSlots, Device.fullSlotsAhead, List.count_set hlt, hmark]
  simp only [beq_self_eq_true, if_true, beq_iff_eq, Bool.false_eq_true, if_false]
  omega

/-- A bound on the worker's steps until it is idle: at most ten for each full slot that a status read may still report. -/
def stepsToGo (d : Device) : Wpc → Nat
  | .idle => 0
  | .exit | .abort => 1
  | .test => 10 * d.fullSlots + 2
  | .deliver => 10 * d.fullSlots + 3
  | .reject | .advance => 10 * d.fullSlotsAhead + 4
  | .copy => 10 * d.fullSlotsAhead + 5
  | .alloc => 10 * d.fullSlotsAhead + 6
  | .validate => 10 * d.fullSlotsAhead + 7
  | .decode => 10 * d.fullSlotsAhead + 8

/-- A worker step from `s` to `t` that no failed access ended: the engine is up as before, nothing is offered that was not,
and the steps to go are fewer. -/
structure Progress (s t : State) : Prop where
  cfg : t.cfg = s.cfg
  init : t.eng.initDone = s.eng.initDone
  fault : t.eng.fault = s.eng.fault
  agenda : t.env.agenda = s.env.agenda
  fewer : stepsToGo t.dev t.eng.wpc < stepsToGo s.dev s.eng.wpc

section
variable {s : State}

theorem wkTest_progress (hs : Inv s) (href : s.cfg.refDevice = true) (hw : s.eng.wpc = .test) :
    ∃ t, EndsIn wkTest s () t ∧ Progress s t := by
  refine ⟨_, wkTest_ends hs.config.facts, by simp, by simp, by simp, by simp, ?_⟩
  rw [updEng_dev, afterRead_dev, updEng_eng, hw]
  dsimp only
  split
  · next hdone =>
    rw [answer_ref href] at hdone
    have := fullSlots_of_isFull (isFull_of_isDone hs.config hs.ring.1 hdone)
    simp only [stepsToGo]; omega
  · simp only [stepsToGo]; omega

theorem wkDecode_progress (hs : Inv s) (hw : s.eng.wpc = .decode) : ∃ t, EndsIn wkDecode s () t ∧ Progress s t := by
  obtain ⟨st, hst, -⟩ := hs.registersAt hw
  exact ⟨_, wkDecode_ends hs.config.facts hst rfl, by simp, by simp, by simp, by simp, by simp [hw, stepsToGo]⟩

theorem wkValidate_progress (hs : Inv s) (hw : s.eng.wpc = .validate) : ∃ t, EndsIn wkValidate s () t ∧ Progress s t := by
  obtain ⟨⟨st, -, -, hslot⟩, ⟨errs, herrs⟩, raw, trim, -, hlen⟩ : Decoded s.cfg s.eng := hs.registersAt hw
  refine ⟨_, .inl (wkValidate_ok hlen herrs hslot), rfl, rfl, rfl, rfl, ?_⟩
  rw [updEng_dev, updEng_eng, hw]
  dsimp only
  split <;> simp only [stepsToGo] <;> omega

theorem wkReject_progress (hs : Inv s) (hw : s.eng.wpc = .reject) : ∃ t, EndsIn wkReject s () t ∧ Progress s t := by
  obtain ⟨⟨st, -, -, hslot⟩, -, -⟩ : Decoded s.cfg s.eng := hs.registersAt hw
  refine ⟨_, wkReject_ends hs.config.facts hslot, rfl, rfl, rfl, rfl, ?_⟩
  rw [updEng_dev, afterWrite_dev, updEng_eng, hw]
  simp only [stepsToGo, fullSlots_advance, updEng_dev]
  omega

theorem wkAlloc_progress (hs : Inv s) (hw : s.eng.wpc = .alloc) : ∃ t, EndsIn wkAlloc s () t ∧ Progress s t := by
  obtain ⟨⟨-, -, raw, trim, -, hlen⟩, -⟩ := hs.registersAt hw
  refine ⟨_, .inl (wkAlloc_ok hlen), ?_⟩
  cases s.nextAlloc s.cfg.rxBufMin with
  | none => exact ⟨rfl, rfl, rfl, rfl, by simp [hw, stepsToGo, Engine.allocated]⟩
  | some b => exact ⟨rfl, rfl, rfl, rfl, by simp [hw, stepsToGo, Engine.allocated]⟩

theorem wkCopy_progress (hs : Inv s) (hw : s.eng.wpc = .copy) : ∃ t, EndsIn wkCopy s () t ∧ Progress s t := by
  obtain ⟨t, ht, hcopy⟩ := wkCopy_ends hs hw
  exact ⟨_, ht, hcopy.cfg, by rw [updEng_eng, hcopy.eng], by rw [updEng_eng, hcopy.eng], hcopy.agenda,
    by simp [hw, stepsToGo, hcopy.dev]⟩

theorem wkAdvance_progress (hs : Inv s) (hw : s.eng.wpc = .advance) : ∃ t, EndsIn wkAdvance s () t ∧ Progress s t := by
  obtain ⟨⟨⟨st, -, -, hslot⟩, -, -⟩, -⟩ := hs.registersAt hw
  exact ⟨_, wkAdvance_ends hs.config.facts hslot, rfl, rfl, rfl, rfl, by simp [hw, stepsToGo, fullSlots_advance]⟩

theorem wkDeliver_progress (hs : Inv s) (hw : s.eng.wpc = .deliver) : ∃ t, EndsIn wkDeliver s () t ∧ Progress s t := by
  obtain ⟨-, ha, b, hbuf⟩ := hs.registersAt hw
  obtain ⟨n, hlen, -⟩ := ha.len_le
  cases hrun : s.eng.running with
  | true =>
    exact ⟨_, .inl (wkDeliver_ok_running hlen hbuf hrun), rfl, rfl, rfl, rfl, by simp [hw, stepsToGo, State.delivered]⟩
  | false =>
    exact ⟨_, .inl (wkDeliver_ok_stopped hbuf hrun), rfl, rfl, rfl, rfl, by simp [hw, stepsToGo, State.delivered]⟩

theorem wkExit_progress (hs : Inv s) (hw : s.eng.wpc = .exit) : ∃ t, EndsIn wkExit s () t ∧ Progress s t := by
  cases hmode : s.cfg.mode with
  | polling => exact ⟨_, wkExit_ends_polling hmode, rfl, rfl, rfl, rfl, by simp [hw, stepsToGo, Engine.endActivation]⟩
  | interrupt =>
    exact ⟨_, wkExit_ends_interrupt hs.config.facts hmode, by simp, by simp [Engine.endActivation],
      by simp [Engine.endActivation], by simp, by simp [hw, stepsToGo, Engine.endActivation]⟩

theorem wkAbort_progress (hw : s.eng.wpc = .abort) : ∃ t, EndsIn wkAbort s () t ∧ Progress s t :=
  ⟨_, .inl wkAbort_ok, rfl, rfl, rfl, rfl, by simp [hw, stepsToGo, Engine.endActivation]⟩

end

/-! ## The activation ends -/

section
variable {s : State} (hs : Inv s) (hup : s.up = true) (ha : s.env.agenda = [])
include hs hup ha

/-- With nothing offered the step is the worker's, and ends where its body does or with a fault. -/
theorem step_of_ends {i : Instr} {w : Wpc} {x : Op Unit} (hi : workerStep i = some w) (hw : s.eng.wpc = w)
    (hexec : exec i s = gate (s.atStep w) x s) (hx : ∃ t, EndsIn x s () t ∧ Progress s t) :
    ∃ t, step s = .next t ∧ (Progress s t ∨ t.eng.fault ≠ none) := by
  obtain ⟨t, ht, hprog⟩ := hx
  obtain ⟨hinit, hfault⟩ := up_iff.mp hup
  obtain ⟨-, -, hstep⟩ := stepRunsTheInternalAgent s hs.config ha hfault
  obtain ⟨u, hu, hend⟩ := ht.next (atStep_iff.mpr ⟨hup, hw⟩)
  refine ⟨u, (hstep hinit i w hi hw).trans (hexec.trans hu), hend.imp (fun he => ?_) id⟩
  rw [he]; exact hprog

/-- From a state of the invariant with nothing offered, the worker's step makes progress or faults. -/
theorem step_progress (href : s.cfg.refDevice = true) (hw : s.eng.wpc ≠ .idle) :
    ∃ t, step s = .next t ∧ (Progress s t ∨ t.eng.fault ≠ none) := by
  have run {i w x} := step_of_ends hs hup ha (i := i) (w := w) (x := x)
  cases hat : s.eng.wpc with
  | idle => exact absurd hat hw
  | test => exact run (i := .wkTest) rfl hat rfl (wkTest_progress hs href hat)
  | decode => exact run (i := .wkDecode) rfl hat rfl (wkDecode_progress hs hat)
  | validate => exact run (i := .wkValidate) rfl hat rfl (wkValidate_progress hs hat)
  | reject => exact run (i := .wkReject) rfl hat rfl (wkReject_progress hs hat)
  | alloc => exact run (i := .wkAlloc) rfl hat rfl (wkAlloc_progress hs hat)
  | copy => exact run (i := .wkCopy) rfl hat rfl (wkCopy_progress hs hat)
  | advance => exact run (i := .wkAdvance) rfl hat rfl (wkAdvance_progress hs hat)
  | deliver => exact run (i := .wkDeliver) rfl hat rfl (wkDeliver_progress hs hat)
  | exit => exact run (i := .wkExit) rfl hat rfl (wkExit_progress hs hat)
  | abort => exact run (i := .wkAbort) rfl hat rfl (wkAbort_progress hat)

end

theorem core_run_succ {s t : State} (h : step s = .next t) (n : Nat) :
    Host.Core.run Sys2Proof.core (n + 1) s = Host.Core.run Sys2Proof.core n t := by
  have hcore : Host.Core.step Sys2Proof.core s = .next t := h
  simp only [Host.Core.run, hcore]

/-- Settles O60: by induction on the steps to go. -/
theorem activationEndsUnderTheReferenceDevice : Obligations.ActivationEndsUnderTheReferenceDevice := by
  intro s hs href hup ha
  induction hm : stepsToGo s.dev s.eng.wpc using Nat.strong_induction_on generalizing s with
  | _ m ih =>
    by_cases hw : s.eng.wpc = .idle
    · exact ⟨0, s, rfl, .inl hw⟩
    obtain ⟨t, hstep, hprog | hfault⟩ := step_progress hs hup ha href hw
    · obtain ⟨hinit, hfault⟩ := up_iff.mp hup
      obtain ⟨n, u, hrun, hend⟩ := ih _ (hm ▸ hprog.fewer) t (everyStepKeepsTheInvariant s t hs hstep)
        (by rw [hprog.cfg, href]) (up_iff.mpr ⟨hprog.init.trans hinit, hprog.fault.trans hfault⟩)
        (hprog.agenda.trans ha) rfl
      exact ⟨n + 1, u, (core_run_succ hstep n).trans hrun, hend⟩
    · exact ⟨1, t, core_run_succ hstep 0, .inr hfault⟩

end Sys2Proof.Machine
end

section
/-! PROOFS. The lifecycle commands (spec/43_lifecycle.md R220 to R228), the INIT step (spec/70_reset_and_hazards.md R281)
and the two ticks (R229, R230), each said once: the state it ends in, unless an access fails; and the agreement of E.promisc
with ALLPKTS (R224). -/

namespace Sys2Proof.Machine

/-! ## Where each ends -/

section
variable {s : State}

theorem EndsIn.respond (st : Status) (v : Word) :
    EndsIn (respond st v) s () (s.updEng fun e => { e with resp := ⟨st, v⟩ }) := .inl rfl

/-- A `CtlRMW` that the response follows. -/
theorem ctlRMW_respond_ends (hc : ConfigFacts s.cfg) (clear set : Word) (st : Status) (v : Word) :
    EndsIn (do ctlRMW clear set; respond st v) s ()
      ((s.afterRMW clear set).updEng fun e => { e with resp := ⟨st, v⟩ }) :=
  (ctlRMW_ends clear set hc).bind (quiet_afterRMW _ _) (.respond st v)

theorem ifStart_ends_polling (hmode : s.cfg.mode = .polling) : EndsIn ifStart s ()
    (s.updEng fun e => { e with running := true, resp := ⟨.ok, 0⟩ }) := by
  refine .updEng_bind <| .get_bind ?_
  rw [if_neg (by rw [updEng_cfg, hmode]; nofun)]
  exact .respond .ok 0

theorem ifStart_ends_interrupt (hc : ConfigFacts s.cfg) (hmode : s.cfg.mode = .interrupt) : EndsIn ifStart s ()
    (((s.updEng fun e => { e with running := true }).afterRMW 0 s.cfg.machiIrqEn).updEng
      fun e => { e with resp := ⟨.ok, 0⟩ }) := by
  refine .updEng_bind <| .get_bind ?_
  rw [updEng_cfg, if_pos hmode]
  exact ctlRMW_respond_ends (s := s.updEng _) hc 0 s.cfg.machiIrqEn .ok 0

theorem setPromisc_ends (hc : ConfigFacts s.cfg) (on : Bool) : EndsIn (setPromisc on) s ()
    (((s.updEng fun e => { e with promisc := on }).afterRMW (if on then 0 else s.cfg.machiAllpkts)
      (if on then s.cfg.machiAllpkts else 0)).updEng fun e => { e with resp := ⟨.ok, 0⟩ }) := by
  refine .updEng_bind <| .get_bind ?_
  cases on <;> exact ctlRMW_respond_ends (s := s.updEng _) hc _ _ .ok 0

theorem initStep_ends (hc : ConfigFacts s.cfg) : EndsIn initStep s ()
    ((s.afterRMW (s.cfg.machiIrqEn ||| s.cfg.machiAllpkts) 0).updEng fun e => { e with initDone := true }) :=
  .get_bind <| (ctlRMW_ends _ 0 hc).bind (quiet_afterRMW _ _) (.updEng _)

/-- What READ_MAC's second read answers. -/
def State.macLow (s : State) : Word := (s.afterRead s.cfg.offMachi .machi).answer .maclo

theorem readMac_ends (hc : ConfigFacts s.cfg) : EndsIn readMac s ()
    (((s.afterRead s.cfg.offMachi .machi).afterRead s.cfg.offMaclo .maclo).updEng
      fun e => { e with resp := ⟨.ok, macValue (s.answer .machi) s.macLow⟩ }) :=
  .get_bind <| .devRead_bind (selectRead_machi hc) <|
    .devRead_bind (by rw [afterRead_cfg]; exact selectRead_maclo hc) <| .respond _ _

theorem checkAndSignal_ok_busy (hb : s.eng.busy = true) : checkAndSignal s = .ok () s := by
  simp [checkAndSignal, hb]

/-- The state after the status check while no activation runs: one read of RSR, and a done field starts an activation
(R172). -/
def State.afterCheck (s : State) : State :=
  (s.afterRead s.cfg.offRsr .rsr).updEng fun e => if isDone s.cfg (s.answer .rsr) then e.signal else e

theorem checkAndSignal_ends (hc : ConfigFacts s.cfg) (hb : s.eng.busy = false) :
    EndsIn checkAndSignal s () s.afterCheck := by
  refine .get_bind ?_
  rw [if_pos hb]
  refine .devRead_bind (selectRead_rsr hc) ?_
  unfold State.afterCheck
  split
  · exact .updEng _
  · exact .inl rfl

theorem afterCheck_leaves (hb : s.eng.busy = false) :
    Leaves s s.afterCheck
      (if s.answer .rsr &&& s.cfg.doneMask = 0 then s.eng else { s.eng with busy := true, wpc := .test })
      s.dev s.mem [.rd s.cfg.offRsr (s.answer .rsr)] := by
  constructor <;> simp [State.afterCheck, isDone_iff, Engine.signal, hb]

theorem pollTick_eq (hmode : s.cfg.mode = .polling) : pollTick s = checkAndSignal s := by
  simp only [pollTick, run_bind, run_get, if_pos hmode]

theorem pollTick_ends (hc : ConfigFacts s.cfg) (hmode : s.cfg.mode = .polling) (hb : s.eng.busy = false) :
    EndsIn pollTick s () s.afterCheck := by
  rw [EndsIn, pollTick_eq hmode]
  exact checkAndSignal_ends hc hb

end

/-! ## The words and values they answer -/

/-- The address as a number: the low 16 bits of `hi` above the low 32 of `lo` (R137). -/
theorem toNat_macValue (hi lo : Word) :
    (macValue hi lo).toNat = hi.toNat % 2 ^ 16 * 2 ^ 32 + lo.toNat % 2 ^ 32 := by
  have hlo := Nat.mod_lt lo.toNat (show 0 < 2 ^ 32 by decide)
  have happend : (hi.toNat % 2 ^ 16) <<< 32 ||| lo.toNat % 2 ^ 32 = hi.toNat % 2 ^ 16 * 2 ^ 32 + lo.toNat % 2 ^ 32 := by
    rw [← Nat.shiftLeft_add_eq_or_of_lt hlo, Nat.shiftLeft_eq]
  simp only [macValue, BitVec.toNat_setWidth, BitVec.toNat_append, BitVec.extractLsb'_toNat, Nat.shiftRight_zero]
  rw [happend]
  omega

/-- A request with no bit above bit 0 is below 2. -/
theorem toNat_lt_two_of_and {req : BitVec 24} (h : req &&& ~~~1 = 0) : req.toNat < 2 := by
  refine Nat.lt_pow_two_of_testBit (n := 1) req.toNat fun i hi => ?_
  rw [BitVec.testBit_toNat]
  by_cases hlt : i < 24
  · have hbit := congrArg (fun w => w.getLsbD i) h
    have hone : (1 : BitVec 24).getLsbD i = false := BitVec.getLsbD_one.trans (by simp; omega)
    rw [BitVec.getLsbD_and, BitVec.getLsbD_not, hone] at hbit
    simpa [hlt] using hbit
  · exact BitVec.getLsbD_of_ge req i (by omega)

/-- A request below 2 has no bit above bit 0, and its bit 0 is its value. -/
theorem and_bit_of_toNat_lt_two {req : BitVec 24} (h : req.toNat < 2) :
    req &&& ~~~1 = 0 ∧ req.getLsbD 0 = decide (req.toNat = 1) := by
  obtain h0 | h1 : req = 0 ∨ req = 1 := by bv_omega
  · rw [h0]; decide
  · rw [h1]; decide

/-- The five counters in the order of R114's `sel`. -/
theorem counter_eq_getElem? (e : Engine) (sel : BitVec 3) :
    e.counter sel = [e.ipackets, e.ierrors, e.iqdrops, e.opackets, e.obytes][sel.toNat]? := by
  match hsel : sel.toNat with
  | 0 | 1 | 2 | 3 | 4 => simp [Engine.counter, hsel]
  | n + 5 => simp [Engine.counter, hsel]

/-- The command word of a READ_COUNTER. -/
theorem readCounter_word (sel : BitVec 3) :
    (cmdWord 0x0A ((0 : BitVec 21) ++ sel)).setWidth 64 = BitVec.ofNat 64 (sel.toNat * 256 + 10) := by
  apply BitVec.eq_of_toNat_eq
  have harg : ((0 : BitVec 21) ++ sel).toNat = sel.toNat := by
    rw [BitVec.toNat_append]; simp
  rw [BitVec.toNat_setWidth, toNat_cmdWord, harg, BitVec.toNat_ofNat]
  rfl

/-! ## The obligations of the commands -/

/-- Settles O18: by the mode. -/
theorem ifStartSetsRunningAndUnmasks : Obligations.IfStartSetsRunningAndUnmasks := by
  intro s hc hq hup
  cases hmode : s.cfg.mode with
  | polling =>
    exact ⟨_, (ifStart_ends_polling hmode).next_of_quiet hup hq, fun _ => ⟨rfl, rfl, rfl, rfl, rfl, rfl⟩, nofun⟩
  | interrupt =>
    refine ⟨_, (ifStart_ends_interrupt hc.facts hmode).next_of_quiet hup hq, nofun, fun _ => ?_⟩
    constructor <;> simp

/-- Settles O19: two assignments and no access. -/
theorem ifStopClearsRunningOnly : Obligations.IfStopClearsRunningOnly :=
  fun _ hup => gate_ok hup rfl

/-- Settles O20: the two accesses of one `CtlRMW`. -/
theorem setPromiscWritesFlagAndBit : Obligations.SetPromiscWritesFlagAndBit := by
  intro s on hc hq hup
  refine ⟨_, (setPromisc_ends hc.facts on).next_of_quiet hup hq, ?_⟩
  constructor <;> simp

/-- Settles O21: a request below 2 is one with no bit above bit 0. -/
theorem setCapsTakesOnlyRxcsum : Obligations.SetCapsTakesOnlyRxcsum := by
  intro s req hup
  refine ⟨fun hlt => gate_ok hup ?_, fun hge => gate_ok hup ?_⟩
  · obtain ⟨hrest, hbit⟩ := and_bit_of_toNat_lt_two hlt
    rw [setCaps, if_pos hrest, hbit]
    rfl
  · rw [setCaps, if_neg fun h => Nat.not_lt.mpr hge (toNat_lt_two_of_and h)]
    rfl

/-- Settles O22: each is a response and nothing else. -/
theorem getCommandsAnswerTheirValue : Obligations.GetCommandsAnswerTheirValue :=
  fun _ hup => ⟨gate_ok hup rfl, gate_ok hup rfl, gate_ok hup rfl⟩

/-- Settles O23: a read of MACHI, then one of MACLO. -/
theorem readMacAnswersTheStationAddress : Obligations.ReadMacAnswersTheStationAddress := by
  intro s hc hq hup
  refine ⟨_, s.answer .machi, s.macLow, macValue (s.answer .machi) s.macLow,
    (readMac_ends hc.facts).next_of_quiet hup hq, ?_, rfl, fun href => ?_, toNat_macValue _ _⟩
  · constructor <;> simp [State.macLow]
  · rw [State.macLow, answer_ref (by rwa [afterRead_cfg]), afterRead_cfg, afterRead_dev]
    rfl

/-- Settles O25: by whether `sel` is a position in the list of counters. -/
theorem readCounterAnswersTheCounter : Obligations.ReadCounterAnswersTheCounter := by
  intro s sel hup
  refine ⟨fun h => gate_ok hup ?_, fun h => ?_⟩
  · have hcount := (counter_eq_getElem? s.eng sel).trans (List.getElem?_eq_getElem h)
    simp only [readCounter, run_bind, run_get, hcount]
    rfl
  · have hcount := (counter_eq_getElem? s.eng sel).trans (List.getElem?_eq_none h)
    have hrun : readCounter sel s = .error () (s.recordFault .badCmd (BitVec.ofNat 64 (sel.toNat * 256 + 10))) := by
      simp only [readCounter, run_bind, run_get, hcount, readCounter_word, run_raise]
    exact (gate_on hup _ _).trans (by rw [stateAfter_error hrun, recordFault_of_alive (up_iff.mp hup).2])

/-! ## The obligations of the ticks -/

/-- Settles O30: in interrupt mode the tick is not enabled; otherwise it is the status check. -/
theorem pollTickChecksStatusWhenIdle : Obligations.PollTickChecksStatusWhenIdle := by
  intro s hc hq hup
  refine ⟨fun h => ?_, fun hmode hb => ⟨_, (pollTick_ends hc.facts hmode hb).next_of_quiet hup hq,
    afterCheck_leaves hb⟩⟩
  cases hmode : s.cfg.mode with
  | interrupt => exact exec_of_not_enabled (by simp [State.enables, hmode])
  | polling =>
    have hb : s.eng.busy = true := h.resolve_left (by rw [hmode]; nofun)
    exact gate_ok hup ((pollTick_eq hmode).trans (checkAndSignal_ok_busy hb))

/-- Settles O31: without WATCHDOG the tick is not enabled; otherwise it is the status check. -/
theorem watchdogTickChecksStatusWhenIdle : Obligations.WatchdogTickChecksStatusWhenIdle := by
  intro s hc hq hup
  refine ⟨fun h => ?_, fun hdog hb =>
    ⟨_, (checkAndSignal_ends hc.facts hb).next_of_quiet (by simp [State.watchdogReady, hup, hdog]) hq,
      afterCheck_leaves hb⟩⟩
  cases hdog : s.cfg.watchdog with
  | false => exact exec_of_not_enabled (by simp [State.enables, State.watchdogReady, hdog])
  | true =>
    have hb : s.eng.busy = true := h.resolve_left (by rw [hdog]; nofun)
    exact gate_ok (by simp [State.watchdogReady, hup, hdog]) (checkAndSignal_ok_busy hb)

/-! ## E.promisc and ALLPKTS (R224) -/

/-- E.promisc is 0 before INIT, and the ALLPKTS bit of the word MACHI holds after it. -/
def PromiscAgrees (c : Config) (s : State) : Prop :=
  (s.eng.initDone = false → s.eng.promisc = false) ∧
  (s.eng.initDone = true → (s.eng.promisc = true ↔ s.dev.word c.offMachi &&& c.machiAllpkts ≠ 0))

/-- The configuration and the two flags that the agreement speaks of stay. -/
structure KeepsPromisc (s t : State) : Prop where
  cfg : t.cfg = s.cfg
  promisc : t.eng.promisc = s.eng.promisc
  initDone : t.eng.initDone = s.eng.initDone

theorem keepsPromisc_closed : Closed KeepsPromisc where
  refl _ := ⟨rfl, rfl, rfl⟩
  trans h k := ⟨k.cfg.trans h.cfg, k.promisc.trans h.promisc, k.initDone.trans h.initDone⟩

theorem SameEngine.keepsPromisc {s t : State} (h : SameEngine s t) : KeepsPromisc s t :=
  ⟨h.cfg, by rw [h.eng], by rw [h.eng]⟩

/-- Every primitive keeps the two flags. -/
theorem keepsPromisc_kept : Kept KeepsPromisc where
  closed := keepsPromisc_closed
  cfg h := h.cfg
  eng _ s hf := ⟨rfl, (hf s.eng).1, (hf s.eng).2⟩
  emit _ _ := ⟨rfl, rfl, rfl⟩
  raise _ _ _ := ⟨rfl, rfl, rfl⟩
  draw _ := ⟨rfl, rfl, rfl⟩
  alloc _ := ⟨rfl, rfl, rfl⟩
  read off s := (devRead_sameEngine off s).keepsPromisc
  write off v s _ := (devWrite_sameEngine off v s).keepsPromisc
  mask s := (ctlRMW_sameEngine _ _ s).keepsPromisc
  unmask s := (ctlRMW_sameEngine _ _ s).keepsPromisc
  memRead a s := (memRead_sameEngine a s).keepsPromisc

/-- A step that keeps the flags and the ALLPKTS bit keeps the agreement. -/
theorem PromiscAgrees.congr {s t : State} {c : Config} (h : PromiscAgrees c s) (hk : KeepsPromisc s t)
    (hbit : t.dev.word c.offMachi &&& c.machiAllpkts = s.dev.word c.offMachi &&& c.machiAllpkts) :
    PromiscAgrees c t := by
  rw [PromiscAgrees, hk.promisc, hk.initDone, hbit]
  exact h

/-- A `CtlRMW` decides every bit that it clears or sets (R132). -/
theorem rmwWord_and_covered {v clear set m : Word} (h : (clear ||| set) &&& m = m) :
    rmwWord v clear set &&& m = set &&& m := by
  apply BitVec.eq_of_getLsbD_eq
  intro i hi
  have hbit := congrArg (fun w => w.getLsbD i) h
  simp only [BitVec.getLsbD_and, BitVec.getLsbD_or] at hbit
  simp only [rmwWord, BitVec.getLsbD_and, BitVec.getLsbD_or, BitVec.getLsbD_not, hi, decide_true, Bool.true_and]
  cases hs : set.getLsbD i <;> cases hc : clear.getLsbD i <;> simp_all

theorem ConfigFacts.allpkts_ne_zero {c : Config} (h : ConfigFacts c) : c.machiAllpkts ≠ 0 := by
  obtain ⟨i, hi⟩ := controlBit_pow h.allBit
  intro h0
  rw [h0] at hi
  exact absurd hi.symm (Nat.two_pow_pos i).ne'

/-- After INIT flag and bit agree where the word's ALLPKTS is what the flag says. -/
theorem promiscAgrees_of_bit {c : Config} {t : State} (hc : ConfigFacts c) (hinit : t.eng.initDone = true)
    (hbit : t.dev.word c.offMachi &&& c.machiAllpkts = if t.eng.promisc then c.machiAllpkts else 0) :
    PromiscAgrees c t := by
  refine ⟨fun h => absurd (hinit.symm.trans h) nofun, fun _ => ?_⟩
  rw [hbit]
  cases t.eng.promisc
  · exact ⟨nofun, fun h => absurd rfl h⟩
  · exact ⟨fun _ => hc.allpkts_ne_zero, fun _ => rfl⟩

/-- A step that ends with no fault was not enabled, or ended where its body does. -/
theorem EndsIn.eq_of_alive {x : Op Unit} {on : Bool} {s t u : State} (h : EndsIn x s () t) (hx : gate on x s = .next u)
    (hf : u.eng.fault = none) : u = s ∨ on = true ∧ u = t := by
  cases hon : on with
  | false => rw [gate_off hon] at hx; cases hx; exact .inl rfl
  | true =>
    obtain ⟨w, hw, hend⟩ := h.next hon
    rw [hx] at hw
    cases hw
    exact .inr ⟨rfl, hend.resolve_right (not_not_intro hf)⟩

/-- INIT clears ALLPKTS, and E.promisc is 0 before it (R281). -/
theorem stInit_promiscAgrees {s t : State} (hc : ConfigFacts s.cfg) (hs : PromiscAgrees s.cfg s)
    (h : exec .stInit s = .next t) (hf : t.eng.fault = none) : PromiscAgrees s.cfg t := by
  obtain rfl | ⟨hready, rfl⟩ := (initStep_ends hc).eq_of_alive h hf
  · exact hs
  have hinit : s.eng.initDone = false := by
    simp only [State.initReady, Bool.and_eq_true, Bool.not_eq_true'] at hready
    exact hready.1.1
  refine promiscAgrees_of_bit hc rfl ?_
  rw [updEng_dev, afterRMW_dev, word_store_same, rmwWord_and_covered (by ext i; simp +contextual)]
  simp [hs.1 hinit]

/-- SET_PROMISC writes the flag and the bit alike (R222). -/
theorem setPromisc_promiscAgrees {s t : State} {on : Bool} (hc : ConfigFacts s.cfg) (hs : PromiscAgrees s.cfg s)
    (h : exec (.setPromisc on) s = .next t) (hf : t.eng.fault = none) : PromiscAgrees s.cfg t := by
  obtain rfl | ⟨hup, rfl⟩ := (setPromisc_ends hc on).eq_of_alive h hf
  · exact hs
  refine promiscAgrees_of_bit hc (by simp [(up_iff.mp hup).1]) ?_
  rw [updEng_dev, afterRMW_dev, updEng_cfg, word_store_same, rmwWord_and_covered (by cases on <;> simp)]
  cases on <;> simp

/-- Settles O56: INIT and SET_PROMISC set flag and bit together, EV_RESET returns to before INIT, and every other step
keeps both. -/
theorem promiscFlagAgreesWithAllpkts : Obligations.PromiscFlagAgreesWithAllpkts := by
  intro i s t hc href hbus hbefore hafter h hf
  have hs : PromiscAgrees s.cfg s := ⟨hbefore, hafter⟩
  by_cases hinit : i = .stInit
  · subst hinit; exact stInit_promiscAgrees hc.facts hs h hf
  by_cases hpromisc : ∃ on, i = .setPromisc on
  · obtain ⟨on, rfl⟩ := hpromisc; exact setPromisc_promiscAgrees hc.facts hs h hf
  by_cases hreset : i = .evReset
  · subst hreset; cases h; exact ⟨fun _ => rfl, nofun⟩
  have hne : ∀ on, i ≠ .setPromisc on := fun on he => hpromisc ⟨on, he⟩
  have hflags := exec_kept keepsPromisc_kept hbus hinit hne hreset
    (fun _ a w s => (memWrite8_sameEngine a w s).keepsPromisc) h
  have hbits := exec_kept (keepsMachi_kept (m := Config.machiAllpkts) fun _ hok => hok.facts.bits_apart) hbus hinit hne
    hreset (fun _ => memWrite8_keepsMachi) h
  exact hs.congr hflags (hbits.bits hc href)

end Sys2Proof.Machine
end

section
/-! PROOFS. The idle engine (spec/60_exceptions.md R269), and the check of the configuration (R255, R282): each Boolean of
`constraints` says what `Constraint` says. -/

namespace Sys2Proof.Machine

/-! ## The idle engine -/

/-- Settles O14: no worker step stands at an idle pointer, so the internal agent has none to take. -/
theorem idleEngineKeepsItsState : Obligations.IdleEngineKeepsItsState := by
  intro s hc hup hidle ha
  obtain ⟨hinit, hf⟩ := up_iff.mp hup
  have hnone : s.internal = none := by
    rw [State.internal, if_pos (alive_iff.mpr hf), if_pos hinit, hidle]; rfl
  rw [step_internal hc ha, fetchInternal_keep hf hnone, outcome_next]

/-! ## The constraints of R255, one by one -/

section
variable {c : Config}

/-- Constraint 0: a ring size is a power of two. -/
theorem isRingSize_iff {n : Nat} : isRingSize n = true ↔ 2 ≤ n ∧ ∃ e, n = 2 ^ e := by
  rw [isRingSize, Bool.and_eq_true, decide_eq_true_iff, beq_iff_eq]
  exact and_congr_right fun h => Nat.and_sub_one_eq_zero_iff_isPowerOfTwo (by omega)

/-- Two ranges that are apart have no byte in common. -/
theorem apart_iff_no_common {a b : Region} :
    Apart a.1 a.2 b.1 b.2 ↔ ∀ x, ¬ ((a.1 ≤ x ∧ x < a.1 + a.2) ∧ (b.1 ≤ x ∧ x < b.1 + b.2)) := by
  constructor
  · intro h x
    unfold Apart at h
    omega
  · intro h
    have hmax := h (max a.1 b.1)
    unfold Apart
    omega

/-- Constraint 13: no byte lies in two of the ranges. -/
theorem allDisjoint_iff {l : List Region} : allDisjoint l = true ↔
    l.Pairwise fun a b => ∀ x, ¬ ((a.1 ≤ x ∧ x < a.1 + a.2) ∧ (b.1 ≤ x ∧ x < b.1 + b.2)) := by
  induction l with
  | nil => simp [allDisjoint]
  | cons r rs ih =>
    simp only [allDisjoint, Bool.and_eq_true, List.all_eq_true, List.pairwise_cons, ih, disjoint_iff, apart_iff_no_common]

/-- A control bit is a single bit at 16 or above (R9). -/
theorem isControlBit_iff {w : Word} : isControlBit w = true ↔ ∃ i, 16 ≤ i ∧ i < 64 ∧ w.toNat = 2 ^ i := by
  constructor
  · intro h
    obtain ⟨i, hi⟩ := controlBit_pow h
    have hlow : w &&& 0xFFFF = 0 := by
      simp only [isControlBit, Bool.and_eq_true, beq_iff_eq] at h
      exact h.2
    have hmod : 2 ^ i % 2 ^ 16 = 0 := by
      rw [← Nat.and_two_pow_sub_one_eq_mod, ← hi]
      exact congrArg BitVec.toNat hlow
    refine ⟨i, ?_, (Nat.pow_lt_pow_iff_right (by decide)).mp (hi ▸ w.isLt), hi⟩
    by_contra hlt
    rw [Nat.mod_eq_of_lt (Nat.pow_lt_pow_right (by decide) (by omega))] at hmod
    exact absurd hmod (Nat.two_pow_pos i).ne'
  · rintro ⟨i, hlo, hhi, hw⟩
    have hpos : 0 < w.toNat := hw ▸ Nat.two_pow_pos i
    have hpred : (w - 1).toNat = w.toNat - 1 := by
      rw [BitVec.toNat_sub_of_le hpos]; rfl
    simp only [isControlBit, Bool.and_eq_true, bne_iff_ne, beq_iff_eq, ne_eq]
    refine ⟨⟨fun h0 => by simp [h0] at hpos, BitVec.eq_of_toNat_eq ?_⟩, BitVec.eq_of_toNat_eq ?_⟩
    · rw [BitVec.toNat_and, hpred]
      exact (Nat.and_sub_one_eq_zero_iff_isPowerOfTwo hpos.ne').mpr ⟨i, hw⟩
    · rw [BitVec.toNat_and, hw]
      exact (Nat.and_two_pow_sub_one_eq_mod (2 ^ i) 16).trans (Nat.mod_eq_zero_of_dvd (Nat.pow_dvd_pow 2 hlo))

/-- Constraint 14: the two control bits of MACHI differ. -/
theorem controlBits_iff {v w : Word} : (isControlBit v && isControlBit w && v != w) = true ↔
    ∃ i j, 16 ≤ i ∧ i < 64 ∧ 16 ≤ j ∧ j < 64 ∧ i ≠ j ∧ v.toNat = 2 ^ i ∧ w.toNat = 2 ^ j := by
  simp only [Bool.and_eq_true, isControlBit_iff, bne_iff_ne]
  constructor
  · rintro ⟨⟨⟨i, hi, hi', hv⟩, j, hj, hj', hw⟩, hne⟩
    refine ⟨i, j, hi, hi', hj, hj', ?_, hv, hw⟩
    rintro rfl
    exact hne (BitVec.eq_of_toNat_eq (hv.trans hw.symm))
  · rintro ⟨i, j, hi, hi', hj, hj', hne, hv, hw⟩
    refine ⟨⟨⟨i, hi, hi', hv⟩, j, hj, hj', hw⟩, ?_⟩
    rintro rfl
    exact hne (Nat.pow_right_injective (le_refl 2) (hv.symm.trans hw))

theorem all_mod8_iff {l : List Nat} : l.all (fun o => decide (o % 8 = 0)) = true ↔ ∀ o ∈ l, 8 ∣ o := by
  simp only [List.all_eq_true, decide_eq_true_iff, Nat.dvd_iff_mod_eq_zero]

/-- Entry `k` of the check says what constraint `k` of R255 says. -/
theorem constraints_getElem_iff {k : Nat} (hk : k < (constraints c).length) :
    (constraints c)[k] = true ↔ Constraint c k := by
  match k, hk with
  | 0, _ => exact isRingSize_iff
  | 1, _ | 5, _ | 6, _ | 8, _ | 9, _ | 10, _ => exact decide_eq_true_iff
  | 2, _ | 4, _ => exact bne_iff_ne
  | 3, _ => exact beq_iff_eq (a := c.doneMask &&& c.slotIndexMask)
  | 7, _ | 11, _ => exact decide_eq_true_iff.trans (Nat.dvd_iff_mod_eq_zero ..).symm
  | 12, _ => exact Bool.and_eq_true_iff.trans (and_congr all_mod8_iff decide_eq_true_iff)
  | 13, _ => exact allDisjoint_iff
  | 14, _ => exact Bool.and_eq_true_iff.trans (and_congr controlBits_iff beq_iff_eq)
  | 15, _ =>
    refine List.all_eq_true.trans (forall₂_congr fun r _ => ?_)
    rw [belowOffBits, Bool.and_eq_true, decide_eq_true_iff, decide_eq_true_iff]
  | k + 16, hk => exact absurd hk (Nat.not_lt.mpr (Nat.le_add_left 16 k))

theorem constraint_of_ge {k : Nat} (hk : (constraints c).length ≤ k) : Constraint c k := by
  obtain ⟨m, rfl⟩ := Nat.exists_eq_add_of_le' (show 16 ≤ k from hk)
  trivial

/-- The index the check reports is that of the first constraint that does not hold. -/
theorem brokenConstraint_eq_some_iff {k : Nat} :
    brokenConstraint c = some k ↔ ¬ Constraint c k ∧ ∀ j < k, Constraint c j := by
  rw [brokenConstraint, List.findIdx?_eq_some_iff_getElem]
  constructor
  · rintro ⟨hk, hbroken, hbefore⟩
    refine ⟨fun h => ?_, fun j hj => (constraints_getElem_iff (hj.trans hk)).mp (by simpa using hbefore j hj)⟩
    simp [(constraints_getElem_iff hk).mpr h] at hbroken
  · rintro ⟨hbroken, hbefore⟩
    have hk : k < (constraints c).length := lt_of_not_ge fun h => hbroken (constraint_of_ge h)
    refine ⟨hk, ?_, fun j hj => ?_⟩
    · simpa using mt (constraints_getElem_iff hk).mp hbroken
    · simpa using (constraints_getElem_iff (hj.trans hk)).mpr (hbefore j hj)

theorem configOk_iff : ConfigOk c ↔ ∀ k, Constraint c k := by
  constructor
  · intro h k
    induction k using Nat.strong_induction_on with
    | _ k ih =>
      by_contra hk
      rw [ConfigOk, brokenConstraint_eq_some_iff.mpr ⟨hk, ih⟩] at h
      cases h
  · intro h
    rw [ConfigOk, Option.eq_none_iff_forall_ne_some]
    exact fun k hk => (brokenConstraint_eq_some_iff.mp hk).1 (h k)

end

/-- Settles O10: the check lists the sixteen constraints in their order, and the step asks for it first. -/
theorem brokenConfigurationHasNoRun : Obligations.BrokenConfigurationHasNoRun := by
  refine ⟨fun s k hk => ?_, fun c k => brokenConstraint_eq_some_iff, fun c => configOk_iff, ?_, ?_, ?_⟩
  · rw [step_eq, fetch, hk]; rfl
  · decide
  · decide
  · decide

end Sys2Proof.Machine
end

section
/-! PROOFS. A failed device access (spec/60_exceptions.md R250 to R252; spec/40_register_interface.md R130, R131): a step
runs in lockstep with and without a coming failure up to the access it hits, and ends there. -/

namespace Sys2Proof.Machine

/-! ## A coming failure -/

/-- The result of an operation, with `f` applied to the state it ends in. -/
def mapEnd {α : Type} (f : State → State) : EStateM.Result Unit State α → EStateM.Result Unit State α
  | .ok a t => .ok a (f t)
  | .error e t => .error e (f t)

@[simp] theorem mapEnd_ok {α : Type} (f : State → State) (a : α) (t : State) :
    mapEnd f (.ok a t) = .ok a (f t) := rfl

@[simp] theorem accesses_append (l l' : List PortEvent) : accesses (l ++ l') = accesses l + accesses l' :=
  List.countP_append

section
variable {s : State} {lands : Bool}

/-- A completed read brings the failure one access nearer. -/
theorem devRead_failingBus_succ {off : Nat} {r : ReadReg} (h : selectRead s.cfg off = some r) (n : Nat) :
    devRead off (s.failingBus (n + 1) lands) = .ok (s.answer r) ((s.afterRead off r).failingBus n lands) := by
  have hdue : (s.failingBus (n + 1) lands).busDue = false := rfl
  have hsel : selectRead (s.failingBus (n + 1) lands).cfg off = some r := h
  have hafter : (s.failingBus (n + 1) lands).afterRead off r = (s.afterRead off r).failingBus n lands := by
    cases hr : s.cfg.refDevice <;>
      simp [State.afterRead, State.failingBus, State.tickBus, State.emit, State.popDraw, State.answer, State.nextDraw, hr]
  simp only [devRead, hsel, hdue, hafter]
  rfl

theorem devWrite_failingBus_succ {off : Nat} {v : Word} {r : WriteReg} (h : selectWrite s.cfg off = some r) (n : Nat) :
    devWrite off v (s.failingBus (n + 1) lands) = .ok () ((s.afterWrite off v r).failingBus n lands) := by
  have hdue : (s.failingBus (n + 1) lands).busDue = false := rfl
  have hsel : selectWrite (s.failingBus (n + 1) lands).cfg off = some r := h
  simp only [devWrite, hsel, hdue]
  rfl

/-- The failure that has come is over. -/
theorem afterFailed_failingBus_zero (hb : s.env.busFail = none) (off : Nat) :
    (s.failingBus 0 lands).afterFailed off = s.afterFailed off := by
  obtain ⟨cfg, eng, dev, mem, ⟨a, b, c, d, f, m, o⟩, tr⟩ := s
  simp only at hb; subst hb; rfl

/-! ## Where a failed access leaves the step -/

/-- `t` is `m` with the access `a` reported as failed: F_BUS is recorded with its offset, and of the device at most a write
that lands has happened (R250, R252). -/
def FailedAt (m : State) (a : PortEvent) (lands : Bool) (t : State) : Prop :=
  ∃ off d, a.accessAt off ∧ t = ((m.updDev fun _ => d).afterFailed off).recordFault .bus (BitVec.ofNat 64 off) ∧
    (d = m.dev ∨ lands = true ∧ ∃ v r, selectWrite m.cfg off = some r ∧ d = applyWrite m.cfg m.dev v r)

theorem devRead_failingBus_zero (hb : s.env.busFail = none) {off : Nat} {r : ReadReg} (h : selectRead s.cfg off = some r)
    (w : Word) : ∃ t, devRead off (s.failingBus 0 lands) = .error () t ∧ FailedAt s (.rd off w) lands t := by
  refine ⟨_, devRead_fails h rfl, off, s.dev, .inl ⟨w, rfl⟩, ?_, .inl rfl⟩
  rw [afterFailed_failingBus_zero hb]; rfl

theorem devWrite_failingBus_zero (hb : s.env.busFail = none) {off : Nat} {v : Word} {r : WriteReg}
    (h : selectWrite s.cfg off = some r) :
    ∃ t, devWrite off v (s.failingBus 0 lands) = .error () t ∧ FailedAt s (.wr off v) lands t := by
  refine ⟨_, devWrite_fails h rfl, ?_⟩
  cases lands
  · refine ⟨off, s.dev, .inr ⟨v, rfl⟩, ?_, .inl rfl⟩
    exact congrArg (State.recordFault · _ _) (afterFailed_failingBus_zero hb off)
  · refine ⟨off, applyWrite s.cfg s.dev v r, .inr ⟨v, rfl⟩, ?_, .inr ⟨rfl, v, r, h, rfl⟩⟩
    exact congrArg (State.recordFault · _ _)
      (afterFailed_failingBus_zero (s := s.updDev fun _ => applyWrite s.cfg s.dev v r) hb off)

end

/-! ## Lockstep -/

/-- The run of `x` from `s` puts out `events`. With a failure to come after more accesses than those it ends as it does
without; a failure at one of them ends it there, in a state of which `P` holds together with that access. -/
structure Lockstep {α : Type} (lands : Bool) (P : State → PortEvent → Prop) (x : Op α) (s : State)
    (events : List PortEvent) : Prop where
  trace : (endState (x s)).trace = events ++ s.trace
  quiet : (endState (x s)).env.busFail = none
  passes : ∀ n, x (s.failingBus (n + accesses events) lands) = mapEnd (·.failingBus n lands) (x s)
  fails : ∀ later before a, events = later ++ a :: before → a.isAccess = true →
    ∃ m t, m.trace = before ++ s.trace ∧ P m a ∧ x (s.failingBus (accesses before) lands) = .error () t ∧
      FailedAt m a lands t

/-- `x` from `s` runs in lockstep with and without a coming failure, and `Q` holds of its result and state. -/
def Stops {α : Type} (lands : Bool) (P : State → PortEvent → Prop) (x : Op α) (s : State) (Q : α → State → Prop) :
    Prop :=
  s.env.busFail = none → (∃ events, Lockstep lands P x s events) ∧ ∀ a t, x s = .ok a t → Q a t

section
variable {α β : Type} {lands : Bool} {P : State → PortEvent → Prop} {x : Op α} {s : State} {Q : α → State → Prop}
  {R : β → State → Prop}

/-- An operation that makes no device access. -/
theorem Stops.of_no_access (events : List PortEvent) (hevents : accesses events = 0)
    (htrace : (endState (x s)).trace = events ++ s.trace) (hquiet : (endState (x s)).env.busFail = s.env.busFail)
    (hpass : ∀ n, x (s.failingBus n lands) = mapEnd (·.failingBus n lands) (x s))
    (hQ : ∀ a t, x s = .ok a t → Q a t) : Stops lands P x s Q := by
  refine fun hb => ⟨⟨events, htrace, hquiet.trans hb, fun n => by rw [hevents]; exact hpass n, ?_⟩, hQ⟩
  rintro later before a rfl ha
  exact absurd ha (List.countP_eq_zero.mp hevents a (by simp))

theorem Lockstep.bind_error {f : α → Op β} {events : List PortEvent} {t : State} (hx : Lockstep lands P x s events)
    (h : x s = .error () t) : Lockstep lands P (x >>= f) s events := by
  obtain ⟨htrace, hquiet, hpass, hfails⟩ := hx
  rw [h] at htrace hquiet
  refine ⟨by rw [run_bind, h]; exact htrace, by rw [run_bind, h]; exact hquiet, fun n => ?_, ?_⟩
  · rw [run_bind, run_bind, hpass, h]; rfl
  · intro later before a hsplit ha
    obtain ⟨m, u, hm, hP, hrun, hu⟩ := hfails later before a hsplit ha
    exact ⟨m, u, hm, hP, by rw [run_bind, hrun], hu⟩

/-- The failing access is one of the later part's, or of the earlier part's. -/
theorem Lockstep.bind_ok {f : α → Op β} {e₁ e₂ : List PortEvent} {a : α} {t : State} (hx : Lockstep lands P x s e₁)
    (h : x s = .ok a t) (hf : Lockstep lands P (f a) t e₂) : Lockstep lands P (x >>= f) s (e₂ ++ e₁) := by
  have hrun : (x >>= f) s = f a t := by rw [run_bind, h]
  have htrace : t.trace = e₁ ++ s.trace := by have := hx.trace; rwa [h] at this
  have hpass : ∀ n, (x >>= f) (s.failingBus (n + accesses e₁) lands) = f a (t.failingBus n lands) := fun n => by
    rw [run_bind, hx.passes, h, mapEnd_ok]
  refine ⟨?_, by rw [hrun]; exact hf.quiet, fun n => ?_, ?_⟩
  · rw [hrun, hf.trace, htrace, List.append_assoc]
  · rw [accesses_append, ← Nat.add_assoc, hpass, hf.passes, hrun]
  · intro later before b hsplit hacc
    have earlier : ∀ l, e₁ = l ++ b :: before → ∃ m u, m.trace = before ++ s.trace ∧ P m b ∧
        (x >>= f) (s.failingBus (accesses before) lands) = .error () u ∧ FailedAt m b lands u := fun l hl => by
      obtain ⟨m, u, hm, hP, hstop, hu⟩ := hx.fails l before b hl hacc
      exact ⟨m, u, hm, hP, by rw [run_bind, hstop], hu⟩
    obtain ⟨l, -, hl⟩ | ⟨l, hl, hbefore⟩ := List.append_eq_append_iff.mp hsplit
    · exact earlier l hl
    · cases l with
      | nil => exact earlier [] hbefore.symm
      | cons c l =>
        rw [List.cons_append] at hbefore
        obtain ⟨rfl, rfl⟩ := List.cons.inj hbefore
        obtain ⟨m, u, hm, hP, hstop, hu⟩ := hf.fails later l b hl hacc
        exact ⟨m, u, by rw [hm, htrace, List.append_assoc], hP, by rw [accesses_append, hpass, hstop], hu⟩

theorem Stops.bind {f : α → Op β} (hx : Stops lands P x s Q) (hf : ∀ a t, Q a t → Stops lands P (f a) t R) :
    Stops lands P (x >>= f) s R := by
  intro hb
  obtain ⟨⟨e₁, h₁⟩, hQ⟩ := hx hb
  cases hrun : x s with
  | error u t => exact ⟨⟨e₁, h₁.bind_error hrun⟩, fun a t h => by rw [run_bind, hrun] at h; cases h⟩
  | ok a t =>
    have hquiet := h₁.quiet
    rw [hrun] at hquiet
    obtain ⟨⟨e₂, h₂⟩, hR⟩ := hf a t (hQ a t hrun) hquiet
    exact ⟨⟨_, h₁.bind_ok hrun h₂⟩, by rw [run_bind, hrun]; exact hR⟩

/-- What is known of a result may use the run it comes from. -/
theorem Stops.run (hx : Stops lands P x s Q) : Stops lands P x s fun a t => Q a t ∧ x s = .ok a t :=
  fun hb => ⟨(hx hb).1, fun a t hrun => ⟨(hx hb).2 a t hrun, hrun⟩⟩

theorem Stops.get_bind {f : State → Op β} (hf : ∀ n, f (s.failingBus n lands) = f s) (h : Stops lands P (f s) s R) :
    Stops lands P (get >>= f) s R := by
  have hrun : ∀ n, (get >>= f) (s.failingBus n lands) = f s (s.failingBus n lands) := fun n => by
    rw [run_bind, run_get]; exact congrFun (hf n) _
  intro hb
  obtain ⟨⟨events, htrace, hquiet, hpass, hfails⟩, hR⟩ := h hb
  refine ⟨⟨events, htrace, hquiet, fun n => (hrun _).trans (hpass n), ?_⟩, hR⟩
  intro later before a hsplit ha
  obtain ⟨m, t, hm, hP, hx, ht⟩ := hfails later before a hsplit ha
  exact ⟨m, t, hm, hP, (hrun _).trans hx, ht⟩

/-! ## Operations that make no device access -/

theorem Stops.pure (a : α) (h : Q a s) : Stops lands P (Pure.pure a) s Q :=
  .of_no_access [] rfl rfl rfl (fun _ => rfl) fun _ _ hrun => by cases hrun; exact h

theorem Stops.raise (code : FaultCode) (info : Word) : Stops lands P (raise code info : Op α) s Q :=
  .of_no_access [] rfl rfl rfl (fun _ => rfl) fun _ _ hrun => by cases hrun

theorem Stops.updEng (f : Engine → Engine) {Q : Unit → State → Prop} (h : Q () (s.updEng f)) :
    Stops lands P (updEng f) s Q :=
  .of_no_access [] rfl rfl rfl (fun _ => rfl) fun _ _ hrun => by cases hrun; exact h

theorem Stops.updEng_bind {f : Engine → Engine} {g : Unit → Op β} (h : Stops lands P (g ()) (s.updEng f) R) :
    Stops lands P (Machine.updEng f >>= g) s R :=
  .bind (Q := fun _ t => t = s.updEng f) (.updEng f rfl) fun _ _ ht => ht ▸ h

theorem Stops.emit_bind {e : PortEvent} {g : Unit → Op β} (he : e.isAccess = false)
    (h : Stops lands P (g ()) (s.emit e) R) : Stops lands P (emit e >>= g) s R :=
  .bind (Q := fun _ t => t = s.emit e)
    (.of_no_access [e] (List.countP_eq_zero.mpr (by simpa using he)) rfl rfl (fun _ => rfl)
      fun _ _ hrun => by cases hrun; rfl) fun _ _ ht => ht ▸ h

/-- A working register is read: the operation ends there, or goes on with what the register holds (R32). -/
theorem Stops.readReg_bind {idx : Nat} {reg : Engine → Option α} {f : α → Op β}
    (hx : ∀ u, x u = readReg idx (reg u.eng) u) (h : ∀ a, reg s.eng = some a → Stops lands P (f a) s R) :
    Stops lands P (x >>= f) s R := by
  refine .bind (Q := fun a t => reg s.eng = some a ∧ t = s) ?_ fun a t ht => ht.2 ▸ h a ht.1
  have hfail : ∀ n, x (s.failingBus n lands) = mapEnd (·.failingBus n lands) (x s) := fun n => by
    rw [hx, hx, run_readReg, run_readReg]
    cases hreg : reg s.eng with
    | none => simp only [State.failingBus, hreg]; rfl
    | some a => simp only [State.failingBus, hreg]; rfl
  refine .of_no_access [] rfl ?_ ?_ hfail fun a t hrun => readReg_ok ((hx s).symm.trans hrun)
  · rw [hx, run_readReg]; split <;> rfl
  · rw [hx, run_readReg]; split <;> rfl

theorem Stops.done : Stops lands P (Pure.pure ()) s fun _ _ => True := .pure () trivial

/-- A body's last assignment. -/
theorem Stops.last (f : Engine → Engine) : Stops lands P (Machine.updEng f) s fun _ _ => True := .updEng f trivial

/-! ## Device accesses -/

/-- An access that completes when nothing fails. -/
theorem Stops.of_access {a : PortEvent} {r : α} {t : State} (ha : a.isAccess = true) (hrun : x s = .ok r t)
    (htrace : t.trace = a :: s.trace) (hquiet : t.env.busFail = none)
    (hpass : ∀ n, x (s.failingBus (n + 1) lands) = .ok r (t.failingBus n lands))
    (hfail : ∃ u, x (s.failingBus 0 lands) = .error () u ∧ FailedAt s a lands u) (hP : P s a) (hQ : Q r t) :
    Stops lands P x s Q := by
  refine fun _ => ⟨⟨[a], by rw [hrun]; exact htrace, by rw [hrun]; exact hquiet, fun n => ?_, ?_⟩, fun r' t' h => ?_⟩
  · have hone : accesses [a] = 1 := by simp [accesses, ha]
    rw [hone, hpass, hrun, mapEnd_ok]
  · intro later before b hsplit _
    obtain ⟨rfl, rfl⟩ : b = a ∧ before = [] := by cases later <;> simp_all
    obtain ⟨u, hu, hf⟩ := hfail
    exact ⟨s, u, rfl, hP, hu, hf⟩
  · rw [hrun] at h; cases h; exact hQ

/-- An access at an offset that selects no row is not made (R136). -/
theorem Stops.of_raises {code : FaultCode} {info : Word}
    (h : ∀ u : State, u.cfg = s.cfg → x u = Machine.raise code info u) : Stops lands P x s Q := by
  have hs := h s rfl
  refine .of_no_access [] rfl (by rw [hs]; rfl) (by rw [hs]; rfl) (fun n => ?_) fun a t hrun => ?_
  · rw [hs, h (s.failingBus n lands) rfl]; rfl
  · rw [hs] at hrun; cases hrun

theorem Stops.devRead {off : Nat} {Q : Word → State → Prop} (hP : ∀ w, P s (.rd off w))
    (hQ : ∀ r, Q (s.answer r) (s.afterRead off r)) : Stops lands P (devRead off) s Q := by
  cases hsel : selectRead s.cfg off with
  | none =>
    exact .of_raises (code := .addr) (info := BitVec.ofNat 64 off) fun u hu => by simp only [Machine.devRead, hu, hsel]
  | some r =>
    exact fun hb => Stops.of_access rfl (devRead_ok hb hsel) (afterRead_trace s off r) (afterRead_busFail hb off r)
      (devRead_failingBus_succ hsel) (devRead_failingBus_zero hb hsel _) (hP _) (hQ r) hb

theorem Stops.devWrite {off : Nat} {v : Word} {Q : Unit → State → Prop} (hP : P s (.wr off v))
    (hQ : ∀ r, selectWrite s.cfg off = some r → Q () (s.afterWrite off v r)) : Stops lands P (devWrite off v) s Q := by
  cases hsel : selectWrite s.cfg off with
  | none =>
    exact .of_raises (code := .addr) (info := BitVec.ofNat 64 off) fun u hu => by simp only [Machine.devWrite, hu, hsel]
  | some r =>
    exact fun hb => Stops.of_access rfl (devWrite_ok hb hsel) rfl (afterWrite_busFail hb off v r)
      (devWrite_failingBus_succ hsel) (devWrite_failingBus_zero hb hsel) hP (hQ r hsel) hb

theorem Stops.devRead_bind {off : Nat} {f : Word → Op β} (hP : ∀ w, P s (.rd off w))
    (hf : ∀ r, Stops lands P (f (s.answer r)) (s.afterRead off r) R) : Stops lands P (Machine.devRead off >>= f) s R :=
  .bind (Q := fun w t => ∃ r, w = s.answer r ∧ t = s.afterRead off r) (.devRead hP fun r => ⟨r, rfl, rfl⟩)
    fun _ _ ⟨r, hw, ht⟩ => hw ▸ ht ▸ hf r

theorem Stops.devWrite_bind {off : Nat} {v : Word} {f : Unit → Op β} (hP : P s (.wr off v))
    (hf : ∀ r, selectWrite s.cfg off = some r → Stops lands P (f ()) (s.afterWrite off v r) R) :
    Stops lands P (Machine.devWrite off v >>= f) s R :=
  .bind (Q := fun _ t => ∃ r, selectWrite s.cfg off = some r ∧ t = s.afterWrite off v r)
    (.devWrite hP fun r hr => ⟨r, hr, rfl⟩) fun _ _ ⟨r, hr, ht⟩ => ht ▸ hf r hr

end

/-! ## Host memory and draws -/

/-- Only the platform's bookkeeping has moved: a draw, or a host access counted. -/
structure OnlyCounts (s t : State) : Prop where
  cfg : t.cfg = s.cfg
  eng : t.eng = s.eng
  dev : t.dev = s.dev
  mem : t.mem = s.mem
  trace : t.trace = s.trace
  agenda : t.env.agenda = s.env.agenda
  busFail : t.env.busFail = s.env.busFail

theorem OnlyCounts.refl (s : State) : OnlyCounts s s := ⟨rfl, rfl, rfl, rfl, rfl, rfl, rfl⟩

theorem OnlyCounts.trans {s t u : State} (h : OnlyCounts s t) (k : OnlyCounts t u) : OnlyCounts s u :=
  ⟨k.cfg.trans h.cfg, k.eng.trans h.eng, k.dev.trans h.dev, k.mem.trans h.mem, k.trace.trans h.trace,
    k.agenda.trans h.agenda, k.busFail.trans h.busFail⟩

theorem OnlyCounts.tickMem (s : State) : OnlyCounts s s.tickMem := ⟨rfl, rfl, rfl, rfl, rfl, rfl, rfl⟩

theorem OnlyCounts.popDraw (s : State) : OnlyCounts s s.popDraw := ⟨rfl, rfl, rfl, rfl, rfl, rfl, rfl⟩

/-- A host read answers the byte, or raises F_HOSTMEM; device accesses are not its concern. -/
theorem memRead_cases (a : Nat) (s : State) :
    (∃ t, OnlyCounts s t ∧ memRead a s = .error () (t.recordFault .hostMem (BitVec.ofNat 64 a))) ∨
    memRead a s = .ok (s.mem.read a) s.tickMem := by
  cases hin : s.inHost a 1
  · exact .inl ⟨s, .refl s, by simp [memRead, hin]⟩
  cases hdue : s.memDue
  · exact .inr (by simp [memRead, hin, hdue])
  · exact .inl ⟨s.tickMem, .tickMem s, by simp [memRead, hin, hdue]⟩

section
variable {lands : Bool} {P : State → PortEvent → Prop} {s : State}

theorem memRead_stops (a : Nat) : Stops lands P (memRead a) s fun _ t => OnlyCounts s t := by
  have hsame : (endState (memRead a s)).trace = s.trace ∧ (endState (memRead a s)).env.busFail = s.env.busFail :=
    memRead_within (R := fun s t => t.trace = s.trace ∧ t.env.busFail = s.env.busFail) a (fun _ => ⟨rfl, rfl⟩)
      (fun _ => ⟨rfl, rfl⟩) (fun _ => ⟨rfl, rfl⟩) s
  refine .of_no_access [] rfl hsame.1 hsame.2 (fun n => ?_) fun b t h => ?_
  · have hin : (s.failingBus n lands).inHost a 1 = s.inHost a 1 := rfl
    have hdue : (s.failingBus n lands).memDue = s.memDue := rfl
    simp only [memRead, hin, hdue]
    split
    · rfl
    · split <;> rfl
  · obtain ⟨u, -, hu⟩ | hu := memRead_cases a s <;> rw [hu] at h <;> cases h
    exact .tickMem s

theorem memWrite8_stops (a : Nat) (w : Word) :
    Stops lands P (memWrite8 a w) s fun _ t => t = { s.tickMem with mem := s.mem.writeBytes a (bytesOf w 8) } := by
  have hsame : (endState (memWrite8 a w s)).trace = s.trace ∧ (endState (memWrite8 a w s)).env.busFail = s.env.busFail :=
    memWrite8_within (R := fun s t => t.trace = s.trace ∧ t.env.busFail = s.env.busFail) a w (fun _ _ _ => ⟨rfl, rfl⟩)
      (fun _ => ⟨rfl, rfl⟩) (fun _ _ _ => ⟨rfl, rfl⟩) s
  refine .of_no_access [] rfl hsame.1 hsame.2 (fun n => ?_) fun b t h => ?_
  · have hin : (s.failingBus n lands).inHost a 8 = s.inHost a 8 := rfl
    have hdue : (s.failingBus n lands).memDue = s.memDue := rfl
    simp only [memWrite8, hin, hdue]
    split
    · rfl
    · split <;> rfl
  · unfold memWrite8 at h
    split at h
    · cases h
    · split at h <;> cases h
      rfl

theorem txByte_stops (h : Word) (len j : Nat) : Stops lands P (txByte h len j) s fun _ t => OnlyCounts s t := by
  unfold txByte
  split
  · exact memRead_stops _
  · exact .of_no_access [] rfl rfl rfl (fun _ => rfl) fun _ _ hrun => by cases hrun; exact .popDraw s

theorem txBytes_stops (h : Word) (len n : Nat) :
    ∀ j s, Stops lands P (txBytes h len n j) s fun _ t => OnlyCounts s t := by
  induction n with
  | zero => exact fun _ s => .pure [] (.refl s)
  | succ n ih =>
    exact fun j s => .bind (txByte_stops h len j) fun b t ht => .bind (ih (j + 1) t) fun bs u hu =>
      .pure (b :: bs) (ht.trans hu)

theorem txWord_stops (h : Word) (len k : Nat) : Stops lands P (txWord h len k) s fun _ t => OnlyCounts s t :=
  .bind (txBytes_stops h len 8 (8 * k) s) fun bs _ ht => .pure (ofBytes bs) ht

end

/-! ## What a step has done when it comes to an access -/

/-- From `s` a step has come to `m`, the engine now `e` and host memory `mem`: it has put out `before`, and of the device it
has written what `before` says, at most the first `k` window words (R135). -/
structure Reached (s : State) (e : Engine) (mem : Memory) (k : Nat) (before : List PortEvent) (m : State) : Prop where
  cfg : m.cfg = s.cfg
  eng : m.eng = e
  mem : m.mem = mem
  trace : m.trace = before ++ s.trace
  written : ∀ x w, .wr x w ∈ before → (∃ j, j < k ∧ x = txAddr s.cfg j) ∧ m.dev.word x = w
  kept : ∀ x, (∀ w, .wr x w ∉ before) → m.dev.word x = s.dev.word x
  ring : m.dev.cons = s.dev.cons ∧ m.dev.full = s.dev.full ∧ m.dev.bad = s.dev.bad
  wire : m.dev.wire = s.dev.wire

/-- What the step `i` from `s`, which ends in `u` when nothing fails, has done when it comes to the access `a` in `m`. -/
structure AtAccess (i : Instr) (s u : State) (before : List PortEvent) (m : State) (a : PortEvent) : Prop where
  reached : ∃ k, Reached s (Engine.beforeAccess s.cfg i before s.eng) m.mem k before m
  mem : i ≠ .wkCopy → m.mem = s.mem
  copied : ∀ b x, i = .wkCopy → s.eng.buf = some (some b) → m.mem.read x =
    if bufAddr s.cfg b 0 ≤ x ∧ x < bufAddr s.cfg b (accesses before) then u.mem.read x else s.mem.read x
  fresh : ∀ off w, a.accessAt off → .wr off w ∉ before

section
variable {s m : State} {e : Engine} {mem : Memory} {k : Nat} {before : List PortEvent}

theorem Reached.start (s : State) : Reached s s.eng s.mem 0 [] s :=
  ⟨rfl, rfl, rfl, rfl, by simp, fun _ _ => rfl, ⟨rfl, rfl, rfl⟩, rfl⟩

theorem Reached.updEng (h : Reached s e mem k before m) (f : Engine → Engine) :
    Reached s (f e) mem k before (m.updEng f) :=
  ⟨h.cfg, congrArg f h.eng, h.mem, h.trace, h.written, h.kept, h.ring, h.wire⟩

theorem Reached.read (h : Reached s e mem k before m) (off : Nat) (r : ReadReg) :
    Reached s e mem k (.rd off (m.answer r) :: before) (m.afterRead off r) where
  cfg := (afterRead_cfg m off r).trans h.cfg
  eng := (afterRead_eng m off r).trans h.eng
  mem := (afterRead_mem m off r).trans h.mem
  trace := by rw [afterRead_trace, h.trace]; rfl
  written x w hw := by rw [afterRead_dev]; exact h.written x w (by simpa using hw)
  kept x hx := by rw [afterRead_dev]; exact h.kept x (by simpa using hx)
  ring := by rw [afterRead_dev]; exact h.ring
  wire := by rw [afterRead_dev]; exact h.wire

theorem Reached.counts {t : State} (h : Reached s e mem k before m) (ht : OnlyCounts m t) : Reached s e mem k before t :=
  ⟨ht.cfg.trans h.cfg, ht.eng.trans h.eng, ht.mem.trans h.mem, ht.trace.trans h.trace, ht.dev ▸ h.written,
    ht.dev ▸ h.kept, ht.dev ▸ h.ring, ht.dev ▸ h.wire⟩

/-- The next window word is written. -/
theorem Reached.writeTx (h : Reached s e mem k before m) (w : Word) :
    Reached s e mem (k + 1) (.wr (txAddr s.cfg k) w :: before) (m.afterWrite (txAddr s.cfg k) w (.txbuf k)) := by
  have hdev : (m.afterWrite (txAddr s.cfg k) w (.txbuf k)).dev = m.dev.store (txAddr s.cfg k) w := by rw [← h.cfg]; rfl
  refine ⟨h.cfg, h.eng, h.mem, ?_, fun x v hv => ?_, fun x hx => ?_, ?_, ?_⟩
  · rw [afterWrite_trace, h.trace]; rfl
  · rw [hdev]
    obtain heq | hmem := List.mem_cons.mp hv
    · cases heq; exact ⟨⟨k, by omega, rfl⟩, word_store_same _ _ _⟩
    · obtain ⟨⟨j, hj, rfl⟩, hword⟩ := h.written x v hmem
      refine ⟨⟨j, by omega, rfl⟩, ?_⟩
      rw [word_store_ne _ _ fun he => by have := txAddr_inj he; omega, hword]
  · simp only [List.mem_cons, not_or] at hx
    rw [hdev, word_store_ne _ _ fun he => (hx w).1 (by rw [he]), h.kept x fun v => (hx v).2]
  · rw [hdev]; exact h.ring
  · rw [hdev]; exact h.wire

/-- A step that leaves host memory alone comes to an access apart from the window words it has written. -/
theorem Reached.atAccess {i : Instr} {a : PortEvent} (h : Reached s e s.mem k before m) (u : State) (hi : i ≠ .wkCopy)
    (he : e = Engine.beforeAccess s.cfg i before s.eng)
    (hfresh : ∀ off, a.accessAt off → ∀ j, j < k → off ≠ txAddr s.cfg j) : AtAccess i s u before m a :=
  ⟨⟨k, he ▸ h.mem ▸ h⟩, fun _ => h.mem, fun _ _ hcopy => absurd hcopy hi,
    fun off w ha hw => by obtain ⟨⟨j, hj, hoff⟩, -⟩ := h.written off w hw; exact hfresh off ha j hj hoff⟩

/-- A step that has written nothing comes to an access. -/
theorem Reached.atFirst {i : Instr} (h : Reached s e s.mem 0 before m) (u : State) (hi : i ≠ .wkCopy)
    (he : e = Engine.beforeAccess s.cfg i before s.eng) (a : PortEvent) : AtAccess i s u before m a :=
  h.atAccess u hi he fun _ _ j hj => absurd hj (Nat.not_lt_zero j)

end

/-! ## Each step's accesses -/

/-- The body `x` of the step `i` from `s`, which ends in `u` when nothing fails, stops at whichever of its accesses fails. -/
def StopsBody (lands : Bool) (i : Instr) (s u : State) (x : Op Unit) (m : State) : Prop :=
  Stops lands (fun m a => ∃ before, AtAccess i s u before m a) x m fun _ _ => True

section
variable {lands : Bool} {i : Instr} {s u m : State} {e : Engine} {before : List PortEvent}

theorem ctlRMW_stops (h : Reached s e s.mem 0 before m) (hi : i ≠ .wkCopy)
    (he : ∀ before, e = Engine.beforeAccess s.cfg i before s.eng) (clear set : Word) :
    StopsBody lands i s u (ctlRMW clear set) m :=
  .get_bind (fun _ => rfl) <| .devRead_bind (fun _ => ⟨_, h.atFirst u hi (he _) _⟩) fun r =>
    .devWrite ⟨_, (h.read _ r).atFirst u hi (he _) _⟩ fun _ _ => trivial

theorem initStep_stops : StopsBody lands .stInit s u initStep s :=
  .get_bind (fun _ => rfl) <| .bind (ctlRMW_stops (.start s) (by nofun) (fun _ => rfl) _ _) fun _ _ _ => .last _

theorem ifStart_stops : StopsBody lands .ifStart s u ifStart s := by
  refine .updEng_bind <| .get_bind (fun _ => rfl) ?_
  split
  · exact .bind (ctlRMW_stops ((Reached.start s).updEng _) (by nofun) (fun _ => rfl) _ _) fun _ _ _ => .last _
  · exact .last _

theorem setPromisc_stops (on : Bool) : StopsBody lands (.setPromisc on) s u (setPromisc on) s := by
  refine .updEng_bind <| .get_bind (fun _ => rfl) ?_
  have hrmw := fun clear set => ctlRMW_stops (lands := lands) (i := .setPromisc on) (u := u)
    ((Reached.start s).updEng fun e => { e with promisc := on }) (by nofun) (fun _ => rfl) clear set
  split
  · exact .bind (hrmw _ _) fun _ _ _ => .last _
  · exact .bind (hrmw _ _) fun _ _ _ => .last _

theorem readMac_stops : StopsBody lands .readMac s u readMac s :=
  .get_bind (fun _ => rfl) <| .devRead_bind (fun _ => ⟨_, (Reached.start s).atFirst u (by nofun) rfl _⟩) fun r =>
    .devRead_bind (fun _ => ⟨_, ((Reached.start s).read _ r).atFirst u (by nofun) rfl _⟩) fun _ => .last _

theorem fastPath_stops : StopsBody lands .evRxIrq s u fastPath s := by
  refine .get_bind (fun _ => rfl) ?_
  split
  · refine .devRead_bind (fun _ => ⟨_, (Reached.start s).atFirst u (by nofun) rfl _⟩) fun r => ?_
    split
    · exact .bind (ctlRMW_stops ((Reached.start s).read _ r) (by nofun) (fun _ => rfl) _ _) fun _ _ _ => .last _
    · exact .done
  · exact .done

/-- The check that both ticks share. -/
theorem checkAndSignal_stops (hi : i ≠ .wkCopy) (he : s.eng = Engine.beforeAccess s.cfg i [] s.eng) :
    StopsBody lands i s u checkAndSignal s := by
  refine .get_bind (fun _ => rfl) ?_
  split
  · refine .devRead_bind (fun _ => ⟨_, (Reached.start s).atFirst u hi he _⟩) fun r => ?_
    split
    · exact .last _
    · exact .done
  · exact .done

theorem pollTick_stops : StopsBody lands .evPollTick s u pollTick s := by
  refine .get_bind (fun _ => rfl) ?_
  split
  · exact checkAndSignal_stops (by nofun) rfl
  · exact .done

theorem wkTest_stops : StopsBody lands .wkTest s u wkTest s :=
  .get_bind (fun _ => rfl) <| .devRead_bind (fun _ => ⟨_, (Reached.start s).atFirst u (by nofun) rfl _⟩) fun _ => .last _

/-- E.slot is written before the first read, E.errs before the second (R177, log entry 23). -/
theorem wkDecode_stops : StopsBody lands .wkDecode s u wkDecode s := by
  refine .get_bind (fun _ => rfl) <| .readReg_bind (reg := Engine.st) (fun _ => rfl) fun st hst =>
    .updEng_bind <| .devRead_bind (fun _ => ⟨_, ((Reached.start s).updEng _).atFirst u (by nofun) ?_ _⟩) fun r =>
    .updEng_bind <|
    .devRead_bind (fun _ => ⟨_, ((((Reached.start s).updEng _).read _ r).updEng _).atFirst u (by nofun) ?_ _⟩)
      fun _ => .last _
  · simp only [Engine.beforeAccess, hst]; rfl
  · simp only [Engine.beforeAccess, hst]; rfl

theorem wkReject_stops : StopsBody lands .wkReject s u wkReject s :=
  .get_bind (fun _ => rfl) <| .updEng_bind <| .readReg_bind (reg := Engine.slot) (fun _ => rfl) fun _ _ =>
    .devWrite_bind ⟨_, ((Reached.start s).updEng _).atFirst u (by nofun) rfl _⟩ fun _ _ => .last _

theorem wkAdvance_stops : StopsBody lands .wkAdvance s u wkAdvance s :=
  .get_bind (fun _ => rfl) <| .readReg_bind (reg := Engine.slot) (fun _ => rfl) fun _ _ =>
    .devWrite_bind ⟨_, (Reached.start s).atFirst u (by nofun) rfl _⟩ fun _ _ => .last _

theorem wkExit_stops : StopsBody lands .wkExit s u wkExit s := by
  refine .updEng_bind <| .get_bind (fun _ => rfl) ?_
  split
  · exact ctlRMW_stops ((Reached.start s).updEng _) (by nofun) (fun _ => rfl) _ _
  · exact .done

theorem busRead_stops (hi : i ≠ .wkCopy) (he : s.eng = Engine.beforeAccess s.cfg i [] s.eng) (inRange : Bool)
    (r : ReadReg) : StopsBody lands i s u (busRead inRange r) s := by
  refine .get_bind (fun _ => rfl) ?_
  split
  · exact .devRead_bind (fun _ => ⟨_, (Reached.start s).atFirst u hi he _⟩) fun _ => .done
  · exact .raise _ _

theorem busWrite_stops (hi : i ≠ .wkCopy) (he : s.eng = Engine.beforeAccess s.cfg i [] s.eng) (inRange : Bool)
    (r : WriteReg) (v : Word) : StopsBody lands i s u (busWrite inRange r v) s := by
  refine .get_bind (fun _ => rfl) ?_
  split
  · exact .devWrite ⟨_, (Reached.start s).atFirst u hi he _⟩ fun _ _ => trivial
  · exact .raise _ _

/-- The transmit copy comes to each word of the window with the words before it written (R150, R152). -/
theorem txCopy_stops (hc : ConfigFacts s.cfg) {len : BitVec 24} {h : Word} (n : Nat) :
    ∀ {k : Nat} {before : List PortEvent} {m : State}, 8 * (k + n) ≤ s.cfg.txWindowBytes →
    Reached s s.eng s.mem k before m →
    Stops lands (fun m a => ∃ before, AtAccess (.txSend len h) s u before m a) (txCopy h len.toNat n k) m
      fun _ t => ∃ before, Reached s s.eng s.mem (k + n) before t := by
  induction n with
  | zero => exact fun _ hm => .pure () ⟨_, hm⟩
  | succ n ih =>
    intro k before m hfit hm
    refine .bind (txWord_stops h len.toNat k) fun w t ht => .get_bind (fun _ => rfl) ?_
    have hreach := hm.counts ht
    rw [hreach.cfg]
    refine .devWrite_bind ⟨_, hreach.atAccess u (by nofun) rfl ?_⟩ fun r hsel => ?_
    · rintro off (⟨_, he⟩ | ⟨_, he⟩) j hj hoff
      · cases he
      · obtain ⟨rfl, -⟩ := PortEvent.wr.inj he
        have := txAddr_inj hoff
        omega
    · rw [hreach.cfg, selectWrite_tx hc (by omega)] at hsel
      cases hsel
      rw [← Nat.add_assoc, Nat.add_right_comm]
      exact ih (by omega) (hreach.writeTx w)

/-- Only the sending branch of R150 makes accesses; TPLR lies apart from the window. -/
theorem txSend_stops (hc : ConfigFacts s.cfg) (len : BitVec 24) (h : Word) :
    StopsBody lands (.txSend len h) s u (txSend len.toNat h) s := by
  have hdrop : StopsBody lands (.txSend len h) s u (txDrop h len.toNat) s := .emit_bind rfl (.last _)
  refine .get_bind (fun _ => rfl) ?_
  split
  · exact hdrop
  split
  · exact hdrop
  · next hfit =>
    have hwords := words8_fit hc (Nat.le_of_not_lt hfit)
    refine .get_bind (fun _ => rfl) <| .bind (txCopy_stops (u := u) hc _ (by omega) (.start s)) ?_
    rintro _ t ⟨before, ht⟩
    refine .devWrite_bind ⟨_, ht.atAccess u (by nofun) rfl ?_⟩ fun _ _ => .updEng_bind <| .emit_bind rfl <| .last _
    rintro off (⟨_, he⟩ | ⟨_, he⟩) j hj hoff
    · cases he
    · obtain ⟨rfl, -⟩ := PortEvent.wr.inj he
      exact txAddr_ne_tplr hc (by omega) hoff.symm

/-- The bytes of the buffer before word `k` are not written any more. -/
structure KeepsBelow (k : Nat) (s t : State) : Prop where
  cfg : t.cfg = s.cfg
  buf : t.eng.buf = s.eng.buf
  mem : ∀ b x, s.eng.buf = some (some b) → x < bufAddr s.cfg b k → t.mem.read x = s.mem.read x

theorem keepsBelow_closed (k : Nat) : Closed (KeepsBelow k) where
  refl _ := ⟨rfl, rfl, fun _ _ _ _ => rfl⟩
  trans {s t u} h g := ⟨g.cfg.trans h.cfg, g.buf.trans h.buf, fun b x hb hx =>
    (g.mem b x (h.buf.trans hb) (by rwa [h.cfg])).trans (h.mem b x hb hx)⟩

theorem KeepsBelow.of_mem_eq {k : Nat} {s t : State} (hcfg : t.cfg = s.cfg) (hbuf : t.eng.buf = s.eng.buf)
    (hmem : t.mem = s.mem) : KeepsBelow k s t :=
  ⟨hcfg, hbuf, fun _ _ _ _ => by rw [hmem]⟩

theorem readReg_keepsBelow {α : Type} (k idx : Nat) (reg : Option α) (s : State) :
    At (KeepsBelow k) (readReg idx reg) s :=
  At.readReg (keepsBelow_closed k) (fun _ _ => .of_mem_eq rfl rfl rfl) idx reg s

/-- The copy loop from word `j` on writes at or after that word. -/
theorem rxCopy_keepsBelow (k n : Nat) : ∀ (j : Nat) (s : State), k ≤ j → At (KeepsBelow k) (rxCopy n j) s := by
  induction n with
  | zero => exact fun _ s _ => (keepsBelow_closed k).refl s
  | succ n ih =>
    intro j s hj
    refine At.get_bind <| At.bind (keepsBelow_closed k) (readReg_keepsBelow k _ _ s) fun i t _ hst =>
      At.bind (keepsBelow_closed k) ?_ fun w v _ htv =>
      At.bind (keepsBelow_closed k) (readReg_keepsBelow k _ _ v) fun b v' hread _ => ?_
    · obtain ⟨hcfg, -, hmem, heng⟩ := devRead_end (rxAddr s.cfg i j) t
      exact .of_mem_eq hcfg (by rw [heng]) hmem
    · obtain ⟨hb, rfl⟩ := readReg_ok hread
      refine At.bind (keepsBelow_closed k) ?_ fun _ y _ _ => ih (j + 1) y (by omega)
      have hcfg : v'.cfg = s.cfg := htv.cfg.trans hst.cfg
      obtain ⟨hcfg', -, heng, hmem⟩ := memWrite8_end (bufAddr s.cfg b j) w v'
      refine ⟨hcfg', by rw [heng], fun b' x hb' hx => ?_⟩
      obtain rfl : b' = b := by rw [hb'] at hb; simpa using hb
      obtain hmem | ⟨bs, -, hmem⟩ := hmem
      · rw [hmem]
      · rw [hmem, Memory.read_writeBytes_outside (.inl ?_)]
        rw [hcfg] at hx
        unfold bufAddr at hx ⊢; omega

/-- Where the receive copy is at word `k`: the words before it are in the buffer, every other byte is as it was (R184). -/
structure Copying (s : State) (k : Nat) (before : List PortEvent) (m : State) : Prop where
  reached : Reached s s.eng m.mem 0 before m
  count : accesses before = k
  outside : ∀ b x, s.eng.buf = some (some b) → x < bufAddr s.cfg b 0 ∨ bufAddr s.cfg b k ≤ x →
    m.mem.read x = s.mem.read x

theorem Copying.start (s : State) : Copying s 0 [] s := ⟨.start s, rfl, fun _ _ _ _ => rfl⟩

theorem Copying.atAccess {k : Nat} (h : Copying s k before m)
    (hu : ∀ b x, s.eng.buf = some (some b) → x < bufAddr s.cfg b k → u.mem.read x = m.mem.read x) (a : PortEvent) :
    AtAccess .wkCopy s u before m a := by
  refine ⟨⟨0, h.reached⟩, fun hne => absurd rfl hne, fun b x _ hb => ?_, fun off w _ hw => ?_⟩
  · rw [h.count]
    split
    · next hx => exact (hu b x hb hx.2).symm
    · next hx => exact h.outside b x hb (by omega)
  · obtain ⟨⟨j, hj, -⟩, -⟩ := h.reached.written off w hw
    exact absurd hj (Nat.not_lt_zero j)

/-- Word `k` has gone to the buffer. -/
theorem Copying.word {k : Nat} (h : Copying s k before m) {b : Word} (hb : s.eng.buf = some (some b)) (off : Nat)
    (r : ReadReg) : Copying s (k + 1) (.rd off (m.answer r) :: before)
      { (m.afterRead off r).tickMem with
        mem := (m.afterRead off r).mem.writeBytes (bufAddr s.cfg b k) (bytesOf (m.answer r) 8) } := by
  obtain ⟨hcfg, heng, -, htrace, hwritten, hkept, hring, hwire⟩ := h.reached.read off r
  refine ⟨⟨hcfg, heng, rfl, htrace, hwritten, hkept, hring, hwire⟩, ?_, fun b' x hb' hx => ?_⟩
  · rw [← h.count]; exact List.countP_cons_of_pos rfl
  · obtain rfl : b' = b := by rw [hb'] at hb; simpa using hb
    have hword : 8 + bufAddr s.cfg b' k = bufAddr s.cfg b' (k + 1) := by unfold bufAddr; omega
    have hfirst : bufAddr s.cfg b' 0 ≤ bufAddr s.cfg b' k := by unfold bufAddr; omega
    show Memory.read (Memory.writeBytes _ _ _) x = _
    rw [Memory.read_writeBytes_outside (by rw [length_bytesOf]; omega), afterRead_mem]
    exact h.outside b' x hb' (by omega)

theorem rxCopy_stops (n : Nat) : ∀ {k : Nat} {before : List PortEvent} {m : State}, Copying s k before m →
    u.mem = (endState (rxCopy n k m)).mem → StopsBody lands .wkCopy s u (rxCopy n k) m := by
  induction n with
  | zero => exact fun _ _ => .done
  | succ n ih =>
    intro k before m hm hu
    have hbelow := rxCopy_keepsBelow k (n + 1) k m (le_refl k)
    refine .get_bind (fun _ => rfl) <| .readReg_bind (reg := Engine.slot) (fun _ => rfl) fun i hi => ?_
    refine .bind (Stops.run (Q := fun w t => ∃ r, w = m.answer r ∧ t = m.afterRead (rxAddr m.cfg i k) r) <|
      .devRead (fun w => ⟨before, hm.atAccess (fun b x hb hx => ?_) _⟩) fun r => ⟨r, rfl, rfl⟩) ?_
    · rw [hu]
      exact hbelow.mem b x (hm.reached.eng ▸ hb) (by rwa [hm.reached.cfg])
    rintro _ _ ⟨⟨r, rfl, rfl⟩, hread⟩
    refine .readReg_bind (reg := fun e => e.buf.join) (fun _ => rfl) fun b hb => ?_
    have hbuf : (m.afterRead (rxAddr m.cfg i k) r).eng.buf = some (some b) := Option.join_eq_some_iff.mp hb
    refine .bind (memWrite8_stops _ _).run ?_
    rintro _ _ ⟨rfl, hwrite⟩
    have hnext := hm.word (b := b) (by rw [← hbuf, afterRead_eng, hm.reached.eng]) (rxAddr m.cfg i k) r
    rw [← hm.reached.cfg] at hnext
    refine ih hnext (hu.trans ?_)
    simp only [rxCopy, run_bind, run_get, readSlot_some hi, hread, readBuf_some hbuf, hwrite]

/-- WK_COPY ends with the memory that its loop leaves. -/
theorem wkCopy_stops (hu : u.mem = (endState (wkCopy s)).mem) : StopsBody lands .wkCopy s u wkCopy s := by
  refine .bind (Q := fun n t => s.eng.len = some (.bytes n) ∧ t = s) ?_ ?_
  · refine .readReg_bind (reg := Engine.len) (fun _ => rfl) fun len hlen => ?_
    cases len with
    | bytes n => exact .pure n ⟨hlen, rfl⟩
    | badlen => exact .raise _ _
  · rintro n t ⟨hlen, ht⟩
    rw [ht]
    refine .bind (rxCopy_stops (words8 n) (.start s) (hu.trans ?_)) fun _ _ _ => .last _
    simp only [wkCopy, run_bind, readLenBytes_some hlen]
    cases rxCopy (words8 n) 0 s <;> rfl

end

/-! ## Every step -/

section
variable {i : Instr} {s u : State} {lands : Bool} {later before : List PortEvent} {a : PortEvent}

theorem isAccess_of_accessAt {off : Nat} (h : a.accessAt off) : a.isAccess = true := by
  obtain ⟨w, rfl⟩ | ⟨w, rfl⟩ := h <;> rfl

theorem accessAt_unique {off off' : Nat} (h : a.accessAt off) (h' : a.accessAt off') : off' = off := by
  obtain ⟨w, rfl⟩ | ⟨w, rfl⟩ := h <;> obtain ⟨w', h'⟩ | ⟨w', h'⟩ := h' <;> cases h' <;> rfl

/-- What the step `i` from `s`, which ends in `u` and puts out `before` and then `a` when nothing fails, does with `a`
failed: it comes to the access as it does without a failure, and ends there. -/
def StopsThere (i : Instr) (s u : State) (before : List PortEvent) (a : PortEvent) (lands : Bool) : Prop :=
  ∃ m t, AtAccess i s u before m a ∧ exec i (s.failingBus (accesses before) lands) = .next t ∧ FailedAt m a lands t

theorem no_event_of_same_trace : s.trace ≠ later ++ a :: before ++ s.trace := fun h => by
  have hlen := congrArg List.length h
  simp only [List.length_append, List.length_cons] at hlen
  omega

/-- A step whose body stops at whichever of its accesses fails. -/
theorem StopsBody.stopsThere {on : Bool} {x : Op Unit} (hx : StopsBody lands i s u x s)
    (hexec : ∀ n, exec i (s.failingBus n lands) = gate on x (s.failingBus n lands)) (hb : s.env.busFail = none)
    (h : gate on x s = .next u) (htrace : u.trace = later ++ a :: before ++ s.trace) (ha : a.isAccess = true) :
    StopsThere i s u before a lands := by
  cases on with
  | false =>
    rw [gate_off rfl] at h
    cases h
    exact absurd htrace no_event_of_same_trace
  | true =>
    rw [gate_on rfl] at h
    cases h
    obtain ⟨⟨events, hlock⟩, -⟩ := hx hb
    rw [stateAfter_eq, hlock.trace, List.append_cancel_right_eq] at htrace
    obtain ⟨m, t, hm, ⟨before', hat⟩, hrun, hfail⟩ := hlock.fails later before a htrace ha
    obtain rfl : before' = before := by
      obtain ⟨k, hreached⟩ := hat.reached
      exact List.append_cancel_right (hreached.trace.symm.trans hm)
    exact ⟨m, t, hat, by rw [hexec, gate_on rfl, stateAfter_error hrun], hfail⟩

/-- An access that a completed step puts out is one that it may issue. -/
theorem mayIssue_of_trace (h : exec i s = .next u) (htrace : u.trace = later ++ a :: before ++ s.trace) :
    mayIssue s i a := by
  obtain ⟨events, hevents, hmay⟩ := (exec_issues h).trace
  rw [hevents, List.append_cancel_right_eq] at htrace
  exact hmay a (by simp [htrace])

/-- A step that puts out anything was enabled. -/
theorem enables_of_trace (h : exec i s = .next u) (htrace : u.trace = later ++ a :: before ++ s.trace) :
    s.enables i = true := by
  refine Bool.of_not_eq_false fun hoff => ?_
  rw [exec_of_not_enabled hoff] at h
  cases h
  exact no_event_of_same_trace htrace

/-- Whichever of its accesses fails, the step ends there. -/
theorem exec_stopsThere (hc : ConfigFacts s.cfg) (hb : s.env.busFail = none) (h : exec i s = .next u)
    (htrace : u.trace = later ++ a :: before ++ s.trace) (ha : a.isAccess = true) : StopsThere i s u before a lands := by
  have hmay := mayIssue_of_trace h htrace
  cases i with
  | ifStop | setCaps | getPromisc | getCaps | getMaxlen | readCounter | evReset | wkValidate | wkAbort => exact hmay.elim
  | wkAlloc => obtain ⟨r, rfl⟩ := hmay; cases ha
  | wkDeliver => obtain ⟨b, -, ⟨-, rfl⟩ | ⟨-, n, -, rfl⟩⟩ := hmay <;> cases ha
  | txSend len w => exact (txSend_stops hc len w).stopsThere (fun _ => rfl) hb h htrace ha
  | ifStart => exact ifStart_stops.stopsThere (fun _ => rfl) hb h htrace ha
  | setPromisc on => exact (setPromisc_stops on).stopsThere (fun _ => rfl) hb h htrace ha
  | readMac => exact readMac_stops.stopsThere (fun _ => rfl) hb h htrace ha
  | evRxIrq => exact fastPath_stops.stopsThere (fun _ => rfl) hb h htrace ha
  | evPollTick => exact pollTick_stops.stopsThere (fun _ => rfl) hb h htrace ha
  | evWatchdogTick => exact (checkAndSignal_stops (by nofun) rfl).stopsThere (fun _ => rfl) hb h htrace ha
  | stInit => exact initStep_stops.stopsThere (fun _ => rfl) hb h htrace ha
  | wkTest => exact wkTest_stops.stopsThere (fun _ => rfl) hb h htrace ha
  | wkDecode => exact wkDecode_stops.stopsThere (fun _ => rfl) hb h htrace ha
  | wkReject => exact wkReject_stops.stopsThere (fun _ => rfl) hb h htrace ha
  | wkAdvance => exact wkAdvance_stops.stopsThere (fun _ => rfl) hb h htrace ha
  | wkExit => exact wkExit_stops.stopsThere (fun _ => rfl) hb h htrace ha
  | wkCopy =>
    refine (wkCopy_stops ?_).stopsThere (fun _ => rfl) hb h htrace ha
    have hrun := (gate_on (enables_of_trace h htrace) wkCopy s).symm.trans h
    cases hrun
    rw [stateAfter_eq]
  | rdMaclo | rdMachi | rdRsr | rdRbad | rdRplr | rdRxbuf =>
    exact (busRead_stops (by nofun) rfl _ _).stopsThere (fun _ => rfl) hb h htrace ha
  | wrMachi | wrTplr | wrRsr | wrTxbuf =>
    exact (busWrite_stops (by nofun) rfl _ _ _).stopsThere (fun _ => rfl) hb h htrace ha

/-- A fault is recorded by no assignment of a step (R250). -/
theorem beforeAccess_fault (c : Config) (i : Instr) (before : List PortEvent) (e : Engine) :
    (Engine.beforeAccess c i before e).fault = e.fault := by
  cases i <;> rfl

/-- A write changes the word it names at most, and the ring only where it names RSR (R80, R81). -/
theorem applyWrite_frame {c : Config} (hc : ConfigFacts c) {off : Nat} {r : WriteReg} (hsel : selectWrite c off = some r)
    (d : Device) (v : Word) : (∀ x, x ≠ off → (applyWrite c d v r).word x = d.word x) ∧
    (off ≠ c.offRsr → (applyWrite c d v r).cons = d.cons ∧ (applyWrite c d v r).full = d.full ∧
      (applyWrite c d v r).bad = d.bad) := by
  obtain ⟨-, -, -, -, -, -, htxbuf, -, -⟩ := hc.offs8
  obtain ⟨rfl, -⟩ := selectWrite_some htxbuf hsel
  cases r with
  | machi => exact ⟨fun x hx => word_store_ne _ _ hx, fun _ => ⟨rfl, rfl, rfl⟩⟩
  | tplr =>
    rw [applyWrite_tplr]
    exact ⟨fun x hx => word_store_ne _ _ hx, fun _ => ⟨rfl, rfl, rfl⟩⟩
  | rsr => exact ⟨fun _ _ => rfl, fun hne => absurd rfl hne⟩
  | txbuf k => exact ⟨fun x hx => word_store_ne _ _ hx, fun _ => ⟨rfl, rfl, rfl⟩⟩

end

/-- What a failed access can have done to the device: only a write that lands changes anything, and only its own word and,
at RSR, the ring. -/
theorem failedAccess_frame {m : State} {d : Device} {off : Nat} {lands : Bool} (hc : ConfigFacts m.cfg)
    (hd : d = m.dev ∨ lands = true ∧ ∃ v r, selectWrite m.cfg off = some r ∧ d = applyWrite m.cfg m.dev v r) :
    (∀ x, x ≠ off → d.word x = m.dev.word x) ∧ (lands = false → d = m.dev) ∧
    (lands = false ∨ off ≠ m.cfg.offRsr → d.cons = m.dev.cons ∧ d.full = m.dev.full ∧ d.bad = m.dev.bad) := by
  obtain rfl | ⟨rfl, v, r, hsel, rfl⟩ := hd
  · exact ⟨fun _ _ => rfl, fun _ => rfl, fun _ => ⟨rfl, rfl, rfl⟩⟩
  · obtain ⟨hword, hring⟩ := applyWrite_frame hc hsel m.dev v
    exact ⟨hword, nofun, fun hl => hring (hl.resolve_left nofun)⟩

/-- Settles O47: up to the access that fails the step runs in lockstep with the one in which nothing fails. -/
theorem failedDeviceAccessEndsTheStep : Obligations.FailedDeviceAccessEndsTheStep := by
  intro i s u later before a off lands hc hb h htrace ha
  have hacc := isAccess_of_accessAt ha
  have hreset : i ≠ .evReset := by
    rintro rfl
    exact mayIssue_of_trace h htrace
  have halive : s.eng.fault = none := alive_iff.mp (alive_of_enables hreset (enables_of_trace h htrace))
  obtain ⟨m, t, ⟨⟨k, hm⟩, hmem, hcopied, hfresh⟩, hrun, off', d, hoff, rfl, hd⟩ :=
    exec_stopsThere (lands := lands) hc.facts hb h htrace hacc
  obtain rfl := accessAt_unique ha hoff
  obtain ⟨hword, hlost, hring⟩ := failedAccess_frame (hm.cfg ▸ hc.facts) hd
  refine ⟨_, hrun, hm.cfg, ?_, ?_, hmem, fun b x hi hbuf => hcopied b x hi hbuf, fun x w hw => ?_, fun x hx hnot => ?_,
    fun hl => ?_, fun hl => ?_⟩
  · rw [recordFault_trace, afterFailed_trace, updDev_trace, hm.trace, List.cons_append]
  · rw [recordFault_eng, afterFailed_eng, updDev_eng, hm.eng, beforeAccess_fault, halive, Option.none_or]
  · have hne : x ≠ off' := by rintro rfl; exact hfresh x w ha hw
    exact (hword x hne).trans (hm.written x w hw).2
  · exact (hword x hx).trans (hm.kept x hnot)
  · rw [hlost hl]
    exact ⟨hm.kept off' fun w => hfresh off' w ha, hm.wire⟩
  · obtain ⟨hcons, hfull, hbad⟩ := hring (by rw [hm.cfg]; exact hl)
    obtain ⟨hcons', hfull', hbad'⟩ := hm.ring
    exact ⟨hcons.trans hcons', hfull.trans hfull', hbad.trans hbad'⟩

end Sys2Proof.Machine
end

section
/-! PROOFS. A failed host access (spec/60_exceptions.md R253; spec/20_memory.md R84): WK_COPY stops at the word it was
writing, TX_SEND at the byte it was reading. -/

namespace Sys2Proof.Machine

/-- The events `f 0` to `f (n - 1)`, newest first. -/
def newestFirst (f : Nat → PortEvent) (n : Nat) : List PortEvent := ((List.range n).map f).reverse

theorem newestFirst_succ (f : Nat → PortEvent) (n : Nat) : newestFirst f (n + 1) = f n :: newestFirst f n := by
  simp [newestFirst, List.range_succ]

theorem newestFirst_congr {f g : Nat → PortEvent} {n : Nat} (h : ∀ j, j < n → f j = g j) :
    newestFirst f n = newestFirst g n :=
  congrArg List.reverse (List.map_congr_left fun j hj => h j (List.mem_range.mp hj))

/-! ## The receive copy up to the word that fails -/

section
variable {s : State} {i k : Nat} {b : Word}

/-- The copy loop at one word: what it has read goes to the buffer, and the loop goes on (R185). -/
theorem rxCopy_read (hb : s.env.busFail = none) (hsel : selectRead s.cfg (rxAddr s.cfg i k) = some (.rxbuf i k))
    (hslot : s.eng.slot = some i) (hbuf : s.eng.buf = some (some b)) (n : Nat) :
    rxCopy (n + 1) k s = (memWrite8 (bufAddr s.cfg b k) (s.answer (.rxbuf i k)) >>= fun _ => rxCopy n (k + 1))
      (s.afterRead (rxAddr s.cfg i k) (.rxbuf i k)) := by
  have hbuf' : readBuf (s.afterRead (rxAddr s.cfg i k) (.rxbuf i k)) = .ok b _ := readBuf_some (by rw [afterRead_eng, hbuf])
  simp only [rxCopy, run_bind, run_get, readSlot_some hslot, devRead_ok hb hsel, hbuf']

/-- A device read leaves it open to a host write to complete or to fail as it would have before. -/
theorem afterRead_inHost_memDue (hroom : bufAddr s.cfg b k + 8 ≤ 2 ^ s.cfg.hostAddrBits) (off : Nat) (r : ReadReg) :
    (s.afterRead off r).inHost (bufAddr s.cfg b k) 8 = true ∧ (s.afterRead off r).memDue = s.memDue :=
  ⟨by simp [State.inHost, hroom], by rw [State.memDue, afterRead_memFail, State.memDue]⟩

/-- The copy loop at one word whose accesses complete. -/
theorem rxCopy_succ (hb : s.env.busFail = none) (hdue : s.memDue = false)
    (hsel : selectRead s.cfg (rxAddr s.cfg i k) = some (.rxbuf i k)) (hslot : s.eng.slot = some i)
    (hbuf : s.eng.buf = some (some b)) (hroom : bufAddr s.cfg b k + 8 ≤ 2 ^ s.cfg.hostAddrBits) (n : Nat) :
    rxCopy (n + 1) k s = rxCopy n (k + 1) (s.afterWord i k b) := by
  obtain ⟨hin, hdue'⟩ := afterRead_inHost_memDue hroom (rxAddr s.cfg i k) (.rxbuf i k)
  rw [rxCopy_read hb hsel hslot hbuf, run_bind]
  simp [memWrite8, hin, hdue', hdue, State.afterWord]

/-- Where the copy loop stops when the write of word `k` fails: of the word the bytes that landed are stored. -/
def State.failedWord (s : State) (i k : Nat) (b : Word) : State :=
  { (s.afterRead (rxAddr s.cfg i k) (.rxbuf i k)).tickMem with
    mem := s.mem.writeBytes (bufAddr s.cfg b k)
      ((s.afterRead (rxAddr s.cfg i k) (.rxbuf i k)).landedBytes (bufAddr s.cfg b k) (s.answer (.rxbuf i k))) }

@[simp] theorem failedWord_cfg : (s.failedWord i k b).cfg = s.cfg := by simp [State.failedWord]
@[simp] theorem failedWord_eng : (s.failedWord i k b).eng = s.eng := by simp [State.failedWord]
@[simp] theorem failedWord_dev : (s.failedWord i k b).dev = s.dev := by simp [State.failedWord]
@[simp] theorem failedWord_agenda : (s.failedWord i k b).env.agenda = s.env.agenda := by simp [State.failedWord]
@[simp] theorem failedWord_trace : (s.failedWord i k b).trace =
    .rd (rxAddr s.cfg i k) (s.answer (.rxbuf i k)) :: s.trace := by simp [State.failedWord]

/-- Byte `m` of the failing word is stored where its lane landed. -/
theorem read_failedWord {lanes : BitVec 8} (hfail : s.env.memFail = some ⟨0, lanes⟩) {m : Nat} (hm : m < 8) :
    (s.failedWord i k b).mem.read (bufAddr s.cfg b k + m) =
      if lanes.getLsbD m then byteOf (s.answer (.rxbuf i k)) m else s.mem.read (bufAddr s.cfg b k + m) := by
  have hlands : (s.afterRead (rxAddr s.cfg i k) (.rxbuf i k)).memLands m = lanes.getLsbD m := by
    rw [State.memLands, afterRead_memFail, hfail]; rfl
  show Memory.read (Memory.writeBytes _ _ _) _ = _
  rw [Memory.read_writeBytes, if_pos (Nat.le_add_right _ _), Nat.add_sub_cancel_left, State.landedBytes,
    List.getD_eq_getElem?_getD, List.getElem?_map, List.getElem?_range hm, Option.map_some, Option.getD_some, hlands,
    afterRead_mem]

theorem read_failedWord_outside {x : Nat} (hx : x < bufAddr s.cfg b k ∨ bufAddr s.cfg b (k + 1) ≤ x) :
    (s.failedWord i k b).mem.read x = s.mem.read x := by
  refine Memory.read_writeBytes_outside ?_
  rw [length_landedBytes]
  unfold bufAddr at hx ⊢; omega

/-- The copy loop at the word whose write fails. -/
theorem rxCopy_fails (hb : s.env.busFail = none) (hdue : s.memDue = true)
    (hsel : selectRead s.cfg (rxAddr s.cfg i k) = some (.rxbuf i k)) (hslot : s.eng.slot = some i)
    (hbuf : s.eng.buf = some (some b)) (hroom : bufAddr s.cfg b k + 8 ≤ 2 ^ s.cfg.hostAddrBits) (n : Nat) :
    rxCopy (n + 1) k s =
      .error () ((s.failedWord i k b).recordFault .hostMem (BitVec.ofNat 64 (bufAddr s.cfg b k))) := by
  obtain ⟨hin, hdue'⟩ := afterRead_inHost_memDue hroom (rxAddr s.cfg i k) (.rxbuf i k)
  rw [rxCopy_read hb hsel hslot hbuf, run_bind]
  simp [memWrite8, hin, hdue', hdue, State.failedWord]

/-- A failure to come after `j` words leaves the copy of these as it is. -/
theorem rxCopy_failingMem {c : Config} (hc : ConfigFacts c) (hi : i < c.slotCount) (lanes : BitVec 8) (j : Nat) :
    ∀ {k : Nat} {s t : State}, s.cfg = c → s.quiet → s.eng.slot = some i → s.eng.buf = some (some b) →
    8 * (k + j) ≤ c.slotStride → bufAddr c b (k + j) ≤ 2 ^ c.hostAddrBits → rxCopy j k s = .ok () t →
    ∀ n, rxCopy (j + n) k (s.failingMem j lanes) = rxCopy n (k + j) (t.failingMem 0 lanes) := by
  induction j with
  | zero => intro k s t _ _ _ _ _ _ hrun n; cases hrun; rw [Nat.zero_add]; rfl
  | succ j ih =>
    intro k s t hs hq hslot hbuf hstride hhost hrun n
    subst hs
    have hsel : selectRead s.cfg (rxAddr s.cfg i k) = some (.rxbuf i k) := selectRead_rx hc hi (by omega)
    have hroom : bufAddr s.cfg b k + 8 ≤ 2 ^ s.cfg.hostAddrBits := by unfold bufAddr at hhost ⊢; omega
    have hdue : s.memDue = false := by simp [State.memDue, hq.2]
    have hafter : (s.failingMem (j + 1) lanes).afterWord i k b = (s.afterWord i k b).failingMem j lanes := by
      cases hr : s.cfg.refDevice <;>
        simp [State.afterWord, State.afterRead, State.failingMem, State.tickBus, State.tickMem, State.emit, State.popDraw,
          State.answer, State.nextDraw, hr]
    have hword := afterWord_onlyCopies s i k b
    rw [rxCopy_succ hq.1 hdue hsel hslot hbuf hroom] at hrun
    rw [Nat.add_right_comm, rxCopy_succ (s := s.failingMem (j + 1) lanes) hq.1 rfl hsel hslot hbuf hroom, hafter,
      ih hword.cfg (hword.quiet hq) (by rw [hword.eng, hslot]) (by rw [hword.eng, hbuf]) (by omega)
        (by rwa [Nat.add_right_comm, Nat.add_assoc]) hrun, Nat.add_right_comm, Nat.add_assoc]

end

/-! ## The transmit copy up to the byte that fails -/

/-- Of the host reads of the frame at `h` from byte `j` on, that of byte `k` is the first to fail: the platform reports it as
failed, or it is the first byte past host memory (R84, log entry 10). -/
def ReadFailsAt (h k j : Nat) (s : State) : Prop :=
  (∃ lanes, s.env.memFail = some ⟨k - j, lanes⟩ ∧ h + k < 2 ^ s.cfg.hostAddrBits) ∨
  (s.env.memFail = none ∧ 2 ^ s.cfg.hostAddrBits ≤ h + k ∧ ∀ i, i < k → h + i < 2 ^ s.cfg.hostAddrBits)

section
variable {s m : State} {h : Word} {len k : Nat}

theorem memRead_of_later_failure {a j : Nat} (hf : ReadFailsAt a k j s) (hj : j < k) :
    memRead (a + j) s = .ok (s.mem.read (a + j)) s.tickMem ∧ ReadFailsAt a k (j + 1) s.tickMem := by
  obtain ⟨lanes, hfail, hhost⟩ | ⟨hfail, hout, hin⟩ := hf
  · have h1 : s.inHost (a + j) 1 = true := by simp only [State.inHost, decide_eq_true_eq]; omega
    have h2 : s.memDue = false := by simp [State.memDue, hfail]; omega
    refine ⟨by simp [memRead, h1, h2], .inl ⟨lanes, ?_, hhost⟩⟩
    simp only [State.tickMem, hfail, Option.bind_some]
    rw [if_neg (by omega), Nat.sub_sub]
  · refine ⟨?_, .inr ⟨by simp [State.tickMem, hfail], hout, hin⟩⟩
    have h1 : s.inHost (a + j) 1 = true := by have := hin j hj; simp only [State.inHost, decide_eq_true_eq]; omega
    simp [memRead, h1, State.memDue, hfail]

theorem memRead_of_failure {a : Nat} (hf : ReadFailsAt a k k s) :
    ∃ t, OnlyCounts s t ∧ memRead (a + k) s = .error () (t.recordFault .hostMem (BitVec.ofNat 64 (a + k))) := by
  obtain ⟨lanes, hfail, -⟩ | ⟨-, hout, -⟩ := hf
  · have hdue : s.memDue = true := by simp [State.memDue, hfail]
    obtain hrun | hrun := memRead_fails hdue (a + k)
    · exact ⟨s, .refl s, hrun⟩
    · exact ⟨s.tickMem, .tickMem s, hrun⟩
  · have hpast : s.inHost (a + k) 1 = false := by simp only [State.inHost, decide_eq_false_iff_not]; omega
    exact ⟨s, .refl s, by simp [memRead, hpast]⟩

/-- The bytes before the failing one are read. -/
theorem txBytes_of_later_failure (hk : k < len) (n : Nat) : ∀ {j : Nat} {m : State},
    ReadFailsAt h.toNat k j m → j + n ≤ k →
    ∃ bs t, txBytes h len n j m = .ok bs t ∧ OnlyCounts m t ∧ ReadFailsAt h.toNat k (j + n) t ∧ bs.length = n ∧
      ∀ i, i < n → bs.getD i 0 = m.mem.read (h.toNat + (j + i)) := by
  induction n with
  | zero => exact fun hf _ => ⟨[], _, rfl, .refl _, hf, rfl, fun i hi => absurd hi (Nat.not_lt_zero i)⟩
  | succ n ih =>
    intro j m hf hj
    obtain ⟨hread, hnext⟩ := memRead_of_later_failure hf (by omega)
    obtain ⟨bs, t, hrun, ht, hlast, hlen, hbytes⟩ := ih hnext (by omega)
    rw [Nat.add_right_comm, Nat.add_assoc] at hlast
    refine ⟨m.mem.read (h.toNat + j) :: bs, t, ?_, (OnlyCounts.tickMem m).trans ht, hlast,
      by rw [List.length_cons, hlen], fun i hi => ?_⟩
    · simp only [txBytes, txByte, if_pos (show j < len by omega), run_bind, hread, hrun, run_pure]
    · cases i with
      | zero => rfl
      | succ i => rw [List.getD_cons_succ, hbytes i (by omega), tickMem_mem, show j + 1 + i = j + (i + 1) by omega]

theorem txBytes_of_failure (hk : k < len) (n : Nat) : ∀ {j : Nat} {m : State},
    ReadFailsAt h.toNat k j m → j ≤ k → k < j + n →
    ∃ t, OnlyCounts m t ∧ txBytes h len n j m = .error () (t.recordFault .hostMem (BitVec.ofNat 64 (h.toNat + k))) := by
  induction n with
  | zero => exact fun _ _ _ => by omega
  | succ n ih =>
    intro j m hf hj hn
    obtain rfl | hlt := Nat.eq_or_lt_of_le hj
    · obtain ⟨t, ht, hread⟩ := memRead_of_failure hf
      exact ⟨t, ht, by simp only [txBytes, txByte, if_pos hk, run_bind, hread]⟩
    · obtain ⟨hread, hnext⟩ := memRead_of_later_failure hf hlt
      obtain ⟨t, ht, hrun⟩ := ih hnext (by omega) (by omega)
      exact ⟨t, (OnlyCounts.tickMem m).trans ht,
        by simp only [txBytes, txByte, if_pos (show j < len by omega), run_bind, hread, hrun]⟩

/-- The writes of the first `w` window words, newest first. -/
def windowWrites (c : Config) (ws : Nat → Word) (w : Nat) : List PortEvent :=
  newestFirst (fun j => .wr (txAddr c j) (ws j)) w

theorem mem_windowWrites {c : Config} {ws : Nat → Word} {w x : Nat} {v : Word} :
    .wr x v ∈ windowWrites c ws w ↔ ∃ j, j < w ∧ x = txAddr c j ∧ v = ws j := by
  simp [windowWrites, newestFirst, eq_comm]

/-- Where the transmit copy is at word `w`: the words before it hold the frame's bytes (R151, R152). -/
structure Sending (s : State) (h : Word) (ws : Nat → Word) (w : Nat) (m : State) : Prop where
  reached : Reached s s.eng s.mem w (windowWrites s.cfg ws w) m
  busFail : m.env.busFail = none
  agenda : m.env.agenda = s.env.agenda
  frame : ∀ j, j < 8 * w → byteOf (ws (j / 8)) (j % 8) = s.mem.read (h.toNat + j)

theorem Sending.counts {ws : Nat → Word} {w : Nat} {t : State} (hm : Sending s h ws w m) (ht : OnlyCounts m t) :
    Sending s h ws w t :=
  ⟨hm.reached.counts ht, ht.busFail.trans hm.busFail, ht.agenda.trans hm.agenda, hm.frame⟩

/-- The next window word is written. -/
theorem Sending.writeTx {ws : Nat → Word} {w : Nat} (hm : Sending s h ws w m) {v : Word}
    (hv : ∀ i, i < 8 → byteOf v i = s.mem.read (h.toNat + (8 * w + i))) :
    Sending s h (Function.update ws w v) (w + 1) (m.afterWrite (txAddr s.cfg w) v (.txbuf w)) := by
  have hold : ∀ j, j < w → Function.update ws w v j = ws j := fun j hj => Function.update_of_ne (by omega) _ _
  have hnew : Function.update ws w v w = v := Function.update_self _ _ _
  refine ⟨?_, afterWrite_busFail hm.busFail _ _ _, hm.agenda, fun j hj => ?_⟩
  · rw [windowWrites, newestFirst_succ, hnew, newestFirst_congr fun j hj => by rw [hold j hj]]
    exact hm.reached.writeTx v
  · by_cases hjw : j < 8 * w
    · rw [hold _ (by omega), hm.frame j hjw]
    · rw [show j / 8 = w by omega, hnew, hv _ (by omega), show 8 * w + j % 8 = j by omega]

/-- The transmit copy stops at the word of the byte that fails. -/
theorem txCopy_of_failure (hc : ConfigFacts s.cfg) (hk : k < len) (d : Nat) : ∀ {n w : Nat} {m : State} {ws : Nat → Word},
    w + d = k / 8 → d < n → 8 * (w + n) ≤ s.cfg.txWindowBytes → ReadFailsAt h.toNat k (8 * w) m →
    Sending s h ws w m →
    ∃ ws' t, txCopy h len n w m = .error () (t.recordFault .hostMem (BitVec.ofNat 64 (h.toNat + k))) ∧
      Sending s h ws' (k / 8) t := by
  induction d with
  | zero =>
    intro n w m ws hw hn hfit hf hm
    obtain ⟨n, rfl⟩ := Nat.exists_eq_succ_of_ne_zero (show n ≠ 0 by omega)
    obtain ⟨t, ht, hrun⟩ := txBytes_of_failure (h := h) hk 8 hf (by omega) (by omega)
    refine ⟨ws, t, ?_, hw ▸ hm.counts ht⟩
    simp only [txCopy, txWord, run_bind, hrun]
  | succ d ih =>
    intro n w m ws hw hn hfit hf hm
    obtain ⟨n, rfl⟩ := Nat.exists_eq_succ_of_ne_zero (show n ≠ 0 by omega)
    obtain ⟨bs, t, hrun, ht, hlast, hlen, hbytes⟩ := txBytes_of_later_failure (h := h) hk 8 hf (by omega)
    have hsend := hm.counts ht
    have hcfg := hsend.reached.cfg
    have hsel : selectWrite t.cfg (txAddr s.cfg w) = some (.txbuf w) := by
      rw [hcfg]; exact selectWrite_tx hc (by omega)
    have hnext := hsend.writeTx (v := ofBytes bs) fun i hi => by
      rw [byteOf_ofBytes bs (by omega) hi, hbytes i hi, hm.reached.mem]
    obtain ⟨ws', u, hrest, hu⟩ := ih (n := n) (by omega) (by omega) (by omega) hlast hnext
    refine ⟨ws', u, ?_, hu⟩
    simp only [txCopy, txWord, run_bind, hrun, run_pure, run_get, hcfg, devWrite_ok hsend.busFail hsel]
    exact hrest

end

/-! ## The obligation -/

section
variable {s : State} {k : Nat}

/-- A WK_COPY whose write of word `k` fails. -/
theorem exec_wkCopy_fails {n i : Nat} {b : Word} {lanes : BitVec 8} (hc : ConfigFacts s.cfg) (hq : s.quiet)
    (hat : s.atStep .copy = true) (hlen : s.eng.len = some (.bytes n)) (hn : n ≤ s.cfg.maxFrameBytes) (hk : k < words8 n)
    (hslot : s.eng.slot = some i) (hi : i < s.cfg.slotCount) (hbuf : s.eng.buf = some (some b))
    (hroom : bufAddr s.cfg b k + 8 ≤ 2 ^ s.cfg.hostAddrBits) :
    ∃ ws v, Received s v ws i b 0 k ∧ v.env.memFail = some ⟨0, lanes⟩ ∧ exec .wkCopy (s.failingMem k lanes) =
      .next ((v.failedWord i k b).recordFault .hostMem (BitVec.ofNat 64 (bufAddr s.cfg b k))) := by
  have hstride := copy_inside hc hn hk
  have hcopied : bufAddr s.cfg b (0 + k) ≤ 2 ^ s.cfg.hostAddrBits := by rw [Nat.zero_add]; omega
  obtain ⟨ws, t, hrun, ht⟩ := rxCopy_ok k 0 hc hq hslot hi hbuf (by omega) hcopied
  obtain ⟨t', hends, hkeeps⟩ := rxCopy_ends hc hi k 0 s rfl hslot hbuf (by omega) hcopied
  have htq : t.quiet := by
    obtain hrun' | ⟨hnot, -⟩ := hends
    · rw [hrun] at hrun'; cases hrun'; exact hkeeps.quiet hq
    · exact absurd hq hnot
  obtain ⟨r, hr⟩ := Nat.exists_eq_add_of_lt hk
  have hv : Received s (t.failingMem 0 lanes) ws i b 0 k :=
    ⟨ht.cfg, ht.eng, ht.dev, ht.agenda, ht.trace, ht.inside, ht.outside, ht.ref⟩
  refine ⟨ws, _, hv, rfl, (gate_on hat _ _).trans (congrArg _ (stateAfter_error (e := ()) ?_))⟩
  have hloop : rxCopy (words8 n) 0 (s.failingMem k lanes) = rxCopy (r + 1) k (t.failingMem 0 lanes) := by
    rw [hr, Nat.add_assoc, rxCopy_failingMem hc hi lanes k rfl hq hslot hbuf (by omega) hcopied hrun, Nat.zero_add]
  have hfails := rxCopy_fails (s := t.failingMem 0 lanes) (i := i) (k := k) (b := b) htq.1 rfl
    (by rw [hv.cfg]; exact selectRead_rx hc hi (by omega)) (by rw [hv.eng, hslot]) (by rw [hv.eng, hbuf])
    (by rw [hv.cfg]; exact hroom) r
  simp only [wkCopy, run_bind, readLenBytes_some (s := s.failingMem k lanes) hlen, hloop, hfails, hv.cfg]

/-- What is left of the copy when the write of word `k` fails (R253). -/
theorem failedWord_leaves {ws : Nat → Word} {i : Nat} {b : Word} {v : State} (hv : Received s v ws i b 0 k)
    (hf : s.eng.fault = none) (info : Word) :
    Leaves s ((v.failedWord i k b).recordFault .hostMem info) { s.eng with fault := some ⟨.hostMem, info⟩ } s.dev
      (v.failedWord i k b).mem
      (newestFirst (fun j => .rd (rxAddr s.cfg i j) (Function.update ws k (v.answer (.rxbuf i k)) j)) (k + 1)) where
  cfg := by rw [recordFault_cfg, failedWord_cfg, hv.cfg]
  eng := by rw [recordFault_eng, failedWord_eng, hv.eng, hf, Option.none_or]
  dev := by rw [recordFault_dev, failedWord_dev, hv.dev]
  mem := rfl
  trace := by
    rw [recordFault_trace, failedWord_trace, hv.trace, hv.cfg, newestFirst_succ, Function.update_self, List.cons_append,
      ← List.range_eq_range']
    congr 2
    exact newestFirst_congr fun j hj => by rw [Function.update_of_ne (by omega)]
  agenda := by rw [recordFault_env, failedWord_agenda, hv.agenda]

/-- A TX_SEND whose host read of byte `k` is the first to fail. -/
theorem exec_txSend_stopped {v : State} {len : BitVec 24} {h : Word} (hc : ConfigFacts s.cfg) (hv : OnlyCounts s v)
    (hb : s.env.busFail = none) (hup : s.up = true) (hrun : s.eng.running = true)
    (hfit : len.toNat ≤ s.cfg.txWindowBytes) (hk : k < len.toNat) (hf : ReadFailsAt h.toNat k 0 v) :
    ∃ t ws, exec (.txSend len h) v = .next t ∧ SendStopped s t h k ws := by
  have hstart : Sending s h (fun _ => 0) 0 v :=
    ⟨(Reached.start s).counts hv, hv.busFail.trans hb, hv.agenda, fun j hj => absurd hj (Nat.not_lt_zero j)⟩
  have hwords := words8_fit hc hfit
  have hlast := div8_lt_words8 hk
  obtain ⟨ws, t, hcopy, ht⟩ := txCopy_of_failure (n := words8 len.toNat) hc hk (k / 8) (Nat.zero_add _) hlast
    (by rw [Nat.zero_add]; exact hwords) hf hstart
  have halive : s.eng.fault = none := (up_iff.mp hup).2
  refine ⟨_, ws, (gate_on (by rw [State.up, State.alive, hv.eng]; exact hup) _ _).trans (congrArg _
    (stateAfter_error (e := ()) (t := t.recordFault .hostMem (BitVec.ofNat 64 (h.toNat + k))) ?_)),
    ⟨ht.reached.cfg, ?_, rfl, ht.reached.mem, ht.reached.trace, ht.agenda⟩, fun j hj => ht.frame j (by omega),
    fun j hj => (ht.reached.written _ _ (mem_windowWrites.mpr ⟨j, hj, rfl, rfl⟩)).2, fun off hoff => ?_, ht.reached.ring,
    ht.reached.wire⟩
  · rw [txSend_eq_txSendFrame h (by rw [hv.eng]; exact hrun) (by rw [hv.cfg]; exact hfit)]
    simp only [txSendFrame, run_bind, run_get, hcopy]
  · rw [recordFault_eng, ht.reached.eng, halive, Option.none_or]
  · refine ht.reached.kept off fun w hw => ?_
    obtain ⟨j, hj, hoff', -⟩ := mem_windowWrites.mp hw
    exact hoff j hj hoff'

end

/-- Settles O48: the copy loops run as without a failure up to the host access that fails. -/
theorem failedHostAccessEndsTheStep : Obligations.FailedHostAccessEndsTheStep := by
  intro s k lanes hc hq
  refine ⟨fun n i b hat hlen hn hk hslot hi hbuf hroom => ?_,
    fun len h hup hrun hfit hk => ⟨fun hhost => ?_, fun hpast => ?_⟩⟩
  · obtain ⟨ws, v, hv, hfail, hexec⟩ :=
      exec_wkCopy_fails (lanes := lanes) hc.facts hq hat hlen hn hk hslot hi hbuf hroom
    have hout : ∀ x, x < bufAddr s.cfg b k ∨ bufAddr s.cfg b (k + 1) ≤ x →
        (v.failedWord i k b).mem.read x = v.mem.read x := fun x hx => read_failedWord_outside (by rwa [hv.cfg])
    have hold : ∀ j, j < k → Function.update ws k (v.answer (.rxbuf i k)) j = ws j := fun j hj =>
      Function.update_of_ne (by omega) _ _
    have hat' := (atStep_iff.mp hat).1
    refine ⟨_, _, hexec, failedWord_leaves hv (up_iff.mp hat').2 _, fun j hj => ?_, fun m hm => ?_, fun x hx => ?_,
      fun href j hj => ?_⟩
    · rw [recordFault_mem, hout _ (.inl (by unfold bufAddr; omega)), hold _ (by omega),
        ← hv.inside (j / 8) (Nat.zero_le _) (by omega) (j % 8) (by omega)]
      congr 1
      unfold bufAddr; omega
    · have hbyte := read_failedWord (i := i) (k := k) (b := b) hfail hm
      rw [hv.cfg] at hbyte
      rw [recordFault_mem, hbyte, Function.update_self, hv.outside _ (.inr (by rw [Nat.zero_add]; omega))]
    · rw [recordFault_mem, hout x (by unfold bufAddr at hx ⊢; omega), hv.outside x (by unfold bufAddr at hx ⊢; omega)]
    · obtain rfl | hlt := Nat.eq_or_lt_of_le hj
      · rw [Function.update_self, answer_ref (by rw [hv.cfg]; exact href), hv.cfg, hv.dev]; rfl
      · rw [hold j hlt, hv.ref href j (Nat.zero_le _) (by omega)]
  · have hv : OnlyCounts s (s.failingMem k lanes) := ⟨rfl, rfl, rfl, rfl, rfl, rfl, rfl⟩
    exact exec_txSend_stopped hc.facts hv hq.1 hup hrun hfit hk (.inl ⟨lanes, rfl, hhost⟩)
  · exact exec_txSend_stopped hc.facts (.refl s) hq.1 hup hrun hfit hk (.inr ⟨hq.2, by omega, fun i hi => by omega⟩)

end Sys2Proof.Machine
end

section
/-! PROOFS. Leaving a state by EV_RESET (spec/70_reset_and_hazards.md R280; spec/20_memory.md R90), and the INIT step that
follows it (R281). -/

namespace Sys2Proof.Machine

/-! ## The device after a reset -/

/-- A reset leaves no slot marked full (R90). -/
theorem isFull_reset (c : Config) (seed i : Nat) : (Device.reset c seed).isFull i = false := by
  rw [Device.isFull, List.getD_eq_getElem?_getD]
  exact List.getElem?_getD_replicate_default_eq false c.slotCount i

/-- The reset of the reference device stores the two MAC words and no other, MACHI last (R90). -/
theorem reset_eq_store_mac {c : Config} (href : c.refDevice = true) (seed : Nat) :
    Device.reset c seed =
      (Device.store { Device.reset c seed with words := [] } c.offMaclo ((c.refMac.extractLsb' 0 32).setWidth 64)).store
        c.offMachi ((c.refMac.extractLsb' 32 16).setWidth 64) := by
  simp [Device.reset, Device.store, href]

theorem word_machi_reset {c : Config} (href : c.refDevice = true) (seed : Nat) :
    (Device.reset c seed).word c.offMachi = (c.refMac.extractLsb' 32 16).setWidth 64 := by
  rw [reset_eq_store_mac href, word_store_same]

/-- MACHI's store leaves MACLO alone, since the check keeps the two registers apart (R255). -/
theorem word_maclo_reset {c : Config} (hc : ConfigFacts c) (href : c.refDevice = true) (seed : Nat) :
    (Device.reset c seed).word c.offMaclo = (c.refMac.extractLsb' 0 32).setWidth 64 := by
  rw [reset_eq_store_mac href, word_store_ne _ _ hc.regionsApart.lo_hi.ne_reg.symm, word_store_same]

/-! ## The obligations -/

/-- Settles O16: the next state is `State.resetMachine`, its device the reset one. -/
theorem resetEventRestartsTheEngine : Obligations.ResetEventRestartsTheEngine := fun s =>
  ⟨s.resetMachine, rfl, rfl, rfl, rfl, rfl, fun hc href =>
    ⟨rfl, isFull_reset s.cfg s.env.drawn, rfl, word_machi_reset href s.env.drawn,
      word_maclo_reset hc.facts href s.env.drawn⟩⟩

/-- Settles O17: the two accesses of one `CtlRMW` that clears both control bits, then E.init_done. -/
theorem initClearsBothControlBits : Obligations.InitClearsBothControlBits := by
  intro s hc hq hready
  refine ⟨_, (initStep_ends hc.facts).next_of_quiet hready hq, ?_⟩
  constructor <;> simp

end Sys2Proof.Machine
end
